-- ==== Sys2Proof/Word.lean ====
section
/-! DEFINITION. The machine's bit-vector widths (00_scope.md R5, R6). -/

namespace Sys2Proof

/-- One byte of memory or of an instruction. -/
abbrev Byte := BitVec 8

/-- A selector, a word on a 16-bit stack frame, the limit of IDTR (R5). -/
abbrev Half := BitVec 16

/-- A register, an offset or a linear address (R5, R31). -/
abbrev Word := BitVec 32

end Sys2Proof
end

