-- ==== Sys2Proof/Config.lean ====
section
/-! DEFINITION. What an implementation fixes (00_scope.md R5) and the free values: constants
without a body, so that no proof can know them (92_eei_decisions.md D5, D11, D31, D4, U4). -/

namespace Sys2Proof.Config

/-- NESTED_FAULT_POLICY (00_scope.md R5, 92_eei_decisions.md D8): what an exception raised while
another exception is delivered does. -/
inductive NestedFaultPolicy
  /-- The machine has no step (D8, the spec's default). -/
  | refuse
  /-- Double fault or shutdown, by 93_implementation_defined.md G10. -/
  | doubleFault
deriving DecidableEq, Repr

/-- The open parameters of 00_scope.md R5 that do not change while the machine runs. They stand in
State, so that a statement over all states holds for all of their values. -/
structure Params where
  /-- NESTED_FAULT_POLICY. -/
  nestedFault : NestedFaultPolicy
  /-- NMI_LATCH_DEPTH: how many NMIs are remembered while NMIs are blocked (D24, log 15). -/
  nmiLatchDepth : Nat
  /-- RESET_IDTR: the base of IDTR after a hardware reset (D15, log 1). -/
  resetIdtrBase : Word
  /-- RESET_IDTR: the limit of IDTR after a hardware reset (D15, log 1). -/
  resetIdtrLimit : Half
  /-- ERRCODE_VECTORS: the exception vectors that push an error code (D3). -/
  errcodeVectors : List Byte
deriving DecidableEq, Repr

/-- The upper 16 bits of a selector's slot in a 32-bit frame (D5: any value). Log 9. -/
opaque freeSlotHalf : Nat → Half

/-- Whether an STI that turns IF on holds maskable interrupts off for one more instruction
(D11: both admitted). Log 10. -/
opaque freeStiWindow : Nat → Bool

/-- Whether a load of SS inside an inhibition window extends it (D31: either). Log 11. -/
opaque freeInhibitExtends : Nat → Bool

/-- The order among maskable requests of one priority class (D4, U2: any). Log 12. -/
opaque freeOrder : Nat → Nat

/-- PRIORITY_WITHIN_CLASS: which of several faults of one class is raised, as an index into them
(D4, U2: any; each fault is given by its vector and error code). Log 41. -/
opaque freeFaultOrder : Nat → List (Byte × Word) → Nat

/-- The CS selector an abort saves (U4: any value). Log 13. -/
opaque freeAbortCs : Nat → Half

/-- The EIP an abort saves (U4: any value). Log 13. -/
opaque freeAbortEip : Nat → Word

/-- The upper half of EIP after a 16-bit IRET, which the stack does not restore (R73). Log 8. -/
opaque freeEipHalf : Nat → Half

/-- The upper half of ESP after a 16-bit IRET to an outer level (R73). Log 8. -/
opaque freeEspHalf : Nat → Half

end Sys2Proof.Config
end

