-- ==== Sys2Proof/Syntax.lean ====
section
/-! DEFINITION. The instructions of 30_encoding.md R53: one constructor per row of
spec/opcode_table.json, with every operand form of R50 to R52 kept apart, so that an instruction
determines its own bytes. -/

namespace Sys2Proof

/-- The general registers, in the order of their numbers 0 to 7 (10_state.md R22). -/
inductive Reg
  | eax | ecx | edx | ebx | esp | ebp | esi | edi
deriving DecidableEq, Repr

/-- The segment registers, in the order of their numbers 0 to 5 (10_state.md R23). -/
inductive SReg
  | es | cs | ss | ds | fs | gs
deriving DecidableEq, Repr

/-- The prefix bytes of 30_encoding.md R51. -/
inductive Prefix
  /-- 66H, operand size. -/
  | opSize
  /-- 67H, address size. -/
  | addrSize
  /-- 26H, 2EH, 36H, 3EH, 64H, 65H: segment override. -/
  | seg (s : SReg)
  /-- F0H, LOCK. -/
  | lock
  /-- F2H. -/
  | repne
  /-- F3H. -/
  | rep
deriving DecidableEq, Repr

/-- The displacement that ModRM.mod selects: none (mod 0), disp8 (mod 1), disp32 (mod 2) (R52). -/
inductive Disp
  | d0
  | d8 (b : Byte)
  | d32 (w : Word)
deriving DecidableEq, Repr

/-- A memory operand as ModRM and SIB encode it (30_encoding.md R52). -/
inductive MemOperand
  /-- A base register without a SIB byte. -/
  | base (r : Reg) (d : Disp)
  /-- mod 0, rm 5: a disp32 alone. -/
  | abs (w : Word)
  /-- rm 4: a SIB byte. `index = esp` means no index. -/
  | sib (scale : BitVec 2) (index : Reg) (base : Reg) (d : Disp)
  /-- mod 0, rm 4, SIB.base 5: a disp32 in place of the base. -/
  | sibAbs (scale : BitVec 2) (index : Reg) (w : Word)
deriving DecidableEq, Repr

/-- The r/m16 operand of MOV SS: a register (mod 3) or memory (R82). -/
inductive RM16
  | reg (r : Reg)
  | mem (m : MemOperand)
deriving DecidableEq, Repr

/-- The instructions of the opcode map (R53). The first argument is the list of the prefix bytes,
in the order they stand in memory. -/
inductive Instr
  | intN (p : List Prefix) (n : Byte)
  | int3 (p : List Prefix)
  | into (p : List Prefix)
  | bound32 (p : List Prefix) (r : Reg) (m : MemOperand)
  | bound16 (p : List Prefix) (r : Reg) (m : MemOperand)
  | iretd (p : List Prefix)
  | iret (p : List Prefix)
  | sti (p : List Prefix)
  | cli (p : List Prefix)
  | pushfd (p : List Prefix)
  | pushf (p : List Prefix)
  | popfd (p : List Prefix)
  | popf (p : List Prefix)
  | lidt (p : List Prefix) (m : MemOperand)
  | sidt (p : List Prefix) (m : MemOperand)
  | movSS (p : List Prefix) (src : RM16)
  | popSS (p : List Prefix)
  | lss (p : List Prefix) (r : Reg) (m : MemOperand)
deriving DecidableEq, Repr

/-- Why the decoder has no instruction for some bytes, by name (R51, R56). -/
inductive DecodeRefusal
  /-- A one-byte opcode that R53 does not list. -/
  | opcode (b : Byte)
  /-- A two-byte opcode 0FH b that R53 does not list. -/
  | opcode0F (b : Byte)
  /-- 0F 01 with another digit than /1 and /3: another instruction (R56). -/
  | group0F01 (digit : BitVec 3)
  /-- 8E with another segment register than SS, and not a reserved one: another instruction (R56). -/
  | movSegment (reg : BitVec 3)
  /-- F2H or F3H before an instruction of the map: reserved (R51). -/
  | repeatPrefix
  /-- 67H before a memory operand: 16-bit addressing, not described (R51). -/
  | addressSize16
deriving DecidableEq, Repr

end Sys2Proof
end

