-- ==== Sys2Proof/Machine/State.lean ====
section
/-! DEFINITION. The state of the machine as plain data (10_state.md R11 to R30), the reasons a step
can stop, and the state after reset. -/

namespace Sys2Proof.Machine

/-- The operating modes of 00_scope.md R2. Virtual-8086 mode is EFLAGS.VM = 1 and has no name here. -/
inductive Mode
  | realAddress
  | protectedMode
deriving DecidableEq, Repr

/-- What a segment descriptor describes (20_memory.md R37; 93 G8; the codes are log 4's). -/
inductive SegKind
  /-- A code segment. -/
  | code (conforming readable : Bool)
  /-- A data or stack segment. -/
  | data (expandDown writable : Bool)
  /-- A 32-bit TSS, and whether it is marked busy (R29, R151). -/
  | tss32 (busy : Bool)
  /-- A 16-bit TSS. -/
  | tss16
  /-- An LDT. -/
  | ldt
  /-- Anything else: gates and reserved types. -/
  | other
deriving DecidableEq, Repr

/-- A segment descriptor as the processor uses it (R23, R37). -/
structure SegDescriptor where
  kind : SegKind
  base : Word
  /-- The last valid byte offset (for an expand-down segment, the last invalid one). -/
  limit : Word
  dpl : BitVec 2
  present : Bool
  /-- The default-size attribute: a 32-bit code segment (92 D26). -/
  big : Bool
deriving DecidableEq, Repr

/-- A segment register: the visible selector and the hidden cached descriptor (R23). A cache with
`present = false` is unusable: the register holds the null selector. -/
structure SegRegister where
  sel : Half
  desc : SegDescriptor
deriving DecidableEq, Repr

/-- The six segment registers (R23). -/
structure SegRegs where
  es : SegRegister
  cs : SegRegister
  ss : SegRegister
  ds : SegRegister
  fs : SegRegister
  gs : SegRegister
deriving DecidableEq, Repr

/-- The eight general registers (R22). ESP is the stack pointer of R16. -/
structure Gprs where
  eax : Word
  ecx : Word
  edx : Word
  ebx : Word
  esp : Word
  ebp : Word
  esi : Word
  edi : Word
deriving DecidableEq, Repr

/-- A register that locates a table: a linear base and the offset of the last valid byte (R19). -/
structure TableRegister where
  base : Word
  limit : Half
deriving DecidableEq, Repr

/-- LOCAL_APIC (R5, R28): whether a local APIC exists and is enabled. -/
inductive ApicAvailability
  | absent
  | disabled
  | enabled
deriving DecidableEq, Repr

/-- What the local vector table associates an interrupt pin with (R93). -/
inductive PinRole
  /-- The pin is not associated with anything. -/
  | masked
  /-- The INTR pin: the vector is read from the system bus (R94). -/
  | intr
  /-- The NMI pin (R94, R113). -/
  | nmi
  /-- A vector delivered through the local APIC (R93, R163). -/
  | fixed (v : Byte)
deriving DecidableEq, Repr

/-- The local APIC as far as the source names it (R28, R163). -/
structure LocalApic where
  availability : ApicAvailability
  /-- The local vector table's entry for LINT0. -/
  lint0 : PinRole
  /-- The local vector table's entry for LINT1. -/
  lint1 : PinRole
  /-- "the APIC indicates the receipt of an illegal vector" (R96). -/
  illegalVector : Bool
deriving DecidableEq, Repr

/-- What the environment does at one instruction boundary (R10, R26, R32, R113, R148). Any number of
messages can arrive at one boundary; an NMI pin shows at most one edge there, the model's choice
(log 17). -/
structure EnvInput where
  /-- A hardware reset (R165). -/
  reset : Bool
  /-- A machine-check error is detected (R102, 93 U1). -/
  machineCheck : Bool
  /-- The level on pin LINT0 (an edge has arrived, where the pin is the NMI pin). -/
  lint0 : Bool
  /-- The level on pin LINT1 (an edge has arrived, where the pin is the NMI pin). -/
  lint1 : Bool
  /-- The vector the external interrupt controller supplies on the system bus (R32, D25). -/
  busVector : Byte
  /-- The vectors of the maskable interrupt messages that reach the local APIC, in any number (R93,
  R95). -/
  apicMessages : List Byte
  /-- How many messages with delivery mode NMI arrive (R113). -/
  nmiMessages : Nat
  /-- An instruction breakpoint matches the next instruction (R122). -/
  codeBreakpoint : Bool
deriving DecidableEq, Repr

/-- An environment that does nothing at a boundary. -/
def EnvInput.quiet : EnvInput where
  reset := false
  machineCheck := false
  lint0 := false
  lint1 := false
  busVector := 0
  apicMessages := []
  nmiMessages := 0
  codeBreakpoint := false

/-- The linear address space of 2^32 bytes (20_memory.md R31) as the bytes that differ from what an
unlisted address reads as, at strictly rising addresses. -/
abbrev Memory := List Host.Cell

/-- The whole machine. -/
structure State where
  regs : Gprs
  eip : Word
  eflags : Word
  sregs : SegRegs
  idtr : TableRegister
  /-- Locates the GDT (R20). -/
  gdtr : TableRegister
  /-- The current LDT (R20, R37). -/
  ldtr : SegRegister
  /-- The TSS of the currently executing task (R21, 93 G8). -/
  tr : SegRegister
  mode : Mode
  /-- R24. -/
  nmiBlocked : Bool
  /-- R25. -/
  eventInhibit : Bool
  /-- The interrupt window after STI (R65, D11). -/
  stiWindow : Bool
  /-- NMIs that arrived while NMIs are blocked, up to NMI_LATCH_DEPTH (R26 (b), R118). -/
  nmiPending : Nat
  /-- NMIs held pending though NMIs were not blocked at their boundary: they were inhibited, or lost to
  another event (R26 (b) and (c), R125, log 15). -/
  nmiHeld : Nat
  /-- A trap on task switch is due at the next boundary, and only there (R126 class 2, R26 (d), 93
  G8). -/
  taskTrap : Bool
  /-- The shutdown of 93 G10. -/
  shutdown : Bool
  apic : LocalApic
  /-- The parameters of R5; no step writes them. -/
  params : Config.Params
  /-- The inputs of the boundaries to come; when it is empty the environment is quiet. -/
  env : List EnvInput
  /-- The model's own: how many deliveries have completed. -/
  deliveries : Nat
  /-- The model's own: where the next free value is drawn. -/
  freeCount : Nat
  mem : Memory
deriving DecidableEq, Repr

/-- Why the machine itself stops. -/
inductive Fault
  /-- Raised by the taking of an exception: the exception `second` came up while the exception
  `first` was being delivered, under NESTED_FAULT_POLICY = refuse, where "the model has no step"
  (92 D8). Safe: nothing is claimed of what follows. -/
  | nestedException (first second : Byte)
deriving DecidableEq, Repr

/-- Why the model has no meaning for what the machine would do next. -/
inductive Refusal
  /-- Raised by a row of the opcode table without a meaning. Safe. -/
  | notModelled (mnemonic : String)
  /-- Raised by every step in real-address mode: out of scope (R2, R4, D30). Safe. -/
  | realAddressMode
  /-- Raised by every delivery and instruction with EFLAGS.VM = 1: out of scope (R2, D30). Safe. -/
  | virtual8086Mode
  /-- Raised by IRET at CPL 0 on an image with VM = 1: a return to virtual-8086 mode (D27). Safe. -/
  | returnToVirtual8086
  /-- Raised by the fetch from a 16-bit code segment (D26). Safe. -/
  | codeSegment16
  /-- Raised by the fetch of bytes outside the opcode map (R51, R56). Safe. -/
  | outsideOpcodeMap (r : DecodeRefusal)
  /-- Raised by a use of a TSS that is not a 32-bit one: the layout of a 16-bit TSS is given nowhere
  (R4, 93 G8). Safe. -/
  | notTss32
deriving DecidableEq, Repr

/-- The segment cache the family gives a data segment at reset: present, writable, DPL 0 (log 1). -/
def resetDataSegment : SegRegister where
  sel := 0
  desc := ⟨.data false true, 0, 0xFFFF, 0, true, false⟩

/-- The machine right after a hardware reset (10_state.md R30): EFLAGS = 00000002H, the hidden bits
clear, real-address mode; the other values are log 1, 2, 3, 4, 10, 14, 16, 17, 19. The cached type,
DPL, size and present attributes of the segment registers, LDTR and TR, which the spec leaves open,
are the model's choice (log 1, 4). -/
def State.reset : State where
  regs := ⟨0, 0, 0, 0, 0, 0, 0, 0⟩
  eip := 0x0000FFF0
  eflags := 0x00000002
  sregs :=
    { es := resetDataSegment
      cs := ⟨0xF000, ⟨.code false true, 0xFFFF0000, 0xFFFF, 0, true, false⟩⟩
      ss := resetDataSegment
      ds := resetDataSegment
      fs := resetDataSegment
      gs := resetDataSegment }
  idtr := ⟨0, 0xFFFF⟩
  gdtr := ⟨0, 0xFFFF⟩
  ldtr := ⟨0, ⟨.ldt, 0, 0xFFFF, 0, true, false⟩⟩
  tr := ⟨0, ⟨.tss32 true, 0, 0xFFFF, 0, true, false⟩⟩
  mode := .realAddress
  nmiBlocked := false
  eventInhibit := false
  stiWindow := false
  nmiPending := 0
  nmiHeld := 0
  taskTrap := false
  shutdown := false
  apic := ⟨.disabled, .masked, .masked, false⟩
  params := ⟨.doubleFault, 1, 0, 0xFFFF, [8, 10, 11, 12, 13, 14, 17]⟩
  env := []
  deliveries := 0
  freeCount := 0
  mem := []

end Sys2Proof.Machine
end

