-- ==== Sys2Proof/Machine/Flags.lean ====
section
/-! DEFINITION. EFLAGS (10_state.md R11): its fields, and every rule that computes a new value of it
(R74, R68, R144, R145). -/

namespace Sys2Proof.Machine

/-! ### Positions (R11) -/

abbrev tfBit : Nat := 8
abbrev ifBit : Nat := 9
abbrev ofBit : Nat := 11
abbrev ntBit : Nat := 14
abbrev rfBit : Nat := 16
abbrev vmBit : Nat := 17

/-- One flag of an EFLAGS value. -/
def flag (f : Word) (i : Nat) : Bool := f.getLsbD i

/-- An EFLAGS value with one flag set to a value. -/
def setFlag (f : Word) (i : Nat) (b : Bool) : Word :=
  if b then f ||| BitVec.twoPow 32 i else f &&& ~~~BitVec.twoPow 32 i

/-- The IOPL field, bits 13:12. -/
def ioplOf (f : Word) : BitVec 2 := f.extractLsb' 12 2

/-- An EFLAGS value with another IOPL field. -/
def setIopl (f : Word) (v : BitVec 2) : Word :=
  (f &&& ~~~0x00003000#32) ||| (v.setWidth 32 <<< 12)

/-- The flags R11 lists; the other bits are fixed. -/
def definedFlags : Word := 0x003F7FD5

/-- "reserved bits keep their fixed values" (R68, R74): bit 1 reads as 1, bits 3, 5, 15 and 22 to 31
as 0 (R11). -/
def fixReserved (f : Word) : Word := (f &&& definedFlags) ||| 0x00000002

/-- The image a 16-bit load makes: EFLAGS[15:0] from the stack, the upper half unchanged (R68, R73). -/
def lowHalfImage (cur : Word) (img : Half) : Word :=
  (cur.extractLsb' 16 16 ++ img : BitVec (16 + 16))

/-- IOPL changes only at CPL 0, IF only when CPL <= IOPL (R68, R74), both of the values in force
before the load. -/
def holdPrivileged (cur img : Word) (cpl : BitVec 2) : Word :=
  let withIopl := if cpl = 0 then img else setIopl img (ioplOf cur)
  if cpl ≤ ioplOf cur then withIopl else setFlag withIopl ifBit (flag cur ifBit)

/-- MergeFlags (R74): what IRET makes of the image. -/
def mergeFlags (cur img : Word) (cpl : BitVec 2) : Word :=
  let held := holdPrivileged cur img cpl
  fixReserved (if cpl = 0 then held else setFlag held vmBit (flag cur vmBit))

/-- What POPFD makes of its image (R68). -/
def popfdFlags (cur img : Word) (cpl : BitVec 2) : Word :=
  fixReserved (setFlag (setFlag (holdPrivileged cur img cpl) vmBit (flag cur vmBit)) rfBit false)

/-- What POPF makes of its 16-bit image: the upper half stays (R68). -/
def popfFlags (cur : Word) (img : Half) (cpl : BitVec 2) : Word :=
  fixReserved (holdPrivileged cur (lowHalfImage cur img) cpl)

/-- The flags a handler starts with: TF, VM, RF and NT cleared (R144), IF too through an interrupt
gate (R145). -/
def handlerFlags (f : Word) (clearIf : Bool) : Word :=
  let g := setFlag (setFlag (setFlag (setFlag f tfBit false) vmBit false) rfBit false) ntBit false
  if clearIf then setFlag g ifBit false else g

/-! ### Of a state -/

def State.flagIF (s : State) : Bool := flag s.eflags ifBit
def State.flagTF (s : State) : Bool := flag s.eflags tfBit
def State.flagOF (s : State) : Bool := flag s.eflags ofBit
def State.flagNT (s : State) : Bool := flag s.eflags ntBit
def State.flagRF (s : State) : Bool := flag s.eflags rfBit
def State.flagVM (s : State) : Bool := flag s.eflags vmBit
def State.iopl (s : State) : BitVec 2 := ioplOf s.eflags

/-- CPL is the RPL field of CS (10_state.md R17, D18). -/
def State.cpl (s : State) : BitVec 2 := s.sregs.cs.sel.extractLsb' 0 2

end Sys2Proof.Machine
end

