-- ==== Sys2Proof/WellFormed.lean ====
section
/-! DEFINITION. Which terms of Instr stand for the bytes of an instruction: the conditions of
30_encoding.md R50 to R53 on prefixes, memory forms and length. -/

namespace Sys2Proof

/-- LOCK and the repeat prefixes stand before no instruction of the map (R51). -/
def Prefix.isPlain : Prefix → Bool
  | .lock => false
  | .repne => false
  | .rep => false
  | _ => true

/-- Without a SIB byte the base is not ESP, and with no displacement not EBP (R52). -/
def MemOperand.wf : MemOperand → Bool
  | .base r d => r != .esp && (d != .d0 || r != .ebp)
  | .abs _ => true
  | .sib _ _ b d => d != .d0 || b != .ebp
  | .sibAbs _ _ _ => true

def Disp.size : Disp → Nat
  | .d0 => 0
  | .d8 _ => 1
  | .d32 _ => 4

/-- Bytes of ModRM, SIB and displacement (R52). -/
def MemOperand.size : MemOperand → Nat
  | .base _ d => 1 + d.size
  | .abs _ => 5
  | .sib _ _ _ d => 2 + d.size
  | .sibAbs _ _ _ => 6

/-- Prefixes before an instruction without a memory operand. -/
def prefixesOk (p : List Prefix) : Bool := p.all Prefix.isPlain

/-- Prefixes before an instruction with a memory operand: 67H is refused there (R51). -/
def memPrefixesOk (p : List Prefix) : Bool := p.all Prefix.isPlain && !p.contains .addrSize

/-- The 16-bit rows need 66H, their 32-bit twins exclude it (R53). -/
def hasOpSize (p : List Prefix) : Bool := p.contains .opSize

/-- Bytes of the whole instruction (R50). -/
def Instr.size : Instr → Nat
  | .intN p _ => p.length + 2
  | .int3 p => p.length + 1
  | .into p => p.length + 1
  | .bound32 p _ m => p.length + 1 + m.size
  | .bound16 p _ m => p.length + 1 + m.size
  | .iretd p => p.length + 1
  | .iret p => p.length + 1
  | .sti p => p.length + 1
  | .cli p => p.length + 1
  | .pushfd p => p.length + 1
  | .pushf p => p.length + 1
  | .popfd p => p.length + 1
  | .popf p => p.length + 1
  | .lidt p m => p.length + 2 + m.size
  | .sidt p m => p.length + 2 + m.size
  | .movSS p (.reg _) => p.length + 2
  | .movSS p (.mem m) => p.length + 1 + m.size
  | .popSS p => p.length + 1
  | .lss p _ m => p.length + 2 + m.size

/-- The form of an instruction, its length apart. -/
def Instr.formOk : Instr → Bool
  | .intN p _ => prefixesOk p
  | .int3 p => prefixesOk p
  | .into p => prefixesOk p
  | .bound32 p _ m => memPrefixesOk p && !hasOpSize p && m.wf
  | .bound16 p _ m => memPrefixesOk p && hasOpSize p && m.wf
  | .iretd p => prefixesOk p && !hasOpSize p
  | .iret p => prefixesOk p && hasOpSize p
  | .sti p => prefixesOk p
  | .cli p => prefixesOk p
  | .pushfd p => prefixesOk p && !hasOpSize p
  | .pushf p => prefixesOk p && hasOpSize p
  | .popfd p => prefixesOk p && !hasOpSize p
  | .popf p => prefixesOk p && hasOpSize p
  | .lidt p m => memPrefixesOk p && m.wf
  | .sidt p m => memPrefixesOk p && m.wf
  | .movSS p (.reg _) => prefixesOk p
  | .movSS p (.mem m) => memPrefixesOk p && m.wf
  | .popSS p => prefixesOk p
  | .lss p _ m => memPrefixesOk p && m.wf

/-- A term that stands for an instruction: a legal form of at most 15 bytes (R50). -/
def Instr.wf (i : Instr) : Bool := i.formOk && decide (i.size ≤ 15)

end Sys2Proof
end

