-- ==== Sys2Proof/Decode.lean ====
section
/-! DEFINITION. The decoder (30_encoding.md R50 to R56), total on any bytes, and the encoder. -/

namespace Sys2Proof

/-! ### Fields and numbers -/

/-- ModRM.mod, SIB.scale (R52). -/
def modField (b : Byte) : BitVec 2 := b.extractLsb' 6 2
/-- ModRM.reg, SIB.index (R52). -/
def regField (b : Byte) : BitVec 3 := b.extractLsb' 3 3
/-- ModRM.rm, SIB.base (R52). -/
def rmField (b : Byte) : BitVec 3 := b.extractLsb' 0 3

/-- A ModRM or SIB byte from its fields (R52). -/
def packFields (hi : BitVec 2) (mid lo : BitVec 3) : Byte := (hi ++ mid ++ lo : BitVec (2 + 3 + 3))

/-- The number of a general register (R22). -/
def Reg.code : Reg → BitVec 3
  | .eax => 0 | .ecx => 1 | .edx => 2 | .ebx => 3 | .esp => 4 | .ebp => 5 | .esi => 6 | .edi => 7

/-- The general register of a number (R22). -/
def Reg.ofCode (c : BitVec 3) : Reg :=
  match c.toNat with
  | 0 => .eax | 1 => .ecx | 2 => .edx | 3 => .ebx | 4 => .esp | 5 => .ebp | 6 => .esi | _ => .edi

/-- A little-endian doubleword from its bytes, lowest address first (R42). -/
def word32 (b0 b1 b2 b3 : Byte) : Word := (b3 ++ b2 ++ b1 ++ b0 : BitVec (8 + 8 + 8 + 8))

/-- The bytes of a doubleword, lowest address first (R42). -/
def bytes32 (w : Word) : List Byte :=
  [w.extractLsb' 0 8, w.extractLsb' 8 8, w.extractLsb' 16 8, w.extractLsb' 24 8]

/-! ### Prefixes -/

/-- The byte of a prefix (R51). -/
def Prefix.byte : Prefix → Byte
  | .opSize => 0x66
  | .addrSize => 0x67
  | .seg .es => 0x26
  | .seg .cs => 0x2E
  | .seg .ss => 0x36
  | .seg .ds => 0x3E
  | .seg .fs => 0x64
  | .seg .gs => 0x65
  | .lock => 0xF0
  | .repne => 0xF2
  | .rep => 0xF3

/-- Which prefix a byte is, if it is one (R51). -/
def prefixOf (b : Byte) : Option Prefix :=
  if b = 0x66 then some .opSize
  else if b = 0x67 then some .addrSize
  else if b = 0x26 then some (.seg .es)
  else if b = 0x2E then some (.seg .cs)
  else if b = 0x36 then some (.seg .ss)
  else if b = 0x3E then some (.seg .ds)
  else if b = 0x64 then some (.seg .fs)
  else if b = 0x65 then some (.seg .gs)
  else if b = 0xF0 then some .lock
  else if b = 0xF2 then some .repne
  else if b = 0xF3 then some .rep
  else none

/-- The prefixes at the front of a byte string, and the rest (R50). -/
def splitPrefixes : List Byte → List Prefix × List Byte
  | [] => ([], [])
  | b :: bs =>
    match prefixOf b with
    | some p => (p :: (splitPrefixes bs).1, (splitPrefixes bs).2)
    | none => ([], b :: bs)

/-! ### Memory operands -/

/-- Four little-endian bytes, if they are there. -/
def parse32 : List Byte → Option Word
  | b0 :: b1 :: b2 :: b3 :: _ => some (word32 b0 b1 b2 b3)
  | _ => none

/-- The displacement that mod 0, 1 or 2 selects (R52). -/
def parseDisp (mod : BitVec 2) (bs : List Byte) : Option Disp :=
  if mod = 0 then some .d0
  else if mod = 1 then
    match bs with
    | b :: _ => some (.d8 b)
    | [] => none
  else (parse32 bs).map .d32

/-- The memory operand of a ModRM byte whose mod is not 3, from the bytes after it (R52). -/
def parseMem (modrm : Byte) (bs : List Byte) : Option MemOperand :=
  if rmField modrm = 4 then
    match bs with
    | [] => none
    | sib :: rest =>
      if modField modrm = 0 ∧ rmField sib = 5 then
        (parse32 rest).map (.sibAbs (modField sib) (Reg.ofCode (regField sib)))
      else
        (parseDisp (modField modrm) rest).map
          (.sib (modField sib) (Reg.ofCode (regField sib)) (Reg.ofCode (rmField sib)))
  else if modField modrm = 0 ∧ rmField modrm = 5 then (parse32 bs).map .abs
  else (parseDisp (modField modrm) bs).map (.base (Reg.ofCode (rmField modrm)))

/-! ### The decoder -/

/-- What a byte string stands for. -/
inductive Decoded
  /-- An instruction of the map. -/
  | instr (i : Instr)
  /-- The invalid-opcode exception, vector 6 (R51, R56). -/
  | invalidOpcode
  /-- The instruction goes on past the bytes given: past 15 bytes or past what can be fetched. -/
  | truncated
  /-- Both: an invalid opcode that also goes on past the bytes given. R126 puts the two faults in one
  class where 15 bytes are the limit, so that neither precedes the other here. -/
  | invalidTruncated
  /-- Outside the spec, refused by name (R51, R56). -/
  | refused (r : DecodeRefusal)
deriving DecidableEq, Repr

/-- What the prefixes make of a recognised form: a repeat prefix is reserved, LOCK raises the
invalid-opcode exception (R51). Where two prefix rules meet, R51 and R56 give no order and the model
chooses (log 40): a repeat prefix is refused beside LOCK and before an invalid form alike, and LOCK
raises the invalid-opcode exception where 67H would be refused. -/
def underPrefixes (p : List Prefix) (d : Decoded) : Decoded :=
  match d with
  | .truncated => .truncated
  | .invalidTruncated => .invalidTruncated
  | d =>
    if p.contains .rep || p.contains .repne then .refused .repeatPrefix
    else if p.contains .lock then .invalidOpcode
    else d

/-- A recognised form that goes on past the bytes given; with LOCK it is an invalid opcode as well
(R51). -/
def cutShort (p : List Prefix) : Decoded := if p.contains .lock then .invalidTruncated else .truncated

/-- A form that requires memory: mod 3 is an invalid opcode (R56), 67H is refused (R51). -/
def memForm (p : List Prefix) (modrm : Byte) (bs : List Byte) (k : MemOperand → Instr) : Decoded :=
  if modField modrm = 3 then .invalidOpcode
  else if p.contains .addrSize then .refused .addressSize16
  else
    match parseMem modrm bs with
    | some m => .instr (k m)
    | none => cutShort p

/-- An invalid opcode with a ModRM operand, which counts for its length like any other (R50). Under
67H the operand's length is not described and does not count (log 40). -/
def invalidForm (p : List Prefix) (modrm : Byte) (bs : List Byte) : Decoded :=
  if modField modrm = 3 || p.contains .addrSize || (parseMem modrm bs).isSome then .invalidOpcode
  else .invalidTruncated

/-- `8E /r`: /2 is MOV SS; /1, /6 and /7 are invalid; the others are other instructions (R56). -/
def decode8E (p : List Prefix) : List Byte → Decoded
  | [] => .truncated
  | modrm :: bs =>
    if regField modrm = 2 then
      if modField modrm = 3 then .instr (.movSS p (.reg (Reg.ofCode (rmField modrm))))
      else memForm p modrm bs (fun m => .movSS p (.mem m))
    else if regField modrm = 1 ∨ regField modrm = 6 ∨ regField modrm = 7 then
      invalidForm p modrm bs
    else .refused (.movSegment (regField modrm))

/-- `0F 01 /digit`: /3 is LIDT, /1 is SIDT, the others are other instructions (R56). -/
def decode0F01 (p : List Prefix) : List Byte → Decoded
  | [] => .truncated
  | modrm :: bs =>
    if regField modrm = 3 then memForm p modrm bs (.lidt p)
    else if regField modrm = 1 then memForm p modrm bs (.sidt p)
    else .refused (.group0F01 (regField modrm))

/-- `0F B2 /r`: LSS. Where the ModRM byte lies past the bytes given, its mod is not looked at and no
invalid form is found: the model's choice (log 40). -/
def decode0FB2 (p : List Prefix) : List Byte → Decoded
  | [] => cutShort p
  | modrm :: bs => memForm p modrm bs (.lss p (Reg.ofCode (regField modrm)))

/-- The two-byte opcodes of the map. -/
def decode0F (p : List Prefix) : List Byte → Decoded
  | [] => .truncated
  | op :: bs =>
    if op = 0x01 then decode0F01 p bs
    else if op = 0xB2 then decode0FB2 p bs
    else .refused (.opcode0F op)

/-- `62 /r`: BOUND, of the size that 66H selects. Where the ModRM byte lies past the bytes given, its mod
is not looked at and no invalid form is found: the model's choice (log 40). -/
def decode62 (p : List Prefix) : List Byte → Decoded
  | [] => cutShort p
  | modrm :: bs =>
    memForm p modrm bs (fun m =>
      if hasOpSize p then .bound16 p (Reg.ofCode (regField modrm)) m
      else .bound32 p (Reg.ofCode (regField modrm)) m)

/-- `CD ib`: INT n. -/
def decodeCD (p : List Prefix) : List Byte → Decoded
  | [] => cutShort p
  | n :: _ => .instr (.intN p n)

/-- Whether an opcode byte starts an instruction of another group than R53's, so that no prefix
rule of this spec applies to it. -/
def Decoded.isOutside : Decoded → Bool
  | .refused (.opcode _) => true
  | .refused (.opcode0F _) => true
  | .refused (.group0F01 _) => true
  | .refused (.movSegment _) => true
  | _ => false

/-- The opcode map R53 on the bytes after the prefixes. -/
def decodeOpcode (p : List Prefix) : List Byte → Decoded
  | [] => .truncated
  | op :: bs =>
    if op = 0xCD then decodeCD p bs
    else if op = 0xCC then .instr (.int3 p)
    else if op = 0xCE then .instr (.into p)
    else if op = 0x62 then decode62 p bs
    else if op = 0xCF then .instr (if hasOpSize p then .iret p else .iretd p)
    else if op = 0xFB then .instr (.sti p)
    else if op = 0xFA then .instr (.cli p)
    else if op = 0x9C then .instr (if hasOpSize p then .pushf p else .pushfd p)
    else if op = 0x9D then .instr (if hasOpSize p then .popf p else .popfd p)
    else if op = 0x0F then decode0F p bs
    else if op = 0x8E then decode8E p bs
    else if op = 0x17 then .instr (.popSS p)
    else .refused (.opcode op)

/-- Decode the instruction at the front of a byte string. Only its first 15 bytes count: an
instruction that needs more is truncated (R50). -/
def decode (bs : List Byte) : Decoded :=
  let window := splitPrefixes (bs.take 15)
  let d := decodeOpcode window.1 window.2
  if d.isOutside then d else underPrefixes window.1 d

/-! ### The encoder -/

/-- The mod field a displacement needs (R52). -/
def Disp.mod : Disp → BitVec 2
  | .d0 => 0
  | .d8 _ => 1
  | .d32 _ => 2

def Disp.bytes : Disp → List Byte
  | .d0 => []
  | .d8 b => [b]
  | .d32 w => bytes32 w

/-- ModRM, SIB and displacement of a memory operand beside the reg field (R52). -/
def MemOperand.bytes (reg : BitVec 3) : MemOperand → List Byte
  | .base r d => packFields d.mod reg r.code :: d.bytes
  | .abs w => packFields 0 reg 5 :: bytes32 w
  | .sib s i b d => packFields d.mod reg 4 :: packFields s i.code b.code :: d.bytes
  | .sibAbs s i w => packFields 0 reg 4 :: packFields s i.code 5 :: bytes32 w

/-- The bytes that follow the prefixes (R53). -/
def Instr.body : Instr → List Byte
  | .intN _ n => [0xCD, n]
  | .int3 _ => [0xCC]
  | .into _ => [0xCE]
  | .bound32 _ r m => 0x62 :: m.bytes r.code
  | .bound16 _ r m => 0x62 :: m.bytes r.code
  | .iretd _ => [0xCF]
  | .iret _ => [0xCF]
  | .sti _ => [0xFB]
  | .cli _ => [0xFA]
  | .pushfd _ => [0x9C]
  | .pushf _ => [0x9C]
  | .popfd _ => [0x9D]
  | .popf _ => [0x9D]
  | .lidt _ m => 0x0F :: 0x01 :: m.bytes 3
  | .sidt _ m => 0x0F :: 0x01 :: m.bytes 1
  | .movSS _ (.reg r) => [0x8E, packFields 3 2 r.code]
  | .movSS _ (.mem m) => 0x8E :: m.bytes 2
  | .popSS _ => [0x17]
  | .lss _ r m => 0x0F :: 0xB2 :: m.bytes r.code

/-- The prefix list of an instruction. -/
def Instr.prefixes : Instr → List Prefix
  | .intN p _ => p
  | .int3 p => p
  | .into p => p
  | .bound32 p _ _ => p
  | .bound16 p _ _ => p
  | .iretd p => p
  | .iret p => p
  | .sti p => p
  | .cli p => p
  | .pushfd p => p
  | .pushf p => p
  | .popfd p => p
  | .popf p => p
  | .lidt p _ => p
  | .sidt p _ => p
  | .movSS p _ => p
  | .popSS p => p
  | .lss p _ _ => p

/-- The bytes of an instruction, lowest address first (R50, R53). -/
def encode (i : Instr) : List Byte := i.prefixes.map Prefix.byte ++ i.body

/-- How many bytes EIP advances over (R50). -/
def Instr.length (i : Instr) : Nat := (encode i).length

/-! ### Words of the opcode table -/

/-- The bytes of a number, first byte most significant. -/
def bytesMsbFirst : Nat → Nat → List Byte
  | 0, _ => []
  | n + 1, w => BitVec.ofNat 8 (w >>> (8 * n)) :: bytesMsbFirst n w

/-- The bytes of a number, first byte least significant. -/
def bytesLsbFirst : Nat → Nat → List Byte
  | 0, _ => []
  | n + 1, w => BitVec.ofNat 8 w :: bytesLsbFirst n (w >>> 8)

/-- Leading zero bytes are no part of a row: no instruction of the map begins with 00H. -/
def dropZeroBytes : List Byte → List Byte
  | [] => []
  | b :: bs => if b = 0 then dropZeroBytes bs else b :: bs

/-- Fifteen bytes: the given ones, then zeros. -/
def padded (bs : List Byte) : List Byte := (bs ++ List.replicate 15 0).take 15

/-- The instruction a byte string stands for, if all bytes beyond it are zero. -/
def decodeExactly (bs : List Byte) : Option Instr :=
  match decode (padded bs) with
  | .instr i => if (bs.drop i.length).all (· = 0) then some i else none
  | _ => none

/-- The byte layout of an opcode-table word. The table writes a row as ONE number with the first
byte most significant ("fixed": CD in bits 15 to 8 of INT_n), so that reading is taken first; where
it gives no instruction, the first byte is taken as the least significant one, and last the table's
reading without leading zero bytes (a row whose table entry counts a bit above its bytes). Log 30. -/
def tableBytes (nbits w : Nat) : List Byte :=
  let n := (nbits + 7) / 8
  if (decodeExactly (bytesMsbFirst n w)).isSome then bytesMsbFirst n w
  else if (decodeExactly (bytesLsbFirst n w)).isSome then bytesLsbFirst n w
  else dropZeroBytes (bytesMsbFirst n w)

/-- The instruction the decoder reads from an opcode-table word. -/
def decodeTableWord (nbits w : Nat) : Option Instr := decodeExactly (tableBytes nbits w)

end Sys2Proof
end

