-- ==== Sys2Proof/Machine/Memory.lean ====
section
/-! DEFINITION. Memory (20_memory.md): bytes, little-endian wider accesses, the canonical form. -/

namespace Sys2Proof.Machine

/-- What an address that nothing has written reads as (log 3). -/
def unlistedByte : Byte := 0

/-- The byte at an address. -/
def readByte : Memory → Nat → Byte
  | [], _ => unlistedByte
  | c :: m, k => if c.1 = k then c.2 else readByte m k

/-- Memory without an entry for an address. -/
def eraseByte : Memory → Nat → Memory
  | [], _ => []
  | c :: m, k => if c.1 = k then eraseByte m k else c :: eraseByte m k

/-- Memory with an entry put in its place by address. -/
def insertByte : Memory → Nat → Byte → Memory
  | [], k, b => [(k, b)]
  | c :: m, k, b => if k < c.1 then (k, b) :: c :: m else c :: insertByte m k b

/-- Write one byte; writing what an unlisted address reads as removes the entry. -/
def writeByte (m : Memory) (k : Nat) (b : Byte) : Memory :=
  if b = unlistedByte then eraseByte m k else insertByte (eraseByte m k) k b

/-- The canonical form from a lowest address on. -/
def wfFrom : Nat → Memory → Bool
  | _, [] => true
  | lo, c :: m => decide (lo ≤ c.1) && decide (c.1 < 2 ^ 32) && decide (c.2 ≠ unlistedByte) && wfFrom (c.1 + 1) m

/-- The canonical form: addresses of the 2^32 (R31), strictly rising, no entry an unlisted byte. -/
def Memory.wf (m : Memory) : Bool := wfFrom 0 m

/-- MemRead(a, 1) of R7. -/
def State.byteAt (s : State) (a : Word) : Byte := readByte s.mem a.toNat

/-- MemRead(a, 2): little-endian, addresses modulo 2^32 (R42, D20). -/
def State.read16 (s : State) (a : Word) : Half := (s.byteAt (a + 1) ++ s.byteAt a : BitVec (8 + 8))

/-- MemRead(a, 4) (R42). -/
def State.read32 (s : State) (a : Word) : Word :=
  word32 (s.byteAt a) (s.byteAt (a + 1)) (s.byteAt (a + 2)) (s.byteAt (a + 3))

/-- MemRead(a, 8) (R42). -/
def State.read64 (s : State) (a : Word) : BitVec 64 :=
  (s.read32 (a + 4) ++ s.read32 a : BitVec (32 + 32))

/-- MemWrite(a, 1, b) of R7. -/
def State.setByte (s : State) (a : Word) (b : Byte) : State :=
  { s with mem := writeByte s.mem a.toNat b }

/-- Memory with a word stored, the low byte at the lower address (R42, D20). -/
def store16 (m : Memory) (a : Word) (v : Half) : Memory :=
  writeByte (writeByte m a.toNat (v.extractLsb' 0 8)) (a + 1).toNat (v.extractLsb' 8 8)

/-- Memory with a doubleword stored, the low byte at the lowest address (R42, D20). -/
def store32 (m : Memory) (a : Word) (v : Word) : Memory :=
  writeByte (writeByte (store16 m a (v.extractLsb' 0 16)) (a + 2).toNat (v.extractLsb' 16 8))
    (a + 3).toNat (v.extractLsb' 24 8)

/-- MemWrite(a, 2, v) (R42). -/
def State.write16 (s : State) (a : Word) (v : Half) : State := { s with mem := store16 s.mem a v }

/-- MemWrite(a, 4, v) (R42). -/
def State.write32 (s : State) (a : Word) (v : Word) : State := { s with mem := store32 s.mem a v }

/-- Store a byte string at an address. -/
def State.writeBytes (s : State) : Word → List Byte → State
  | _, [] => s
  | a, b :: bs => (s.setByte a b).writeBytes (a + 1) bs

end Sys2Proof.Machine
end

