-- ==== Sys2Proof/Machine/Stop.lean ====
section
/-! DEFINITION. Raising an exception (00_scope.md R7 `raise`), error codes (60_exceptions.md R153 to
R160) and the kinds of event (R146). -/

namespace Sys2Proof.Machine

/-- An exception raised: its vector, and the error code it pushes if its vector pushes one. -/
structure Exn where
  vec : Byte
  code : Word
deriving DecidableEq, Repr

/-- Why an operation ends early: it raises an exception, or the model refuses. -/
inductive Stop
  | raise (e : Exn)
  | refuse (r : Refusal)
deriving DecidableEq, Repr

/-- The kinds of event of R146. -/
inductive EventKind
  | extIntr
  | extApic
  | nmi
  | softIntN
  | softInt3
  | softInto
  | exc
deriving DecidableEq, Repr

/-- The gate DPL is checked for INT n, INT 3 and INTO (R139, R146). -/
def EventKind.soft : EventKind → Bool
  | .softIntN => true
  | .softInt3 => true
  | .softInto => true
  | _ => false

/-- EXT of an error code made during the delivery of such an event (R155). -/
def EventKind.ext (k : EventKind) : Word := if k.soft then 0 else 1

/-! ### Vectors (R91) -/

def deVector : Byte := 0
def dbVector : Byte := 1
def nmiVector : Byte := 2
def bpVector : Byte := 3
def ofVector : Byte := 4
def brVector : Byte := 5
def udVector : Byte := 6
def dfVector : Byte := 8
def tsVector : Byte := 10
def npVector : Byte := 11
def ssVector : Byte := 12
def gpVector : Byte := 13
def pfVector : Byte := 14
def mcVector : Byte := 18

/-- What the delivery of an exception pushes as its error code (R153): its code, where its vector is
one of ERRCODE_VECTORS (R5, R91, D3). For an exception that the spec gives no code (#DB, #BR, #UD, #MC)
that code is 0: the model's choice, where the parameter holds its vector (log 42). -/
def Exn.pushed (e : Exn) (p : Config.Params) : Option Word :=
  if p.errcodeVectors.contains e.vec then some e.code else none

/-- ErrCode(index, idt, ti, ext) of R154. -/
def errCode (index : BitVec 13) (idt ti ext : Bool) : Word :=
  (index.setWidth 32 <<< 3) ||| ((BitVec.ofBool ti).setWidth 32 <<< 2) |||
    ((BitVec.ofBool idt).setWidth 32 <<< 1) ||| (BitVec.ofBool ext).setWidth 32

/-- An error code that refers to IDT entry v: 8*v + 2 + ext (R154). -/
def idtCode (v : Byte) (ext : Word) : Word := 8 * v.setWidth 32 + 2 + ext

/-- An error code that refers to a selector: (sel & FFFCH) + ext (R154). -/
def selCode (sel : Half) (ext : Word) : Word := (sel &&& 0xFFFC).setWidth 32 + ext

/-! ### The exceptions the mechanism raises -/

def gpExn (code : Word) : Exn := ⟨gpVector, code⟩
def npExn (code : Word) : Exn := ⟨npVector, code⟩
def ssExn (code : Word) : Exn := ⟨ssVector, code⟩
def tsExn (code : Word) : Exn := ⟨tsVector, code⟩
def udExn : Exn := ⟨udVector, 0⟩
def brExn : Exn := ⟨brVector, 0⟩
def dbExn : Exn := ⟨dbVector, 0⟩
def mcExn : Exn := ⟨mcVector, 0⟩

/-! ### Checks -/

/-- Go on if a check holds, raise an exception otherwise. -/
def require (c : Bool) (e : Exn) : Except Stop Unit := if c then .ok () else .error (.raise e)

/-- Go on if a check holds, refuse otherwise. -/
def inScope (c : Bool) (r : Refusal) : Except Stop Unit := if c then .ok () else .error (.refuse r)

/-- Go on with a value that is there, raise an exception otherwise. -/
def orRaise {α : Type} (o : Option α) (e : Exn) : Except Stop α :=
  match o with
  | some a => .ok a
  | none => .error (.raise e)

/-! ### Several faults of one class

The order of exceptions inside a priority class is open (60_exceptions.md R126, 92 D4): where several
checks of one class fail, any of their exceptions is the one raised (log 41). -/

/-- The exceptions of the checks that fail. -/
def failing (checks : List (Bool × Exn)) : List Exn :=
  (checks.filter fun c => !c.1).map Prod.snd

/-- Which of several exceptions is raised: any (R126, D4). -/
def chooseFault (n : Nat) (e : Exn) (others : List Exn) : Exn :=
  match others with
  | [] => e
  | f :: rest =>
    let l := e :: f :: rest
    l.getD (Config.freeFaultOrder n (l.map fun x => (x.vec, x.code)) % l.length) e

/-- Go on if there is no fault, raise one of the faults otherwise. -/
def raiseAny (n : Nat) : List Exn → Except Stop Unit
  | [] => .ok ()
  | e :: others => .error (.raise (chooseFault n e others))

end Sys2Proof.Machine
end

