-- ==== Sys2Proof/Machine/Descriptors.lean ====
section
/-! DEFINITION. Gates (60_exceptions.md R131 to R134), segment descriptors and the abstract reads
ReadSegDescriptor and TssStack of 20_memory.md R37, R38, given the family's layouts (log 4, 5), and
the checks on a segment before it is used or loaded. -/

namespace Sys2Proof.Machine

/-! ### Selectors (10_state.md R18) -/

def selRpl (sel : Half) : BitVec 2 := sel.extractLsb' 0 2
def selTi (sel : Half) : Bool := sel.getLsbD 2
def selIndex (sel : Half) : BitVec 13 := sel.extractLsb' 3 13

/-- "if sel[15:2] = 0" (R146 step 7): the null selector. -/
def selIsNull (sel : Half) : Bool := sel &&& 0xFFFC == 0

/-- A selector with another RPL: `(sel & FFFCH) | level` (R146 step 12). -/
def selWithRpl (sel : Half) (level : BitVec 2) : Half := (sel &&& 0xFFFC) ||| level.setWidth 16

/-! ### Gates -/

/-- The three kinds of gate (R131). -/
inductive GateKind
  | task
  | interrupt
  | trap
deriving DecidableEq, Repr

/-- A gate descriptor (R132, R133). -/
structure Gate where
  kind : GateKind
  sel : Half
  offset : Word
  dpl : BitVec 2
  present : Bool
  /-- A 32-bit gate (R134, R158). -/
  wide : Bool
deriving DecidableEq, Repr

/-- DecodeGate of R134; `none` is Invalid. -/
def decodeGate (g : BitVec 64) : Option Gate :=
  let sel : Half := g.extractLsb' 16 16
  let dpl : BitVec 2 := g.extractLsb' 45 2
  let p := g.getLsbD 47
  let off32 : Word := (g.extractLsb' 48 16 ++ g.extractLsb' 0 16 : BitVec (16 + 16))
  let off16 : Word := (g.extractLsb' 0 16).setWidth 32
  let type : BitVec 4 := g.extractLsb' 40 4
  if g.getLsbD 44 then none
  else if type = 0b0101 then some ⟨.task, sel, 0, dpl, p, true⟩
  else if type = 0b1110 then some ⟨.interrupt, sel, off32, dpl, p, true⟩
  else if type = 0b1111 then some ⟨.trap, sel, off32, dpl, p, true⟩
  else if type = 0b0110 then some ⟨.interrupt, sel, off16, dpl, p, false⟩
  else if type = 0b0111 then some ⟨.trap, sel, off16, dpl, p, false⟩
  else none

/-- Whether entry v lies within the IDT: 8*v + 7 <= IDTR.limit (R34, R129). -/
def State.idtHas (s : State) (v : Byte) : Bool := decide (8 * v.toNat + 7 ≤ s.idtr.limit.toNat)

/-- The linear address of entry v, modulo 2^32 (R33, D20). -/
def State.idtEntry (s : State) (v : Byte) : Word := s.idtr.base + 8 * v.setWidth 32

/-! ### Segment descriptors (PRESUMED layout, log 4) -/

/-- The kind a descriptor's S bit and type field give. -/
def segKindOf (isSegment : Bool) (type : BitVec 4) : SegKind :=
  if isSegment then
    if type.getLsbD 3 then .code (type.getLsbD 2) (type.getLsbD 1)
    else .data (type.getLsbD 2) (type.getLsbD 1)
  else if type = 0b1001 then .tss32 false
  else if type = 0b1011 then .tss32 true
  else if type = 0b0001 ∨ type = 0b0011 then .tss16
  else if type = 0b0010 then .ldt
  else .other

/-- The byte limit of a 20-bit limit field: in units of 4096 bytes when G is set. -/
def byteLimit (lim : BitVec 20) (g : Bool) : Word :=
  if g then (lim ++ 0xFFF#12 : BitVec (20 + 12)) else lim.setWidth 32

/-- An 8-byte segment descriptor, the byte at the lowest address in bits 7:0. -/
def decodeSegDescriptor (d : BitVec 64) : SegDescriptor where
  kind := segKindOf (d.getLsbD 44) (d.extractLsb' 40 4)
  base := (d.extractLsb' 56 8 ++ d.extractLsb' 16 24 : BitVec (8 + 24))
  limit := byteLimit (d.extractLsb' 48 4 ++ d.extractLsb' 0 16 : BitVec (4 + 16)) (d.getLsbD 55)
  dpl := d.extractLsb' 45 2
  present := d.getLsbD 47
  big := d.getLsbD 54

/-- Where the descriptor of a selector stands: in the GDT, or in the current LDT when TI is 1 (R37);
none when the index lies outside the table. The first entry of the GDT is no usable descriptor (R20).
With TI = 1 there is none either when LDTR's cached descriptor is not present or not an LDT's,
whatever its limit: the model's choice (log 4). -/
def State.descriptorAddr (s : State) (sel : Half) : Option Word :=
  let offset := 8 * (selIndex sel).toNat
  if selTi sel then
    if s.ldtr.desc.present && s.ldtr.desc.kind == .ldt && decide (offset + 7 ≤ s.ldtr.desc.limit.toNat)
    then some (s.ldtr.desc.base + BitVec.ofNat 32 offset) else none
  else if selIndex sel = 0 then none
  else if offset + 7 ≤ s.gdtr.limit.toNat then some (s.gdtr.base + BitVec.ofNat 32 offset)
  else none

/-- ReadSegDescriptor(sel) (R37); none when it fails because the index lies outside the table. -/
def State.readSegDescriptor (s : State) (sel : Half) : Option SegDescriptor :=
  (s.descriptorAddr sel).map fun a => decodeSegDescriptor (s.read64 a)

/-- A segment register that holds a null selector. -/
def nullSegment (sel : Half) : SegRegister := ⟨sel, ⟨.data false false, 0, 0, 0, false, false⟩⟩

/-- What a segment register holds after a load (R23): the selector and the descriptor it names,
unusable where it names none. -/
def State.loadedSegment (s : State) (sel : Half) : SegRegister :=
  match s.readSegDescriptor sel with
  | some d => ⟨sel, d⟩
  | none => nullSegment sel

def SegDescriptor.isCode (d : SegDescriptor) : Bool :=
  match d.kind with
  | .code _ _ => true
  | _ => false

def SegDescriptor.isConforming (d : SegDescriptor) : Bool :=
  match d.kind with
  | .code c _ => c
  | _ => false

def SegDescriptor.isReadable (d : SegDescriptor) : Bool :=
  match d.kind with
  | .code _ r => r
  | .data _ _ => true
  | _ => false

def SegDescriptor.isWritableData (d : SegDescriptor) : Bool :=
  match d.kind with
  | .data _ w => w
  | _ => false

/-! ### Access through a segment (log 6) -/

/-- Whether `n` bytes from an offset lie within the limit; a segment of limit FFFFFFFFH never fails
(D20). -/
def SegDescriptor.inLimit (d : SegDescriptor) (off : Word) (n : Nat) : Bool :=
  match d.kind with
  | .data true _ =>
    decide (d.limit < off) &&
      decide (off.toNat + n - 1 ≤ if d.big then 0xFFFFFFFF else 0xFFFF)
  | _ => d.limit == 0xFFFFFFFF || decide (off.toNat + n - 1 ≤ d.limit.toNat)

/-- Whether an access through a segment is permitted. -/
def SegDescriptor.permits (d : SegDescriptor) (off : Word) (n : Nat) (write : Bool) : Bool :=
  d.present && (if write then d.isWritableData else d.isReadable) && d.inLimit off n

/-! ### Loads of SS (44_stack_segment_loads.md R82; 43_iret.md R80) -/

/-- The faults of a selector loaded into SS for a privilege level, EXT = 0 (R82, R80). Where the
segment both fails a check of RPL, type or DPL and is not present, both exceptions are possible
(log 41). -/
def stackSegmentFaults (s : State) (sel : Half) (level : BitVec 2) : List Exn :=
  if selIsNull sel then [gpExn 0]
  else
    match s.readSegDescriptor sel with
    | none => [gpExn (selCode sel 0)]
    | some d =>
      failing
        [(selRpl sel == level && d.isWritableData && d.dpl == level, gpExn (selCode sel 0)),
          (d.present, ssExn (selCode sel 0))]

/-- LoadSS(sel): the selector and descriptor checks of R82. The order of two faults that meet is open
and stays so (R126, D4, log 41). -/
def loadSS (s : State) (sel : Half) : Except Stop SegRegister := do
  raiseAny s.deliveries (stackSegmentFaults s sel s.cpl)
  pure (s.loadedSegment sel)

/-! ### The stacks of the current task (20_memory.md R38) -/

/-- TssStack(level): the pointer at offset 4 + 8*level and the selector at 8 + 8*level of the current
TSS (93 G8, log 5). The whole doubleword of the selector must lie within the limit, the two bytes
above the selector too: the model's choice (log 22). That TR's cached descriptor is present is not
checked: the model's choice too (log 5). -/
def tssStack (s : State) (level : BitVec 2) (ext : Word) : Except Stop (Half × Word) := do
  inScope (match s.tr.desc.kind with | .tss32 _ => true | _ => false) .notTss32
  require (decide (8 * level.toNat + 11 ≤ s.tr.desc.limit.toNat)) (tsExn (selCode s.tr.sel ext))
  let a := s.tr.desc.base + 8 * level.setWidth 32
  pure (s.read16 (a + 8), s.read32 (a + 4))

/-- The checks on the stack selector a delivery takes from the TSS: every failure is #TS (R146 step 8).
R146 says only "checks on nss", and 91 N38 that the source has none: which they are (not null, a
descriptor of the table, RPL and DPL equal to the level, a writable data segment, present) is the
model's choice (log 22). -/
def handlerStackSegment (s : State) (nss : Half) (level : BitVec 2) (ext : Word) :
    Except Stop SegDescriptor := do
  require (!selIsNull nss) (tsExn (selCode nss ext))
  let d ← orRaise (s.readSegDescriptor nss) (tsExn (selCode nss ext))
  require (selRpl nss == level && d.isWritableData && d.dpl == level && d.present)
    (tsExn (selCode nss ext))
  pure d

end Sys2Proof.Machine
end

