-- ==== Sys2Proof/Machine/Operands.lean ====
section
/-! DEFINITION. Operands: general and segment registers (10_state.md R22, R23), effective addresses
(30_encoding.md R52), memory operands through a segment, and the stack (00_scope.md R7). -/

namespace Sys2Proof.Machine

/-! ### Registers -/

/-- `x[i]` (R7). -/
def State.getReg (s : State) : Reg → Word
  | .eax => s.regs.eax
  | .ecx => s.regs.ecx
  | .edx => s.regs.edx
  | .ebx => s.regs.ebx
  | .esp => s.regs.esp
  | .ebp => s.regs.ebp
  | .esi => s.regs.esi
  | .edi => s.regs.edi

/-- The general registers with `x[i] <- v` done (R7). -/
def Gprs.set (g : Gprs) (r : Reg) (v : Word) : Gprs :=
  match r with
  | .eax => { g with eax := v }
  | .ecx => { g with ecx := v }
  | .edx => { g with edx := v }
  | .ebx => { g with ebx := v }
  | .esp => { g with esp := v }
  | .ebp => { g with ebp := v }
  | .esi => { g with esi := v }
  | .edi => { g with edi := v }

/-- `x[i] <- v` (R7); no register is hardwired (R22). -/
def State.setReg (s : State) (r : Reg) (v : Word) : State := { s with regs := s.regs.set r v }

/-- A segment register. -/
def State.getSreg (s : State) : SReg → SegRegister
  | .es => s.sregs.es
  | .cs => s.sregs.cs
  | .ss => s.sregs.ss
  | .ds => s.sregs.ds
  | .fs => s.sregs.fs
  | .gs => s.sregs.gs

def State.setSS (s : State) (r : SegRegister) : State := { s with sregs := { s.sregs with ss := r } }

def State.setCS (s : State) (r : SegRegister) : State := { s with sregs := { s.sregs with cs := r } }

def State.setEflags (s : State) (f : Word) : State := { s with eflags := f }

def State.setTr (s : State) (r : SegRegister) : State := { s with tr := r }

def State.setLdtr (s : State) (r : SegRegister) : State := { s with ldtr := r }

def State.setIdtr (s : State) (limit : Half) (base : Word) : State := { s with idtr := ⟨base, limit⟩ }

/-! ### Effective addresses (R52) -/

def Disp.value : Disp → Word
  | .d0 => 0
  | .d8 b => b.signExtend 32
  | .d32 w => w

/-- The scaled index: 0 when `index` = 4 (R52). -/
def State.scaledIndex (s : State) (scale : BitVec 2) (index : Reg) : Word :=
  if index = .esp then 0 else s.getReg index <<< scale.toNat

/-- EA of a memory operand, modulo 2^32 (R52). -/
def State.effectiveAddress (s : State) : MemOperand → Word
  | .base r d => s.getReg r + Disp.value d
  | .abs w => w
  | .sib sc i b d => s.getReg b + s.scaledIndex sc i + Disp.value d
  | .sibAbs sc i w => s.scaledIndex sc i + w

/-- SS when the base register is ESP or EBP, DS otherwise (R52). -/
def baseSegment (r : Reg) : SReg := if r = .esp ∨ r = .ebp then .ss else .ds

/-- The default segment of a memory operand (R52). -/
def defaultSegment : MemOperand → SReg
  | .base r _ => baseSegment r
  | .abs _ => .ds
  | .sib _ _ b _ => baseSegment b
  | .sibAbs _ _ _ => .ds

/-- The last segment-override prefix, if there is one (R51; "last" is log 20). -/
def overrideSegment : List Prefix → Option SReg
  | [] => none
  | .seg x :: p =>
    match overrideSegment p with
    | some y => some y
    | none => some x
  | _ :: p => overrideSegment p

/-- The segment of a memory operand: an override replaces the default (R52). -/
def operandSegment (p : List Prefix) (m : MemOperand) : SReg :=
  match overrideSegment p with
  | some x => x
  | none => defaultSegment m

/-! ### Memory operands -/

/-- The exception of an access a segment does not permit: #SS(0) through SS, else #GP(0) (log 6). -/
def accessExn (x : SReg) : Exn := if x = .ss then ssExn 0 else gpExn 0

/-- `SegBase(seg) + offset` (R31), where the segment permits the access. -/
def segLinear (s : State) (x : SReg) (off : Word) (n : Nat) (write : Bool) : Except Stop Word := do
  require ((s.getSreg x).desc.permits off n write) (accessExn x)
  pure ((s.getSreg x).desc.base + off)

def loadSeg16 (s : State) (x : SReg) (off : Word) : Except Stop Half := do
  let a ← segLinear s x off 2 false
  pure (s.read16 a)

def loadSeg32 (s : State) (x : SReg) (off : Word) : Except Stop Word := do
  let a ← segLinear s x off 4 false
  pure (s.read32 a)

def storeSeg16 (s : State) (x : SReg) (off : Word) (v : Half) : Except Stop State := do
  let a ← segLinear s x off 2 true
  pure (s.write16 a v)

def storeSeg32 (s : State) (x : SReg) (off : Word) (v : Word) : Except Stop State := do
  let a ← segLinear s x off 4 true
  pure (s.write32 a v)

/-- The 16-bit source of MOV SS: `(mod = 3) ? x[rm][15:0] : MemRead(SegBase(seg) + EA, 2)` (R82). -/
def loadRM16 (s : State) (p : List Prefix) : RM16 → Except Stop Half
  | .reg r => .ok ((s.getReg r).extractLsb' 0 16)
  | .mem m => loadSeg16 s (operandSegment p m) (s.effectiveAddress m)

/-! ### The stack (R7, R16; ESP modulo 2^32, log 33) -/

/-- An access at an offset of the stack segment. -/
def stackLinear (fault : Exn) (s : State) (off : Word) (n : Nat) (write : Bool) : Except Stop Word := do
  require (s.sregs.ss.desc.permits off n write) fault
  pure (s.sregs.ss.desc.base + off)

/-- Push32(v) (R7). -/
def push32 (fault : Exn) (s : State) (v : Word) : Except Stop State := do
  let a ← stackLinear fault s (s.regs.esp - 4) 4 true
  pure ((s.write32 a v).setReg .esp (s.regs.esp - 4))

/-- Push16(v) (R7). -/
def push16 (fault : Exn) (s : State) (v : Half) : Except Stop State := do
  let a ← stackLinear fault s (s.regs.esp - 2) 2 true
  pure ((s.write16 a v).setReg .esp (s.regs.esp - 2))

/-- A stack item read at an offset, without moving ESP: a doubleword, or a word zero-extended. -/
def stackItem (wide : Bool) (s : State) (off : Word) : Except Stop Word := do
  let a ← stackLinear (ssExn 0) s off (if wide then 4 else 2) false
  pure (if wide then s.read32 a else (s.read16 a).setWidth 32)

/-- The size of a stack item (R39). -/
def itemSize (wide : Bool) : Word := if wide then 4 else 2

/-- A frame item of the gate's size: the low half goes onto a 16-bit frame (R143, R146). -/
def pushItem (wide : Bool) (fault : Exn) (s : State) (v : Word) : Except Stop State :=
  if wide then push32 fault s v else push16 fault s (v.extractLsb' 0 16)

/-- A selector in a frame: the upper half of a doubleword slot is a free value (R143, D5, log 9). -/
def pushSelector (wide : Bool) (fault : Exn) (s : State) (sel : Half) : Except Stop State :=
  if wide then
    push32 fault { s with freeCount := s.freeCount + 1 }
      (Config.freeSlotHalf s.freeCount ++ sel : BitVec (16 + 16))
  else push16 fault s sel

end Sys2Proof.Machine
end

