-- ==== Sys2Proof/Machine/Tasks.lean ====
section
/-! DEFINITION. TaskSwitch and TaskReturn (60_exceptions.md R149 to R151, 43_iret.md R79): what the
spec states of them over the family's 32-bit TSS (93 G8, log 5). A switch is all or nothing (D21). -/

namespace Sys2Proof.Machine

/-- Offsets in a 32-bit TSS (93 G8; those G8 does not list are log 5's). -/
abbrev tssLink : Word := 0
abbrev tssEip : Word := 32
abbrev tssEflags : Word := 36
abbrev tssLdt : Word := 96
abbrev tssTrap : Word := 100

/-- The last byte offset a 32-bit TSS must hold. -/
def tssMinLimit : Nat := 103

/-- "it saves the interrupted task's whole context" (R149), with the return pointer of the event. R149
does not list the registers of that context: the model saves EIP, EFLAGS, the general and the segment
registers, and not LDTR, whose selector `loadTask` reads from the TSS as it stands there (log 5). A selector is
stored in two bytes, and the two bytes above it in its doubleword stay as they were: the model's choice
(log 5). -/
def saveTask (s : State) (flags : Word) (rcs : Half) (ret : Word) : State :=
  let b := s.tr.desc.base
  let r := s.regs
  let x := s.sregs
  let s1 := (s.write32 (b + tssEip) ret).write32 (b + tssEflags) flags
  let s2 := (s1.write32 (b + 40) r.eax).write32 (b + 44) r.ecx
  let s3 := (s2.write32 (b + 48) r.edx).write32 (b + 52) r.ebx
  let s4 := (s3.write32 (b + 56) r.esp).write32 (b + 60) r.ebp
  let s5 := (s4.write32 (b + 64) r.esi).write32 (b + 68) r.edi
  let s6 := (s5.write16 (b + 72) x.es.sel).write16 (b + 76) rcs
  let s7 := (s6.write16 (b + 80) x.ss.sel).write16 (b + 84) x.ds.sel
  (s7.write16 (b + 88) x.fs.sel).write16 (b + 92) x.gs.sel

/-- The general registers a TSS holds. -/
def tssRegs (s : State) (b : Word) : Gprs where
  eax := s.read32 (b + 40)
  ecx := s.read32 (b + 44)
  edx := s.read32 (b + 48)
  ebx := s.read32 (b + 52)
  esp := s.read32 (b + 56)
  ebp := s.read32 (b + 60)
  esi := s.read32 (b + 64)
  edi := s.read32 (b + 68)

/-! ### The checks on a new task's context (log 5)

Each answers the faults of one selector. All faults of a switch are of one class, and where several
meet any of them is raised (R126, D4, log 41). -/

/-- The new task's LDT: null, or a present LDT descriptor in the GDT. -/
def taskLdtFaults (s : State) (sel : Half) (ext : Word) : List Exn :=
  if selIsNull sel then []
  else
    match s.readSegDescriptor sel with
    | none => [tsExn (selCode sel ext)]
    | some d => failing [(!selTi sel && d.kind == .ldt && d.present, tsExn (selCode sel ext))]

/-- The new task's code segment, and its EIP in it; the RPL becomes the CPL. -/
def taskCodeFaults (s : State) (sel : Half) (eip ext : Word) : List Exn :=
  if selIsNull sel then [tsExn (selCode sel ext)]
  else
    match s.readSegDescriptor sel with
    | none => [tsExn (selCode sel ext)]
    | some d =>
      failing
        [(d.isCode && (if d.isConforming then decide (d.dpl ≤ selRpl sel) else d.dpl == selRpl sel),
            tsExn (selCode sel ext)),
          (d.present, npExn (selCode sel ext)), (d.inLimit eip 1, gpExn ext)]

/-- The new task's stack segment. -/
def taskStackFaults (s : State) (sel : Half) (cpl : BitVec 2) (ext : Word) : List Exn :=
  if selIsNull sel then [tsExn (selCode sel ext)]
  else
    match s.readSegDescriptor sel with
    | none => [tsExn (selCode sel ext)]
    | some d =>
      failing
        [(selRpl sel == cpl && d.isWritableData && d.dpl == cpl, tsExn (selCode sel ext)),
          (d.present, ssExn (selCode sel ext))]

/-- A data segment register of the new task, which may be null. -/
def taskDataFaults (s : State) (cpl : BitVec 2) (ext : Word) (sel : Half) : List Exn :=
  if selIsNull sel then []
  else
    match s.readSegDescriptor sel with
    | none => [tsExn (selCode sel ext)]
    | some d =>
      failing
        [(d.isReadable && (d.isConforming || (decide (cpl ≤ d.dpl) && decide (selRpl sel ≤ d.dpl))),
            tsExn (selCode sel ext)),
          (d.present, npExn (selCode sel ext))]

/-- The selectors a TSS holds, of ES, CS, SS, DS, FS and GS. -/
structure TssSelectors where
  es : Half
  cs : Half
  ss : Half
  ds : Half
  fs : Half
  gs : Half
deriving DecidableEq, Repr

def tssSelectors (s : State) (b : Word) : TssSelectors where
  es := s.read16 (b + 72)
  cs := s.read16 (b + 76)
  ss := s.read16 (b + 80)
  ds := s.read16 (b + 84)
  fs := s.read16 (b + 88)
  gs := s.read16 (b + 92)

/-- The faults of a new task's segment registers and entry point. -/
def taskSegmentFaults (s : State) (x : TssSelectors) (eip ext : Word) : List Exn :=
  taskCodeFaults s x.cs eip ext ++ taskStackFaults s x.ss (selRpl x.cs) ext ++
    [x.es, x.ds, x.fs, x.gs].flatMap (taskDataFaults s (selRpl x.cs) ext)

/-- The segment registers of a new task. -/
def taskSegments (s : State) (x : TssSelectors) : SegRegs where
  es := s.loadedSegment x.es
  cs := s.loadedSegment x.cs
  ss := s.loadedSegment x.ss
  ds := s.loadedSegment x.ds
  fs := s.loadedSegment x.fs
  gs := s.loadedSegment x.gs

/-- Mark a TSS descriptor in the GDT busy or not (R29, R149). -/
def markBusy (s : State) (descAddr : Word) (busy : Bool) : State :=
  let b := s.byteAt (descAddr + 5)
  s.setByte (descAddr + 5) (if busy then b ||| 0x02 else b &&& 0xFD)

/-- The current LDT of the task whose TSS TR names. -/
def loadTaskLdt (s : State) : State :=
  s.setLdtr (s.loadedSegment (s.read16 (s.tr.desc.base + tssLdt)))

/-- The EFLAGS of the task whose TSS TR names. -/
def taskFlags (s : State) : Word := fixReserved (s.read32 (s.tr.desc.base + tssEflags))

/-- The faults of the context in the TSS that TR names. A virtual-8086 task has none: its segments
have no descriptors. -/
def contextFaults (s : State) (ext : Word) : List Exn :=
  let b := s.tr.desc.base
  if flag (taskFlags s) vmBit then []
  else
    taskLdtFaults s (s.read16 (b + tssLdt)) ext ++
      taskSegmentFaults (loadTaskLdt s) (tssSelectors s b) (s.read32 (b + tssEip)) ext

/-- "loads the handler task's" context (R149), checked before, from the TSS that TR names. `nested`
sets NT. -/
def loadTask (s : State) (nested : Bool) : Except Stop State := do
  let b := s.tr.desc.base
  let u := loadTaskLdt s
  inScope (!flag (taskFlags s) vmBit) .returnToVirtual8086
  pure
    { u with
      regs := tssRegs s b
      eip := s.read32 (b + tssEip)
      eflags := if nested then setFlag (taskFlags s) ntBit true else taskFlags s
      sregs := taskSegments u (tssSelectors s b)
      taskTrap := (s.byteAt (b + tssTrap)).getLsbD 0 }

/-! ### The checks on the TSSs -/

def SegDescriptor.isTss32 (d : SegDescriptor) : Bool :=
  match d.kind with
  | .tss32 _ => true
  | _ => false

/-- A TSS that can hold a whole context. -/
def SegDescriptor.holdsTask (d : SegDescriptor) : Bool := decide (tssMinLimit ≤ d.limit.toNat)

/-- Where the TSS descriptor of a selector stands: in the GDT (R132, R149). A null selector names the
first entry of the GDT, which is none (R20). -/
def State.tssAddr (s : State) (sel : Half) : Option Word :=
  if selTi sel then none else s.descriptorAddr sel

/-- The faults of a TSS descriptor that must have, or not have, the busy mark: `wrong` where it is no
such TSS (R151, R79). A 16-bit TSS is refused later (log 39). -/
def tssFaults (d : SegDescriptor) (busy : Bool) (wrong : Exn) (sel : Half) (ext : Word) : List Exn :=
  failing
    [(d.kind == .tss32 busy || d.kind == .tss16, wrong), (d.present, npExn (selCode sel ext)),
      (!d.isTss32 || d.holdsTask, tsExn (selCode sel ext))]

/-- The fault of a current TSS too short for the context to be saved. Its presence is not checked: the
model's choice (log 5). -/
def currentTssFaults (s : State) (ext : Word) : List Exn :=
  failing [(!s.tr.desc.isTss32 || s.tr.desc.holdsTask, tsExn (selCode s.tr.sel ext))]

/-- The faults of a switch from `s` to the task whose TSS has the descriptor `d` and whose context
`next` is about to load: those of the descriptor, of the current TSS and, where the new TSS can be
read at all, of the context in it. -/
def switchFaults (s next : State) (d : SegDescriptor) (busy : Bool) (wrong : Exn) (sel : Half)
    (ext : Word) : List Exn :=
  tssFaults d busy wrong sel ext ++ currentTssFaults s ext ++
    if s.tr.desc.isTss32 && d.isTss32 && d.present && d.holdsTask then contextFaults next ext else []

/-! ### The switches -/

/-- A switch by a gate as far as the new context: the interrupted task saved, the back link stored,
the new TSS marked busy and named by TR (R149). -/
def switchedTo (s : State) (sel : Half) (d : SegDescriptor) (a : Word) (rcs : Half) (ret : Word) :
    State :=
  let saved := saveTask s s.eflags rcs ret
  let linked := saved.write16 (d.base + tssLink) s.tr.sel
  (markBusy linked a true).setTr ⟨sel, { d with kind := .tss32 true }⟩

/-- The faults of a task gate (R132, R149, R151). -/
def gateTaskFaults (s : State) (sel : Half) (ext : Word) (rcs : Half) (ret : Word) : List Exn :=
  let wrong := gpExn (selCode sel ext)
  match s.tssAddr sel with
  | none => wrong :: currentTssFaults s ext
  | some a =>
    let d := decodeSegDescriptor (s.read64 a)
    switchFaults s (switchedTo s sel d a rcs ret) d false wrong sel ext

/-- TaskSwitch(sel, err, ext) (R149): save the interrupted task, store the back link, mark the new
TSS busy, load the handler task with NT set, and push the error code on its stack as the last act. A
push beyond that stack raises #SS with EXT alone: the model's choice (log 22). -/
def taskSwitch (s : State) (sel : Half) (err : Option Word) (ext : Word) (rcs : Half) (ret : Word) :
    Except Stop State := do
  raiseAny s.deliveries (gateTaskFaults s sel ext rcs ret)
  let a ← orRaise (s.tssAddr sel) (gpExn (selCode sel ext))
  let d := decodeSegDescriptor (s.read64 a)
  inScope (d.isTss32 && s.tr.desc.isTss32) .notTss32
  let entered ← loadTask (switchedTo s sel d a rcs ret) true
  match err with
  | some e => push32 (ssExn ext) entered e
  | none => pure entered

/-- The current task as a return leaves it: saved with NT clear, its TSS no longer busy. Where TR's
selector names no descriptor, which the spec does not speak of, no busy mark is cleared and the
return goes on: the model's choice (log 5). -/
def releaseTask (s : State) (ret : Word) : State :=
  let saved := saveTask s (setFlag s.eflags ntBit false) s.sregs.cs.sel ret
  match s.descriptorAddr s.tr.sel with
  | some a => markBusy saved a false
  | none => saved

/-- The previous task link of the current TSS (R79). -/
def taskLink (s : State) : Half := s.read16 (s.tr.desc.base + tssLink)

/-- A return as far as the interrupted task's context: the current task released, TR at the TSS of the
link. -/
def returnedTo (s : State) (d : SegDescriptor) (ret : Word) : State :=
  (releaseTask s ret).setTr ⟨taskLink s, d⟩

/-- The faults of a task return: the TSS that the link names must be busy (R79). R79 does not say which
exception a link raises that names a TSS that is not busy, or no TSS at all: #TS with the link as its
error code is the model's choice (log 5). A current TSS too short for its link has no link to check. -/
def returnTaskFaults (s : State) (ret : Word) : List Exn :=
  let wrong := tsExn (selCode (taskLink s) 0)
  if s.tr.desc.limit.toNat < 1 then currentTssFaults s 0
  else
    match s.tssAddr (taskLink s) with
    | none => wrong :: currentTssFaults s 0
    | some a =>
      let d := decodeSegDescriptor (s.read64 a)
      switchFaults s (returnedTo s d ret) d true wrong (taskLink s) 0

/-- TaskReturn (R79): back to the interrupted task through the previous task link. R79 does not say
which EIP the task that returns is left with: the model stores `ret`, the address behind the IRET
(log 5). -/
def taskReturn (s : State) (ret : Word) : Except Stop State := do
  inScope s.tr.desc.isTss32 .notTss32
  raiseAny s.deliveries (returnTaskFaults s ret)
  let a ← orRaise (s.tssAddr (taskLink s)) (tsExn (selCode (taskLink s) 0))
  let d := decodeSegDescriptor (s.read64 a)
  inScope d.isTss32 .notTss32
  loadTask (returnedTo s d ret) false

end Sys2Proof.Machine
end

