-- ==== Sys2Proof/Machine/Ops.lean ====
section
/-! DEFINITION. The operations the instructions share: completion, taking an event (60_exceptions.md
R146 `Deliver`, R147), and the return from one (43_iret.md R72). -/

namespace Sys2Proof.Machine

/-! ### Delivery (R146) -/

/-- Steps 1 to 3: the gate of a vector (R129, R134, R131). -/
def idtGate (s : State) (v : Byte) (ext : Word) : Except Stop Gate := do
  require (s.idtHas v) (gpExn (idtCode v ext))
  orRaise (decodeGate (s.read64 (s.idtEntry v))) (gpExn (idtCode v ext))

/-- Steps 4 and 5: the gate's DPL for software events (R139), then its present flag (R128). -/
def checkGate (s : State) (g : Gate) (v : Byte) (kind : EventKind) : Except Stop Unit := do
  require (!kind.soft || decide (s.cpl ≤ g.dpl)) (gpExn (idtCode v 0))
  require g.present (npExn (idtCode v kind.ext))

/-- Step 7: the handler's code segment (R136, R137). -/
def handlerSegment (s : State) (g : Gate) (ext : Word) : Except Stop SegDescriptor := do
  require (!selIsNull g.sel) (gpExn ext)
  let d ← orRaise (s.readSegDescriptor g.sel) (gpExn (selCode g.sel ext))
  require d.isCode (gpExn (selCode g.sel ext))
  require (decide (d.dpl ≤ s.cpl)) (gpExn (selCode g.sel ext))
  require d.present (npExn (selCode g.sel ext))
  require (d.inLimit g.offset 1) (gpExn 0)
  pure d

/-- The level the handler runs at: the CPL in a conforming segment, else the segment's DPL (R140). -/
def handlerLevel (s : State) (d : SegDescriptor) : BitVec 2 :=
  if d.isConforming then s.cpl else d.dpl

/-- Whether the stack is switched: a nonconforming handler of numerically lower DPL (R141). -/
def switchesStack (s : State) (d : SegDescriptor) : Bool :=
  !d.isConforming && decide (d.dpl < s.cpl)

/-- Steps 8a: SS:ESP from the TSS, and the interrupted SS and ESP pushed (R141). The result carries
the exception a later push on this stack raises. -/
def innerStack (s : State) (level : BitVec 2) (wide : Bool) (ext : Word) :
    Except Stop (State × Exn) := do
  let (nss, nesp) ← tssStack s level ext
  let d ← handlerStackSegment s nss level ext
  let fault := ssExn (selCode nss ext)
  let onNew := (s.setSS ⟨nss, d⟩).setReg .esp nesp
  let s1 ← pushSelector wide fault onNew s.sregs.ss.sel
  let s2 ← pushItem wide fault s1 s.regs.esp
  pure (s2, fault)

/-- Step 8: the stack the frame goes onto (R40, R141, R142). -/
def frameStack (s : State) (d : SegDescriptor) (wide : Bool) (ext : Word) :
    Except Stop (State × Exn) :=
  if switchesStack s d then innerStack s d.dpl wide ext else .ok (s, ssExn ext)

/-- Steps 9 and 10: EFLAGS, CS, EIP and the error code (R142, R153). -/
def pushFrame (s : State) (wide : Bool) (fault : Exn) (flags : Word) (rcs : Half) (ret : Word)
    (err : Option Word) : Except Stop State := do
  let s1 ← pushItem wide fault s flags
  let s2 ← pushSelector wide fault s1 rcs
  let s3 ← pushItem wide fault s2 ret
  match err with
  | some e => pushItem wide fault s3 e
  | none => pure s3

/-- Steps 11 and 12: the flags the handler starts with, and CS:EIP (R144, R145, R136, R138). -/
def enterHandler (s : State) (g : Gate) (d : SegDescriptor) (level : BitVec 2) : State :=
  { (s.setCS ⟨selWithRpl g.sel level, d⟩).setEflags
      (handlerFlags s.eflags (g.kind == .interrupt)) with
    eip := g.offset }

/-- Steps 7 to 12: through an interrupt or trap gate. -/
def throughGate (s : State) (g : Gate) (ext : Word) (err : Option Word) (rcs : Half) (ret : Word) :
    Except Stop State := do
  let d ← handlerSegment s g ext
  let (s1, fault) ← frameStack s d g.wide ext
  let s2 ← pushFrame s1 g.wide fault s.eflags rcs ret err
  pure (enterHandler s2 g d (handlerLevel s d))

/-- Step 13: a true NMI blocks NMIs (R115); a delivery ends the inhibition (R123, D31) and the
window after STI. -/
def endDelivery (s : State) (kind : EventKind) : State :=
  { s with
    nmiBlocked := s.nmiBlocked || kind == .nmi
    eventInhibit := false
    stiWindow := false
    deliveries := s.deliveries + 1 }

/-- Deliver(v, kind, err, ret) (R146), all or nothing (D21). `rcs` is the CS of the return pointer:
the current one, but for an abort (U4). -/
def deliver (s : State) (v : Byte) (kind : EventKind) (err : Option Word) (rcs : Half) (ret : Word) :
    Except Stop State := do
  inScope (!s.flagVM) .virtual8086Mode
  let g ← idtGate s v kind.ext
  checkGate s g v kind
  let t ←
    match g.kind with
    | .task => taskSwitch s g.sel err kind.ext rcs ret
    | _ => throughGate s g kind.ext err rcs ret
  pure (endDelivery t kind)

/-! ### Exceptions during a delivery (R147, D8, 93 G10) -/

/-- The contributory exceptions of G10. -/
def contributory (v : Byte) : Bool :=
  v == deVector || v == tsVector || v == npVector || v == ssVector || v == gpVector

/-- The pairs of G10 that make a double fault. -/
def makesDoubleFault (first second : Byte) : Bool :=
  (contributory first && contributory second) ||
    (first == pfVector && (contributory second || second == pfVector))

/-- An instruction or an event completes: the inhibition and the window after STI that covered it end
(R148 step 4, R65). -/
def State.settle (s : State) : State := { s with eventInhibit := false, stiWindow := false }

/-- #DF: vector 8, error code 0, saved CS:EIP undefined; an exception while it is delivered puts the
processor in shutdown (G10). An inhibition ends there, so that an NMI can leave the shutdown, as G10
says; NMIs stay blocked if they were: the model's choices (log 14). -/
def takeDoubleFault (s : State) : Host.Outcome State Fault Refusal :=
  let rcs := Config.freeAbortCs s.freeCount
  let ret := Config.freeAbortEip s.freeCount
  let err := Exn.pushed ⟨dfVector, 0⟩ s.params
  match deliver { s with freeCount := s.freeCount + 1 } dfVector .exc err rcs ret with
  | .ok t => .next t
  | .error (.raise _) => .next { s.settle with shutdown := true }
  | .error (.refuse r) => .refused r

/-- An exception `second` raised while the exception `first` was being delivered (R147 (b)). Of a pair
that G10 only calls handled serially the second is delivered, with the return pointer of the first,
and the first is dropped: a fault comes again when its instruction runs again, and a trap (#DB) does
not: the model's choice (log 14). -/
def takeNested (s : State) (first : Byte) (second : Exn) (ret : Word) :
    Host.Outcome State Fault Refusal :=
  match s.params.nestedFault with
  | .refuse => .fault (.nestedException first second.vec)
  | .doubleFault =>
    if makesDoubleFault first second.vec then takeDoubleFault s
    else
      match deliver s second.vec .exc (second.pushed s.params) s.sregs.cs.sel ret with
      | .ok t => .next t
      | .error (.raise _) => takeDoubleFault s
      | .error (.refuse r) => .refused r

/-- Take an exception with return pointer CS:ret (R109, R146). -/
def takeException (s : State) (e : Exn) (ret : Word) : Host.Outcome State Fault Refusal :=
  match deliver s e.vec .exc (e.pushed s.params) s.sregs.cs.sel ret with
  | .ok t => .next t
  | .error (.raise e2) => takeNested s e.vec e2 ret
  | .error (.refuse r) => .refused r

/-- Take an abort other than #DF: the saved CS:EIP is any value (R106, U4, log 13). -/
def takeAbort (s : State) (e : Exn) : Host.Outcome State Fault Refusal :=
  let rcs := Config.freeAbortCs s.freeCount
  let ret := Config.freeAbortEip s.freeCount
  match deliver { s with freeCount := s.freeCount + 1 } e.vec .exc (e.pushed s.params) rcs ret with
  | .ok t => .next t
  | .error (.raise e2) => takeNested s e.vec e2 s.eip
  | .error (.refuse r) => .refused r

/-- Take an interrupt: external, NMI or software (R59, R114, R146). An exception its delivery raises
is delivered in its turn, as a fault at the instruction boundary (R147 (a), D9). -/
def takeInterrupt (s : State) (v : Byte) (kind : EventKind) (ret : Word) :
    Host.Outcome State Fault Refusal :=
  match deliver s v kind none s.sregs.cs.sel ret with
  | .ok t => .next t
  | .error (.raise e) => takeException s e s.eip
  | .error (.refuse r) => .refused r

/-! ### Instructions -/

/-- `eip_next`: the address of the byte after the instruction. -/
def eipNext (s : State) (i : Instr) : Word := s.eip + BitVec.ofNat 32 i.length

/-- `EIP <- eip_next`, and the instruction completes. -/
def State.retire (s : State) (i : Instr) : State := { s.settle with eip := eipNext s i }

/-- What an instruction body amounts to: its completion, or the fault it raises, with everything it
did discarded and the return pointer at the instruction itself (R104, R109). -/
def conclude (s : State) (r : Except Stop State) : Host.Outcome State Fault Refusal :=
  match r with
  | .ok t => .next t
  | .error (.raise e) => takeException s e s.eip
  | .error (.refuse x) => .refused x

/-- Instructions are described in protected mode with VM = 0 only (R2, R4). -/
def inProtectedMode (s : State) (k : Host.Outcome State Fault Refusal) :
    Host.Outcome State Fault Refusal :=
  match s.mode with
  | .realAddress => .refused .realAddressMode
  | .protectedMode => if s.flagVM then .refused .virtual8086Mode else k

/-- A load of SS completes: the inhibition starts; inside an inhibition window it may or may not
start again (R25, R82, D31, log 11). -/
def startInhibit (s : State) (wasInhibited : Bool) : State :=
  if wasInhibited then
    { s with eventInhibit := Config.freeInhibitExtends s.freeCount, freeCount := s.freeCount + 1 }
  else { s with eventInhibit := true }

/-! ### The return from a handler (43_iret.md) -/

/-- The faults of the popped CS (R80). -/
def returnCodeFaults (s : State) (sel : Half) : List Exn :=
  if selIsNull sel then [gpExn 0]
  else
    match s.readSegDescriptor sel with
    | none => [gpExn (selCode sel 0)]
    | some d =>
      failing
        [(d.isCode && decide (s.cpl ≤ selRpl sel) &&
            (if d.isConforming then decide (d.dpl ≤ selRpl sel) else d.dpl == selRpl sel),
            gpExn (selCode sel 0)),
          (d.present, npExn (selCode sel 0))]

/-- The fault of the popped EIP: beyond the limit of the segment the popped CS names (R80). -/
def returnEntryFaults (s : State) (sel : Half) (eip : Word) : List Exn :=
  match s.readSegDescriptor sel with
  | none => []
  | some d => failing [(d.inLimit eip 1, gpExn 0)]

/-- The faults of SS:ESP on a return to an outer level: the items cannot be read, or the popped SS is
refused (R72, R80). -/
def returnStackFaults (s : State) (wide : Bool) (level : BitVec 2) : List Exn :=
  let n := itemSize wide
  match stackItem wide s (s.regs.esp + 3 * n), stackItem wide s (s.regs.esp + 4 * n) with
  | .ok _, .ok ss => stackSegmentFaults s (ss.extractLsb' 0 16) level
  | _, _ => [ssExn 0]

/-- The faults a return can raise once its three items are read. The items of SS:ESP are read after
the checks on CS (R72); beyond that the order is open (R126, D4, log 41), and the check of EIP may
come anywhere. -/
def returnFaults (s : State) (wide : Bool) (eip : Word) (sel : Half) : List Exn :=
  match returnCodeFaults s sel with
  | [] =>
    returnEntryFaults s sel eip ++
      if s.cpl < selRpl sel then returnStackFaults s wide (selRpl sel) else []
  | e :: l => e :: l ++ returnEntryFaults s sel eip

/-- "data segment registers that hold segments more privileged than the new CPL are loaded with the
null selector" (R80): a segment's level is its DPL (R162), and none is exempt. -/
def dropPrivileged (level : BitVec 2) (r : SegRegister) : SegRegister :=
  if r.desc.present && decide (r.desc.dpl < level) then nullSegment 0 else r

/-- The three items every IRET reads, from the lowest address up: EIP, CS, EFLAGS (R73). -/
def returnItems (s : State) (wide : Bool) : Except Stop (Word × Half × Word) := do
  let n := itemSize wide
  let eip ← stackItem wide s s.regs.esp
  let cs ← stackItem wide s (s.regs.esp + n)
  let img ← stackItem wide s (s.regs.esp + 2 * n)
  pure (eip, cs.extractLsb' 0 16, if wide then img else lowHalfImage s.eflags (img.extractLsb' 0 16))

/-- A register restored from an item: with the 16-bit operand size the upper half is not restored
and is a free value (R73, log 8). -/
def restored (wide : Bool) (item : Word) (half : Half) : Word :=
  if wide then item else (half ++ item.extractLsb' 0 16 : BitVec (16 + 16))

/-- SS:ESP and the data segment registers of a return to an outer level (R75, R80). -/
def leaveToOuter (s : State) (wide : Bool) (level : BitVec 2) : Except Stop State := do
  let n := itemSize wide
  let espItem ← stackItem wide s (s.regs.esp + 3 * n)
  let ssItem ← stackItem wide s (s.regs.esp + 4 * n)
  pure
    { s with
      regs := { s.regs with esp := restored wide espItem (Config.freeEspHalf s.freeCount) }
      sregs :=
        { es := dropPrivileged level s.sregs.es
          cs := s.sregs.cs
          ss := s.loadedSegment (ssItem.extractLsb' 0 16)
          ds := dropPrivileged level s.sregs.ds
          fs := dropPrivileged level s.sregs.fs
          gs := dropPrivileged level s.sregs.gs } }

/-- The stack a return leaves: that of the outer level, or ESP above the three items (R75). -/
def returnStack (s : State) (wide : Bool) (level : BitVec 2) : Except Stop State :=
  if s.cpl < level then leaveToOuter s wide level
  else .ok (s.setReg .esp (s.regs.esp + 3 * itemSize wide))

/-- The return to the same or an outer level (R72 with NT = 0). -/
def procedureReturn (s : State) (wide : Bool) : Except Stop State := do
  let (item, newCS, img) ← returnItems s wide
  inScope (!(wide && flag img vmBit && s.cpl == 0)) .returnToVirtual8086
  raiseAny s.deliveries (returnFaults s wide item newCS)
  let t ← returnStack s wide (selRpl newCS)
  pure
    { t with
      eip := restored wide item (Config.freeEipHalf s.freeCount)
      eflags := mergeFlags s.eflags img s.cpl
      sregs := { t.sregs with cs := s.loadedSegment newCS }
      freeCount := if wide then s.freeCount else s.freeCount + 1 }

/-- IRET (R72 to R80). NMIs are unblocked before anything can fault (R76); with VM = 1 and IOPL < 3
it raises #GP(0) (R77); with NT = 1 it returns from a nested task (R79). -/
def returnFromHandler (s : State) (wide : Bool) (next : Word) : Host.Outcome State Fault Refusal :=
  let u := { s with nmiBlocked := false }
  match s.mode with
  | .realAddress => .refused .realAddressMode
  | .protectedMode =>
    if s.flagVM then
      if s.iopl < 3 then takeException u (gpExn 0) u.eip else .refused .virtual8086Mode
    else
      conclude u (do
        let t ← if s.flagNT then taskReturn u next else procedureReturn u wide
        pure t.settle)

end Sys2Proof.Machine
end

