-- ==== Sys2Proof/Machine/Idtr.lean ====
section
/-! DEFINITION. LIDT and SIDT (42_idtr.md). -/

namespace Sys2Proof.Machine

/-- The base LIDT loads: with the 16-bit operand size its bits 31:24 are 0 (R70). -/
def idtrBase (p : List Prefix) (base : Word) : Word :=
  if hasOpSize p then base &&& 0x00FFFFFF else base

/-- LIDT m: at CPL 0, IDTR.limit from EA and IDTR.base from EA + 2; else #GP(0) (R69, R70). -/
def execLidt (p : List Prefix) (m : MemOperand) (s : State) : Host.Outcome State Fault Refusal :=
  inProtectedMode s
    (conclude s (do
      require (s.cpl == 0) (gpExn 0)
      let x := operandSegment p m
      let ea := s.effectiveAddress m
      let limit ← loadSeg16 s x ea
      let base ← loadSeg32 s x (ea + 2)
      pure ((s.retire (.lidt p m)).setIdtr limit (idtrBase p base))))

/-- SIDT m: IDTR.limit to EA and IDTR.base to EA + 2, at any privilege level (R69, R71). -/
def execSidt (p : List Prefix) (m : MemOperand) (s : State) : Host.Outcome State Fault Refusal :=
  inProtectedMode s
    (conclude s (do
      let x := operandSegment p m
      let ea := s.effectiveAddress m
      let t ← storeSeg16 s x ea s.idtr.limit
      let u ← storeSeg32 t x (ea + 2) s.idtr.base
      pure (u.retire (.sidt p m))))

end Sys2Proof.Machine
end

