-- ==== Sys2Proof/Machine/InterruptFlag.lean ====
section
/-! DEFINITION. STI, CLI, PUSHF, PUSHFD, POPF and POPFD (41_interrupt_flag.md). -/

namespace Sys2Proof.Machine

/-- `EFLAGS.IF <- 1`. Where IF was 0, whether the window after STI opens is a free choice (R65, D11,
log 10). -/
def enableInterrupts (s : State) : State :=
  if s.flagIF then s
  else
    { s with
      eflags := setFlag s.eflags ifBit true
      stiWindow := Config.freeStiWindow s.freeCount
      freeCount := s.freeCount + 1 }

/-- STI: only when CPL <= IOPL, else #GP(0) (R65). -/
def execSti (p : List Prefix) (s : State) : Host.Outcome State Fault Refusal :=
  inProtectedMode s
    (conclude s (do
      require (decide (s.cpl ≤ s.iopl)) (gpExn 0)
      pure (enableInterrupts (s.retire (.sti p)))))

/-- CLI: `EFLAGS.IF <- 0`, only when CPL <= IOPL, else #GP(0) (R66). -/
def execCli (p : List Prefix) (s : State) : Host.Outcome State Fault Refusal :=
  inProtectedMode s
    (conclude s (do
      require (decide (s.cpl ≤ s.iopl)) (gpExn 0)
      pure ((s.retire (.cli p)).setEflags (setFlag s.eflags ifBit false))))

/-- PUSHFD: `Push32(EFLAGS)` (R67). -/
def execPushfd (p : List Prefix) (s : State) : Host.Outcome State Fault Refusal :=
  inProtectedMode s
    (conclude s (do
      let t ← push32 (ssExn 0) s s.eflags
      pure (t.retire (.pushfd p))))

/-- PUSHF: `Push16(EFLAGS[15:0])` (R67). -/
def execPushf (p : List Prefix) (s : State) : Host.Outcome State Fault Refusal :=
  inProtectedMode s
    (conclude s (do
      let t ← push16 (ssExn 0) s (s.eflags.extractLsb' 0 16)
      pure (t.retire (.pushf p))))

/-- POPFD: every flag from the stack under the conditions of R68. -/
def execPopfd (p : List Prefix) (s : State) : Host.Outcome State Fault Refusal :=
  inProtectedMode s
    (conclude s (do
      let img ← stackItem true s s.regs.esp
      let t := (s.setReg .esp (s.regs.esp + 4)).setEflags (popfdFlags s.eflags img s.cpl)
      pure (t.retire (.popfd p))))

/-- POPF: EFLAGS[15:0] from the stack under the conditions of R68. -/
def execPopf (p : List Prefix) (s : State) : Host.Outcome State Fault Refusal :=
  inProtectedMode s
    (conclude s (do
      let img ← stackItem false s s.regs.esp
      let t := (s.setReg .esp (s.regs.esp + 2)).setEflags
        (popfFlags s.eflags (img.extractLsb' 0 16) s.cpl)
      pure (t.retire (.popf p))))

end Sys2Proof.Machine
end

