-- ==== Sys2Proof/Machine/Iret.lean ====
section
/-! DEFINITION. IRETD and IRET (43_iret.md): the return from a handler, by operand size. -/

namespace Sys2Proof.Machine

/-- IRETD: the 32-bit operand size (R72). -/
def execIretd (p : List Prefix) (s : State) : Host.Outcome State Fault Refusal :=
  returnFromHandler s true (eipNext s (.iretd p))

/-- IRET: the 16-bit operand size (R72, R73). -/
def execIret (p : List Prefix) (s : State) : Host.Outcome State Fault Refusal :=
  returnFromHandler s false (eipNext s (.iret p))

end Sys2Proof.Machine
end

