-- ==== Sys2Proof/Machine/SoftInterrupt.lean ====
section
/-! DEFINITION. INT n, INT 3, INTO and BOUND (40_software_interrupts.md). -/

namespace Sys2Proof.Machine

/-- INT n: `Deliver(v = n, kind = SoftINTn, err = none, ret = eip_next)` (R59 to R61). -/
def execIntN (p : List Prefix) (n : Byte) (s : State) : Host.Outcome State Fault Refusal :=
  inProtectedMode s (takeInterrupt s n .softIntN (eipNext s (.intN p n)))

/-- INT 3: `Deliver(v = 3, kind = SoftINT3, err = none, ret = eip_next)` (R62). -/
def execInt3 (p : List Prefix) (s : State) : Host.Outcome State Fault Refusal :=
  inProtectedMode s (takeInterrupt s bpVector .softInt3 (eipNext s (.int3 p)))

/-- INTO: `Deliver(v = 4, kind = SoftINTO, ...)` when OF = 1, else only EIP advances (R63). -/
def execInto (p : List Prefix) (s : State) : Host.Outcome State Fault Refusal :=
  inProtectedMode s
    (if s.flagOF then takeInterrupt s ofVector .softInto (eipNext s (.into p))
    else .next (s.retire (.into p)))

/-- BOUND r32, m32&32: #BR when the signed index is below the bound at EA or above the one at EA + 4
(R64). -/
def execBound32 (p : List Prefix) (r : Reg) (m : MemOperand) (s : State) :
    Host.Outcome State Fault Refusal :=
  inProtectedMode s
    (conclude s (do
      let x := operandSegment p m
      let ea := s.effectiveAddress m
      let lo ← loadSeg32 s x ea
      let hi ← loadSeg32 s x (ea + 4)
      require ((lo.sle (s.getReg r)) && ((s.getReg r).sle hi)) brExn
      pure (s.retire (.bound32 p r m))))

/-- BOUND r16, m16&16: the same with 16-bit values at EA and EA + 2 (R64). -/
def execBound16 (p : List Prefix) (r : Reg) (m : MemOperand) (s : State) :
    Host.Outcome State Fault Refusal :=
  inProtectedMode s
    (conclude s (do
      let x := operandSegment p m
      let ea := s.effectiveAddress m
      let lo ← loadSeg16 s x ea
      let hi ← loadSeg16 s x (ea + 2)
      let index : Half := (s.getReg r).extractLsb' 0 16
      require ((lo.sle index) && (index.sle hi)) brExn
      pure (s.retire (.bound16 p r m))))

end Sys2Proof.Machine
end

