-- ==== Sys2Proof/Machine/StackSegment.lean ====
section
/-! DEFINITION. MOV SS, POP SS and LSS (44_stack_segment_loads.md). -/

namespace Sys2Proof.Machine

/-- MOV SS, r/m16: load SS and start the inhibition (R82). A selector that fails two checks raises
either exception (`loadSS`, log 41). -/
def execMovSS (p : List Prefix) (src : RM16) (s : State) : Host.Outcome State Fault Refusal :=
  inProtectedMode s
    (conclude s (do
      let sel ← loadRM16 s p src
      let r ← loadSS s sel
      pure (startInhibit ((s.retire (.movSS p src)).setSS r) s.eventInhibit)))

/-- POP SS: read the selector through the old SS, load SS, move ESP by the operand size and start
the inhibition (R83). -/
def execPopSS (p : List Prefix) (s : State) : Host.Outcome State Fault Refusal :=
  inProtectedMode s
    (conclude s (do
      let wide := !hasOpSize p
      let item ← stackItem wide s s.regs.esp
      let r ← loadSS s (item.extractLsb' 0 16)
      let t := ((s.retire (.popSS p)).setSS r).setReg .esp (s.regs.esp + itemSize wide)
      pure (startInhibit t s.eventInhibit)))

/-- A register with its low half replaced. -/
def lowHalfReplaced (w : Word) (h : Half) : Word := (w.extractLsb' 16 16 ++ h : BitVec (16 + 16))

/-- LSS: the offset at EA and the selector behind it, both or neither; no inhibition (R84). With 66H
the offset is 16 bits (R51, log 21). -/
def execLss (p : List Prefix) (r : Reg) (m : MemOperand) (s : State) :
    Host.Outcome State Fault Refusal :=
  inProtectedMode s
    (conclude s (do
      let x := operandSegment p m
      let ea := s.effectiveAddress m
      if hasOpSize p then
        let off ← loadSeg16 s x ea
        let sel ← loadSeg16 s x (ea + 2)
        let ss ← loadSS s sel
        pure (((s.retire (.lss p r m)).setSS ss).setReg r (lowHalfReplaced (s.getReg r) off))
      else
        let off ← loadSeg32 s x ea
        let sel ← loadSeg16 s x (ea + 4)
        let ss ← loadSS s sel
        pure (((s.retire (.lss p r m)).setSS ss).setReg r off)))

end Sys2Proof.Machine
end

