-- ==== Sys2Proof/Machine/Dispatch.lean ====
section
/-! DEFINITION. The meaning of every row of spec/opcode_table.json. -/

namespace Sys2Proof.Machine

def exec (i : Instr) (s : State) : Host.Outcome State Fault Refusal :=
  match i with
  | .intN p n => Sys2Proof.Machine.execIntN p n s
  | .int3 p => Sys2Proof.Machine.execInt3 p s
  | .into p => Sys2Proof.Machine.execInto p s
  | .bound32 p r m => Sys2Proof.Machine.execBound32 p r m s
  | .bound16 p r m => Sys2Proof.Machine.execBound16 p r m s
  | .iretd p => Sys2Proof.Machine.execIretd p s
  | .iret p => Sys2Proof.Machine.execIret p s
  | .sti p => Sys2Proof.Machine.execSti p s
  | .cli p => Sys2Proof.Machine.execCli p s
  | .pushfd p => Sys2Proof.Machine.execPushfd p s
  | .pushf p => Sys2Proof.Machine.execPushf p s
  | .popfd p => Sys2Proof.Machine.execPopfd p s
  | .popf p => Sys2Proof.Machine.execPopf p s
  | .lidt p m => Sys2Proof.Machine.execLidt p m s
  | .sidt p m => Sys2Proof.Machine.execSidt p m s
  | .movSS p src => Sys2Proof.Machine.execMovSS p src s
  | .popSS p => Sys2Proof.Machine.execPopSS p s
  | .lss p r m => Sys2Proof.Machine.execLss p r m s

end Sys2Proof.Machine
end

