-- ==== Sys2Proof/Machine/Boundary.lean ====
section
/-! DEFINITION. The instruction boundary (60_exceptions.md R148, R124 to R126): the environment's
inputs, the events in their order of priority, and the fetch, decoding and execution of the next
instruction. -/

namespace Sys2Proof.Machine

/-! ### The environment's inputs -/

/-- What the environment does at this boundary; quiet when the list is used up (log 17). -/
def State.input (s : State) : EnvInput := s.env.headD EnvInput.quiet

/-- With the local APIC enabled its vector table says what a pin is; otherwise LINT0 is INTR (R93,
R94). -/
def lint0Role (s : State) : PinRole :=
  if s.apic.availability = .enabled then s.apic.lint0 else .intr

/-- Otherwise LINT1 is NMI (R94). -/
def lint1Role (s : State) : PinRole :=
  if s.apic.availability = .enabled then s.apic.lint1 else .nmi

/-- The vectors that arrive through the local APIC: its pins and its messages (R93, R95). -/
def apicVectors (s : State) (e : EnvInput) : List Byte :=
  if s.apic.availability = .enabled then
    (match s.apic.lint0 with | .fixed v => if e.lint0 then [v] else [] | _ => []) ++
    (match s.apic.lint1 with | .fixed v => if e.lint1 then [v] else [] | _ => []) ++
    e.apicMessages
  else []

/-- "interrupt vectors 16 though 255" can be delivered through the local APIC; the others are
illegal (R95, R96). -/
def apicLegal (v : Byte) : Bool := decide (16 ≤ v.toNat)

/-- Whether INTR is asserted (R94). -/
def intrAsserted (s : State) (e : EnvInput) : Bool :=
  (e.lint0 && lint0Role s == .intr) || (e.lint1 && lint1Role s == .intr)

/-- The maskable hardware interrupts the environment asserts (R95): with the vector on the system
bus for INTR (R32). -/
def maskableRequests (s : State) (e : EnvInput) : List (EventKind × Byte) :=
  (if intrAsserted s e then [(.extIntr, e.busVector)] else []) ++
    ((apicVectors s e).filter apicLegal).map fun v => (.extApic, v)

/-- How many NMIs arrive: at a pin, or as messages (R113). -/
def nmiArrivals (s : State) (e : EnvInput) : Nat :=
  (if e.lint0 && lint0Role s == .nmi then 1 else 0) +
    (if e.lint1 && lint1Role s == .nmi then 1 else 0) +
    (if s.apic.availability = .enabled then e.nmiMessages else 0)

/-- The NMIs that could be delivered now: the remembered ones, the held ones and the arriving ones. -/
def nmiAvailable (s : State) (e : EnvInput) : Nat := s.nmiPending + s.nmiHeld + nmiArrivals s e

/-- The NMIs remembered because they arrived while NMIs are blocked: at most NMI_LATCH_DEPTH, the others
are lost (R118, D24). Where NMIs are not blocked none of them is left under that bound: a window of
blocking counts its own NMIs only ("in the same window", D24). -/
def nmisRemembered (s : State) (e : EnvInput) : Nat :=
  if s.nmiBlocked then min (s.nmiPending + nmiArrivals s e) s.params.nmiLatchDepth else 0

/-- The NMIs held pending without a bound: where NMIs are not blocked, every NMI that is not delivered
at the boundary is held, whether it loses to an event of a higher class (R125, R26 (c)) or an
inhibition holds it ("is not lost", R123). That R118's depth does not bound an inhibition's NMIs, for
which D31 points to D24 too, is the model's reading (log 15). -/
def nmisHeld (s : State) (e : EnvInput) : Nat :=
  if s.nmiBlocked then s.nmiHeld else nmiAvailable s e

/-- The state once the inputs of this boundary are received: NMIs remembered or held, an illegal APIC
vector indicated (R96, D12). A trap on task switch is due at this boundary only: it is taken here, or
it loses to an event of a higher class and is discarded, being no state (R125, R26 (d)). -/
def State.received (s : State) : State :=
  { s with
    nmiPending := nmisRemembered s s.input
    nmiHeld := nmisHeld s s.input
    env := s.env.tail
    taskTrap := false
    apic :=
      { s.apic with
        illegalVector :=
          s.apic.illegalVector || (apicVectors s s.input).any (fun v => !apicLegal v) } }

/-! ### Events -/

/-- A hardware reset: the reset state (R30, R165); memory, the parameters, the presence of the local
APIC and the model's own fields stay (log 24). IDTR gets RESET_IDTR (R5, D15). -/
def hardwareReset (s : State) : State :=
  { State.reset with
    idtr := ⟨s.params.resetIdtrBase, s.params.resetIdtrLimit⟩
    apic := { State.reset.apic with availability := s.apic.availability }
    params := s.params
    env := s.env
    deliveries := s.deliveries
    freeCount := s.freeCount
    mem := s.mem }

/-- An NMI can be delivered: there is one, NMIs are not blocked, no inhibition (R114, R115, R148). -/
def nmiDeliverable (s : State) : Bool :=
  decide (0 < nmiAvailable s s.input) && !s.nmiBlocked && !s.eventInhibit

/-- `Deliver(2, NMI, none, EIP)` (R114). NMIs are not blocked here, so `received` holds every NMI that is
available; the one delivered is taken out, and the others stay held (log 15). -/
def takeNmi (s : State) : Host.Outcome State Fault Refusal :=
  let r := s.received
  takeInterrupt { r with nmiHeld := r.nmiHeld - 1, shutdown := false } nmiVector .nmi r.eip

/-- A maskable interrupt can be delivered: IF = 1, no inhibition, no window after STI (R120, R123,
R65, R148). -/
def maskableOpen (s : State) : Bool := s.flagIF && !s.eventInhibit && !s.stiWindow

/-- The request served: any of them, where several are in the one class (D4, log 12). -/
def takeMaskable (s : State) (l : List (EventKind × Byte)) : Host.Outcome State Fault Refusal :=
  match l with
  | [] => .next s
  | [(k, v)] => takeInterrupt s v k s.eip
  | x :: y :: rest =>
    let c := (x :: y :: rest).getD (Config.freeOrder s.freeCount % (rest.length + 2)) x
    takeInterrupt { s with freeCount := s.freeCount + 1 } c.2 c.1 s.eip

/-- An instruction breakpoint on the next instruction raises #DB before it runs, unless RF = 1 or
events are inhibited (R122, R123, R13, log 18). -/
def breakpointDue (s : State) (e : EnvInput) : Bool := e.codeBreakpoint && !s.flagRF && !s.eventInhibit

/-! ### The next instruction -/

/-- Up to `n` instruction bytes from an offset of the code segment, as far as its limit reaches. -/
def fetchFrom (s : State) : Nat → Word → List Byte
  | 0, _ => []
  | n + 1, off =>
    if s.sregs.cs.desc.inLimit off 1 then
      s.byteAt (s.sregs.cs.desc.base + off) :: fetchFrom s n (off + 1)
    else []

/-- The bytes at CS:EIP, at most 15 (R50). -/
def State.fetchWindow (s : State) : List Byte := fetchFrom s 15 s.eip

/-- A single-step trap is due after an instruction that began with TF = 1 and completed without a
delivery of its own, unless events are inhibited (R148 step 1, R68, R144, log 19). A trap on task
switch at the same boundary is of a higher class: the single-step trap is then discarded (R125, R126
classes 2 and 4). -/
def singleStepDue (before after : State) : Bool :=
  before.flagTF && after.deliveries == before.deliveries && !after.eventInhibit &&
    !after.shutdown && !after.taskTrap

/-- The single-step trap, delivered as part of the instruction's step, with the EIP the instruction
left as return pointer (R105, R110, R148). -/
def afterInstruction (before : State) (o : Host.Outcome State Fault Refusal) :
    Host.Outcome State Fault Refusal :=
  match o with
  | .next t => if singleStepDue before t then takeException t dbExn t.eip else .next t
  | .fault f => .fault f
  | .refused r => .refused r

/-- An invalid opcode that also goes on past the bytes fetched. Where the code segment's limit cut it
off, #GP(0) is of the higher class (R126 class 8); where 15 bytes did, the two faults are of one
class (class 9) and either is raised (D4, log 41). -/
def takeInvalidTruncated (s : State) : Host.Outcome State Fault Refusal :=
  if s.fetchWindow.length < 15 then takeException s (gpExn 0) s.eip
  else takeException s (chooseFault s.deliveries udExn [gpExn 0]) s.eip

/-- Fetch, decode and execute the instruction at CS:EIP (R148 step 4). Bytes that run past the code
segment's limit or past 15 bytes raise #GP(0) (R50, R126, log 36). -/
def runNext (s : State) : Host.Outcome State Fault Refusal :=
  if s.sregs.cs.desc.big then
    match decode s.fetchWindow with
    | .instr i => afterInstruction s (exec i s)
    | .invalidOpcode => takeException s udExn s.eip
    | .truncated => takeException s (gpExn 0) s.eip
    | .invalidTruncated => takeInvalidTruncated s
    | .refused r => .refused (.outsideOpcodeMap r)
  else .refused .codeSegment16

/-- The classes below reset and mode, in the order of R126. What loses is discarded if it is an
exception and held if it is an interrupt (R125). -/
def serveBoundary (s : State) : Host.Outcome State Fault Refusal :=
  let e := s.input
  let r := s.received
  if s.shutdown then if nmiDeliverable s then takeNmi s else .next r
  else if e.machineCheck then takeAbort r mcExn
  else if s.taskTrap && !s.eventInhibit then takeException r dbExn s.eip
  else if nmiDeliverable s then takeNmi s
  else if maskableOpen s && !(maskableRequests s e).isEmpty then takeMaskable r (maskableRequests s e)
  else if breakpointDue s e then takeException r dbExn s.eip
  else runNext r

/-- Boundary() of R148, with the hardware reset of R165 before it. -/
def boundary (s : State) : Host.Outcome State Fault Refusal :=
  if s.input.reset then .next (hardwareReset s.received)
  else
    match s.mode with
    | .realAddress => .refused .realAddressMode
    | .protectedMode => serveBoundary s

/-- An instruction's bytes at CS:EIP. -/
def placeCode (s : State) (bs : List Byte) : State :=
  s.writeBytes (s.sregs.cs.desc.base + s.eip) bs

end Sys2Proof.Machine
end

