-- ==== Sys2Proof/Machine/Step.lean ====
section
/-! DEFINITION. One step: one instruction boundary (60_exceptions.md R148). -/

namespace Sys2Proof.Machine

/-- One step of the machine. -/
def step (s : State) : Host.Outcome State Fault Refusal := boundary s

/-- The state with the instruction of an opcode-table word at CS:EIP, zeros behind it, so that the
very next step runs it. It stands for the launch by software outside the machine (92 D15,
70_reset_and_hazards.md R167): protected mode, a 32-bit code segment, a quiet boundary with nothing
pending (log 2). -/
def State.withFetchWord (s : State) (nbits w : Nat) : State :=
  { placeCode s (padded (tableBytes nbits w)) with
    mode := .protectedMode
    sregs := { s.sregs with cs := { s.sregs.cs with desc := { s.sregs.cs.desc with big := true } } }
    nmiPending := 0
    nmiHeld := 0
    taskTrap := false
    shutdown := false
    env := EnvInput.quiet :: s.env }

end Sys2Proof.Machine
end

