-- ==== Sys2Proof/Safety.lean ====
section
/-! DEFINITION. What statements say of states and steps: legal states, the states in which
instructions are described, frames, the conditions of a delivery, the end of a run. -/

namespace Sys2Proof.Machine

/-! ### States -/

/-- EFLAGS keeps the fixed bits of 10_state.md R11. -/
def State.flagsOk (s : State) : Prop := fixReserved s.eflags = s.eflags

/-- A legal state: memory in its canonical form, the reserved bits of EFLAGS at their fixed values,
no more NMIs remembered from a blocking than NMI_LATCH_DEPTH. -/
structure State.Legal (s : State) : Prop where
  memory : s.mem.wf = true
  flags : s.flagsOk
  nmis : s.nmiPending ≤ s.params.nmiLatchDepth

/-- The states in which the instructions are described (R2): protected mode, VM = 0. -/
def State.Runs (s : State) : Prop := s.mode = .protectedMode ∧ s.flagVM = false

/-- A boundary at which nothing but the next instruction happens: no input, nothing pending or held. -/
structure State.Quiet (s : State) : Prop where
  input : s.input = EnvInput.quiet
  nmi : s.nmiPending = 0
  held : s.nmiHeld = 0
  taskTrap : s.taskTrap = false
  running : s.shutdown = false

/-- A boundary at which no event above the NMI in priority happens (R126). -/
structure State.NoHigherEvent (s : State) : Prop where
  reset : s.input.reset = false
  machineCheck : s.input.machineCheck = false
  taskTrap : s.taskTrap = false
  running : s.shutdown = false

/-- A run ends by convention when EIP = END_EIP at a boundary (70_reset_and_hazards.md R181, D19). -/
def Ended (endEip : Word) (s : State) : Prop := s.eip = endEip

/-- A machine that cannot step is stuck, "which is different from ended" (R181). -/
def Stuck (s : State) : Prop := ∀ t, step s ≠ .next t

/-- What becomes of the NMIs at a boundary that delivers none. While NMIs are blocked those that arrive
are remembered up to NMI_LATCH_DEPTH (R118, 92 D24). Otherwise every one is held: those remembered, those
held and those that arrive (R123, R125, R26; log 15). -/
structure NmisKept (s t : State) : Prop where
  blocked : s.nmiBlocked = true →
    t.nmiPending = min (s.nmiPending + nmiArrivals s s.input) s.params.nmiLatchDepth ∧
      t.nmiHeld = s.nmiHeld
  unblocked : s.nmiBlocked = false →
    t.nmiPending = 0 ∧ t.nmiHeld = s.nmiPending + s.nmiHeld + nmiArrivals s s.input

/-! ### Frames -/

/-- Every byte of memory reads as before. -/
def SameMemory (s t : State) : Prop := ∀ a, t.byteAt a = s.byteAt a

/-- Every byte outside the `n` bytes from `a` (modulo 2^32) reads as before. -/
def SameMemoryOutside (s t : State) (a : Word) (n : Nat) : Prop :=
  ∀ x : Word, n ≤ (x - a).toNat → t.byteAt x = s.byteAt x

/-- Every general register is as before. -/
def SameRegs (s t : State) : Prop := ∀ q, t.getReg q = s.getReg q

/-- Every general register but one is as before. -/
def SameRegsBut (r : Reg) (s t : State) : Prop := ∀ q, q ≠ r → t.getReg q = s.getReg q

/-- The system state no instruction of the map writes by its own effect, but for IDTR, the NMI block
and the windows: the other table registers, the mode, what is pending, the APIC, the parameters. -/
structure SameSystem (s t : State) : Prop where
  gdtr : t.gdtr = s.gdtr
  ldtr : t.ldtr = s.ldtr
  tr : t.tr = s.tr
  mode : t.mode = s.mode
  nmiPending : t.nmiPending = s.nmiPending
  nmiHeld : t.nmiHeld = s.nmiHeld
  taskTrap : t.taskTrap = s.taskTrap
  shutdown : t.shutdown = s.shutdown
  apic : t.apic = s.apic
  params : t.params = s.params
  env : t.env = s.env

/-- An instruction completed without an event of its own: EIP stands behind it, no delivery was
made, NMIs are blocked or not as before, the system state is as before. -/
structure Completed (s t : State) (i : Instr) : Prop where
  eip : t.eip = s.eip + BitVec.ofNat 32 (encode i).length
  deliveries : t.deliveries = s.deliveries
  nmiBlocked : t.nmiBlocked = s.nmiBlocked
  system : SameSystem s t

/-- The one-instruction windows are closed (R25, R65). -/
def WindowsClosed (t : State) : Prop := t.eventInhibit = false ∧ t.stiWindow = false

/-- An instruction did nothing but complete. -/
structure OnlyCompleted (s t : State) (i : Instr) : Prop where
  completed : Completed s t i
  regs : SameRegs s t
  eflags : t.eflags = s.eflags
  sregs : t.sregs = s.sregs
  idtr : t.idtr = s.idtr
  memory : SameMemory s t
  windows : WindowsClosed t

/-! ### Operands -/

/-- `SegBase(seg) + EA` of a memory operand (R52). -/
def operandLinear (s : State) (p : List Prefix) (m : MemOperand) : Word :=
  (s.getSreg (operandSegment p m)).desc.base + s.effectiveAddress m

/-- The operand's segment permits an access to `n` bytes `off` bytes into the operand. -/
def OperandPermitted (s : State) (p : List Prefix) (m : MemOperand) (off : Word) (n : Nat)
    (write : Bool) : Prop :=
  (s.getSreg (operandSegment p m)).desc.permits (s.effectiveAddress m + off) n write = true

/-- The 16-bit source of MOV SS can be read and is `sel` (R82). -/
def SourceIs (s : State) (p : List Prefix) : RM16 → Half → Prop
  | .reg r, sel => sel = (s.getReg r).extractLsb' 0 16
  | .mem m, sel => OperandPermitted s p m 0 2 false ∧ sel = s.read16 (operandLinear s p m)

/-- A selector that LoadSS accepts, and its descriptor (R82). -/
structure StackSelectorOk (s : State) (sel : Half) (d : SegDescriptor) : Prop where
  notNull : sel &&& 0xFFFC ≠ 0
  descriptor : s.readSegDescriptor sel = some d
  rpl : sel.extractLsb' 0 2 = s.cpl
  writable : d.isWritableData = true
  dpl : d.dpl = s.cpl
  present : d.present = true

/-- An exception a selector can raise as a stack segment of a privilege level (R82, R80). A segment
that both fails a check of RPL, type or DPL and is not present can raise either (log 41). -/
def StackSelectorFault (s : State) (sel : Half) (level : BitVec 2) (e : Exn) : Prop :=
  (sel &&& 0xFFFC = 0 ∧ e = ⟨13, 0⟩) ∨
  (sel &&& 0xFFFC ≠ 0 ∧ s.readSegDescriptor sel = none ∧ e = ⟨13, (sel &&& 0xFFFC).setWidth 32⟩) ∨
  (sel &&& 0xFFFC ≠ 0 ∧ ∃ d, s.readSegDescriptor sel = some d ∧
    ((sel.extractLsb' 0 2 ≠ level ∨ d.isWritableData = false ∨ d.dpl ≠ level) ∧
        e = ⟨13, (sel &&& 0xFFFC).setWidth 32⟩ ∨
      d.present = false ∧ e = ⟨12, (sel &&& 0xFFFC).setWidth 32⟩))

/-! ### Items on a stack -/

/-- Bytes of a stack item (R39). -/
def slotSize (wide : Bool) : Nat := if wide then 4 else 2

/-- The address of the `k`-th item from `a` up. -/
def slotAt (a : Word) (wide : Bool) (k : Nat) : Word := a + BitVec.ofNat 32 (slotSize wide * k)

/-- The item at an address. -/
def readSlot (t : State) (wide : Bool) (a : Word) : Word :=
  if wide then t.read32 a else (t.read16 a).setWidth 32

/-- What an item holds of a value: a 16-bit item its low half (R143). -/
def slotValue (wide : Bool) (v : Word) : Word :=
  if wide then v else (v.extractLsb' 0 16).setWidth 32

/-- The `k`-th item from the top of the current stack. -/
def stackSlot (s : State) (wide : Bool) (k : Nat) : Word :=
  readSlot s wide (s.sregs.ss.desc.base + slotAt s.regs.esp wide k)

/-- The first `n` items of the current stack can be read. -/
def StackReadable (s : State) (wide : Bool) (n : Nat) : Prop :=
  ∀ k, k < n → s.sregs.ss.desc.permits (slotAt s.regs.esp wide k) (slotSize wide) false = true

/-- A stack segment permits `n` pushes below an offset. -/
def RoomFor (d : SegDescriptor) (esp : Word) (wide : Bool) (n : Nat) : Prop :=
  ∀ k, 1 ≤ k → k ≤ n →
    d.permits (esp - BitVec.ofNat 32 (slotSize wide * k)) (slotSize wide) true = true

/-! ### Conditions of a delivery -/

/-- The gate of a vector passes the checks of R129, R131, R139 and R128. -/
structure GateReady (s : State) (v : Byte) (k : EventKind) (g : Gate) : Prop where
  table : 8 * v.toNat + 7 ≤ s.idtr.limit.toNat
  gate : decodeGate (s.read64 (s.idtr.base + 8 * v.setWidth 32)) = some g
  level : k.soft = true → s.cpl ≤ g.dpl
  present : g.present = true

/-- The gate is an interrupt or trap gate whose code segment passes the checks of R136 and R137. -/
structure HandlerReady (s : State) (g : Gate) (d : SegDescriptor) : Prop where
  procedure : g.kind ≠ .task
  notNull : g.sel &&& 0xFFFC ≠ 0
  descriptor : s.readSegDescriptor g.sel = some d
  code : d.isCode = true
  level : d.dpl ≤ s.cpl
  present : d.present = true
  entry : d.inLimit g.offset 1 = true

/-- The items of a frame: three, and the error code if there is one (R142, R153). -/
def frameItems (err : Option Word) : Nat := if err.isSome then 4 else 3

/-- Everything a delivery to the same level needs (R140, R142). -/
structure SameLevelReady (s : State) (v : Byte) (k : EventKind) (g : Gate) (d : SegDescriptor)
    (err : Option Word) : Prop where
  runs : s.flagVM = false
  gate : GateReady s v k g
  handler : HandlerReady s g d
  level : d.isConforming = true ∨ d.dpl = s.cpl
  room : RoomFor s.sregs.ss.desc s.regs.esp g.wide (frameItems err)

/-- The selector and the pointer the current TSS holds for a level (R38, 93 G8). -/
def tssSs (s : State) (level : BitVec 2) : Half :=
  s.read16 (s.tr.desc.base + 8 * level.setWidth 32 + 8)

def tssEsp (s : State) (level : BitVec 2) : Word :=
  s.read32 (s.tr.desc.base + 8 * level.setWidth 32 + 4)

/-- Everything a delivery to a more privileged level needs (R140, R141): `ds` describes the stack
segment the TSS names. -/
structure InnerLevelReady (s : State) (v : Byte) (k : EventKind) (g : Gate) (d ds : SegDescriptor)
    (err : Option Word) : Prop where
  runs : s.flagVM = false
  gate : GateReady s v k g
  handler : HandlerReady s g d
  nonconforming : d.isConforming = false
  level : d.dpl < s.cpl
  tss : ∃ b, s.tr.desc.kind = .tss32 b
  tssLimit : 8 * d.dpl.toNat + 11 ≤ s.tr.desc.limit.toNat
  notNull : tssSs s d.dpl &&& 0xFFFC ≠ 0
  stack : s.readSegDescriptor (tssSs s d.dpl) = some ds
  stackRpl : (tssSs s d.dpl).extractLsb' 0 2 = d.dpl
  stackWritable : ds.isWritableData = true
  stackDpl : ds.dpl = d.dpl
  stackPresent : ds.present = true
  room : RoomFor ds (tssEsp s d.dpl) g.wide (frameItems err + 2)

/-! ### What a delivery leaves -/

/-- The frame of R143 at linear address `a`, lowest item first: the error code if there is one, EIP,
CS in the low half of its item, EFLAGS. -/
structure FrameAt (t : State) (wide : Bool) (a : Word) (ret : Word) (cs : Half) (flags : Word)
    (err : Option Word) : Prop where
  error : ∀ e, err = some e → readSlot t wide a = slotValue wide e
  eip : readSlot t wide (slotAt a wide (frameItems err - 3)) = slotValue wide ret
  cs : t.read16 (slotAt a wide (frameItems err - 2)) = cs
  flags : readSlot t wide (slotAt a wide (frameItems err - 1)) = slotValue wide flags

/-- The handler starts at the gate's offset in the gate's segment at `level` (R136, R138), with TF,
NT, RF and VM clear and IF clear through an interrupt gate (R144, R145); the rest of the machine is
as before, but for SS:ESP and memory. NMIs become blocked by an NMI only (R115). -/
structure HandlerEntered (s t : State) (k : EventKind) (g : Gate) (d : SegDescriptor)
    (level : BitVec 2) : Prop where
  eip : t.eip = g.offset
  cs : t.sregs.cs = ⟨(g.sel &&& 0xFFFC) ||| level.setWidth 16, d⟩
  cpl : t.cpl = level
  flags : ∀ j, j < 32 → t.eflags.getLsbD j =
    if j = 8 ∨ j = 14 ∨ j = 16 ∨ j = 17 then false
    else if j = 9 ∧ g.kind = .interrupt then false
    else s.eflags.getLsbD j
  regs : SameRegsBut .esp s t
  es : t.sregs.es = s.sregs.es
  ds : t.sregs.ds = s.sregs.ds
  fs : t.sregs.fs = s.sregs.fs
  gs : t.sregs.gs = s.sregs.gs
  idtr : t.idtr = s.idtr
  windows : WindowsClosed t
  nmiBlocked : t.nmiBlocked = (s.nmiBlocked || decide (k = .nmi))
  deliveries : t.deliveries = s.deliveries + 1
  system : SameSystem s t

/-- A delivery to the same level: the frame on the current stack, nothing else stored (R142, R143). -/
structure SameLevelEntry (s t : State) (k : EventKind) (g : Gate) (d : SegDescriptor)
    (err : Option Word) (cs : Half) (ret : Word) : Prop where
  entered : HandlerEntered s t k g d s.cpl
  ss : t.sregs.ss = s.sregs.ss
  esp : t.regs.esp = s.regs.esp - BitVec.ofNat 32 (slotSize g.wide * frameItems err)
  frame : FrameAt t g.wide (s.sregs.ss.desc.base + t.regs.esp) ret cs s.eflags err
  memory : SameMemoryOutside s t (s.sregs.ss.desc.base + t.regs.esp) (slotSize g.wide * frameItems err)

/-- A delivery to a more privileged level: SS:ESP from the TSS, the old SS and ESP above the frame
(R141, R143). -/
structure InnerLevelEntry (s t : State) (k : EventKind) (g : Gate) (d ds : SegDescriptor)
    (err : Option Word) (cs : Half) (ret : Word) : Prop where
  entered : HandlerEntered s t k g d d.dpl
  ss : t.sregs.ss = ⟨tssSs s d.dpl, ds⟩
  esp : t.regs.esp = tssEsp s d.dpl - BitVec.ofNat 32 (slotSize g.wide * (frameItems err + 2))
  frame : FrameAt t g.wide (ds.base + t.regs.esp) ret cs s.eflags err
  oldEsp : readSlot t g.wide (slotAt (ds.base + t.regs.esp) g.wide (frameItems err)) =
    slotValue g.wide s.regs.esp
  oldSs : t.read16 (slotAt (ds.base + t.regs.esp) g.wide (frameItems err + 1)) = s.sregs.ss.sel
  memory : SameMemoryOutside s t (ds.base + t.regs.esp) (slotSize g.wide * (frameItems err + 2))

/-- The vector and kind of the event an instruction starts by itself (R59, R62, R63). -/
def softEvent (s : State) : Instr → Option (Byte × EventKind)
  | .intN _ n => some (n, .softIntN)
  | .int3 _ => some (3, .softInt3)
  | .into _ => if s.flagOF then some (4, .softInto) else none
  | _ => none

/-! ### Returns -/

/-- The operand size of the two forms of IRET (R72). -/
def iretSize : Instr → Option Bool
  | .iretd _ => some true
  | .iret _ => some false
  | _ => none

/-- The image of EFLAGS an IRET pops: with the 16-bit operand size the upper half is the current one
(R73). -/
def poppedFlags (s : State) (wide : Bool) : Word :=
  if wide then stackSlot s wide 2
  else ((s.eflags.extractLsb' 16 16) ++ ((stackSlot s wide 2).extractLsb' 0 16) : BitVec (16 + 16))

/-- MergeFlags of R74, bit by bit. -/
def IretFlags (cur img : Word) (cpl : BitVec 2) (new : Word) : Prop :=
  ∀ j, j < 32 → new.getLsbD j =
    if j = 1 then true
    else if definedFlags.getLsbD j = false then false
    else if j = 12 ∨ j = 13 then (if cpl = 0 then img.getLsbD j else cur.getLsbD j)
    else if j = 9 then (if cpl ≤ ioplOf cur then img.getLsbD j else cur.getLsbD j)
    else if j = 17 then (if cpl = 0 then img.getLsbD j else cur.getLsbD j)
    else img.getLsbD j

/-- A code selector IRET returns to, its descriptor and the popped EIP pass the checks of R80. -/
structure ReturnReady (s : State) (wide : Bool) (d : SegDescriptor) : Prop where
  notNull : (stackSlot s wide 1).extractLsb' 0 16 &&& 0xFFFC ≠ 0#16
  descriptor : s.readSegDescriptor ((stackSlot s wide 1).extractLsb' 0 16) = some d
  code : d.isCode = true
  rpl : s.cpl ≤ (stackSlot s wide 1).extractLsb' 0 2
  dpl : if d.isConforming then d.dpl ≤ (stackSlot s wide 1).extractLsb' 0 2
    else d.dpl = (stackSlot s wide 1).extractLsb' 0 2
  present : d.present = true
  entry : d.inLimit (stackSlot s wide 0) 1 = true
  notVirtual8086 : wide = true → s.cpl = 0 → (stackSlot s wide 2).getLsbD 17 = false

/-- The CS an IRET pops. -/
def poppedCs (s : State) (wide : Bool) : Half := (stackSlot s wide 1).extractLsb' 0 16

/-- An exception the popped CS can raise (R80); a segment that fails two checks can raise either
(log 41). -/
def CodeReturnFault (s : State) (sel : Half) (e : Exn) : Prop :=
  (sel &&& 0xFFFC = 0 ∧ e = ⟨13, 0⟩) ∨
  (sel &&& 0xFFFC ≠ 0 ∧ s.readSegDescriptor sel = none ∧ e = ⟨13, (sel &&& 0xFFFC).setWidth 32⟩) ∨
  (sel &&& 0xFFFC ≠ 0 ∧ ∃ d, s.readSegDescriptor sel = some d ∧
    ((d.isCode = false ∨ sel.extractLsb' 0 2 < s.cpl ∨
          (d.isConforming = false ∧ d.dpl ≠ sel.extractLsb' 0 2) ∨
          (d.isConforming = true ∧ sel.extractLsb' 0 2 < d.dpl)) ∧
        e = ⟨13, (sel &&& 0xFFFC).setWidth 32⟩ ∨
      d.present = false ∧ e = ⟨11, (sel &&& 0xFFFC).setWidth 32⟩))

/-- The exception of a popped EIP beyond the limit of the segment the popped CS names (R80). -/
def EntryReturnFault (s : State) (wide : Bool) (e : Exn) : Prop :=
  (∃ d, s.readSegDescriptor (poppedCs s wide) = some d ∧ d.inLimit (stackSlot s wide 0) 1 = false) ∧
    e = ⟨13, 0⟩

/-- An exception the SS:ESP of a return to an outer level can raise: its items cannot be read (log 6),
or the popped SS is refused (R80). -/
def OuterReturnFault (s : State) (wide : Bool) (e : Exn) : Prop :=
  s.cpl < (poppedCs s wide).extractLsb' 0 2 ∧
    (¬ StackReadable s wide 5 ∧ e = ⟨12, 0⟩ ∨
      StackReadable s wide 5 ∧
        StackSelectorFault s ((stackSlot s wide 4).extractLsb' 0 16)
          ((poppedCs s wide).extractLsb' 0 2) e)

/-- What both returns leave: CS:EIP and EFLAGS from the stack (R72, R74), NMIs unblocked (R76),
everything but SS:ESP and the data segments as before. -/
structure Returned (s t : State) (wide : Bool) (d : SegDescriptor) : Prop where
  eip : t.eip.extractLsb' 0 16 = (stackSlot s wide 0).extractLsb' 0 16
  eipWide : wide = true → t.eip = stackSlot s wide 0
  cs : t.sregs.cs = ⟨(stackSlot s wide 1).extractLsb' 0 16, d⟩
  flags : IretFlags s.eflags (poppedFlags s wide) s.cpl t.eflags
  nmiBlocked : t.nmiBlocked = false
  windows : WindowsClosed t
  deliveries : t.deliveries = s.deliveries
  regs : SameRegsBut .esp s t
  idtr : t.idtr = s.idtr
  memory : SameMemory s t
  system : SameSystem s t

/-- A register that holds a segment more privileged than a level, whatever its type, gets the null
selector (R80) and an unusable cache (the model's choice, log 23); any other is as before. -/
def DataSegmentReturned (level : BitVec 2) (before after : SegRegister) : Prop :=
  (before.desc.present = true ∧ before.desc.dpl < level →
      after.sel = 0 ∧ after.desc.present = false) ∧
  (¬(before.desc.present = true ∧ before.desc.dpl < level) → after = before)

/-! ### Tasks (R149, R79; the layout of the TSS is 93 G8's and log 5's) -/

/-- A set of addresses has none of the `n` bytes from `a`. -/
def Apart (other : Word → Prop) (a : Word) (n : Nat) : Prop :=
  ∀ k, k < n → ¬ other (a + BitVec.ofNat 32 k)

/-- The TSS that TR of `s` names holds, in the memory of `t`, the context of the task `s` runs: each
item reads as that task left it, unless it overlaps what else is stored. -/
structure TaskSaved (s t : State) (flags : Word) (cs : Half) (ret : Word) (other : Word → Prop) :
    Prop where
  eip : Apart other (s.tr.desc.base + 32) 4 → t.read32 (s.tr.desc.base + 32) = ret
  eflags : Apart other (s.tr.desc.base + 36) 4 → t.read32 (s.tr.desc.base + 36) = flags
  eax : Apart other (s.tr.desc.base + 40) 4 → t.read32 (s.tr.desc.base + 40) = s.regs.eax
  ecx : Apart other (s.tr.desc.base + 44) 4 → t.read32 (s.tr.desc.base + 44) = s.regs.ecx
  edx : Apart other (s.tr.desc.base + 48) 4 → t.read32 (s.tr.desc.base + 48) = s.regs.edx
  ebx : Apart other (s.tr.desc.base + 52) 4 → t.read32 (s.tr.desc.base + 52) = s.regs.ebx
  esp : Apart other (s.tr.desc.base + 56) 4 → t.read32 (s.tr.desc.base + 56) = s.regs.esp
  ebp : Apart other (s.tr.desc.base + 60) 4 → t.read32 (s.tr.desc.base + 60) = s.regs.ebp
  esi : Apart other (s.tr.desc.base + 64) 4 → t.read32 (s.tr.desc.base + 64) = s.regs.esi
  edi : Apart other (s.tr.desc.base + 68) 4 → t.read32 (s.tr.desc.base + 68) = s.regs.edi
  es : Apart other (s.tr.desc.base + 72) 2 → t.read16 (s.tr.desc.base + 72) = s.sregs.es.sel
  cs : Apart other (s.tr.desc.base + 76) 2 → t.read16 (s.tr.desc.base + 76) = cs
  ss : Apart other (s.tr.desc.base + 80) 2 → t.read16 (s.tr.desc.base + 80) = s.sregs.ss.sel
  ds : Apart other (s.tr.desc.base + 84) 2 → t.read16 (s.tr.desc.base + 84) = s.sregs.ds.sel
  fs : Apart other (s.tr.desc.base + 88) 2 → t.read16 (s.tr.desc.base + 88) = s.sregs.fs.sel
  gs : Apart other (s.tr.desc.base + 92) 2 → t.read16 (s.tr.desc.base + 92) = s.sregs.gs.sel

/-- Every byte outside the saved context of the task `s` runs, and outside what else is stored, reads
as before. -/
def SameMemoryBut (s t : State) (other : Word → Prop) : Prop :=
  ∀ x, 62 ≤ (x - (s.tr.desc.base + 32)).toNat → ¬ other x → t.byteAt x = s.byteAt x

/-- A segment register holds a selector and the present descriptor it names in `m`; with a null
selector it is unusable. -/
def SegmentLoaded (m : State) (sel : Half) (r : SegRegister) : Prop :=
  r.sel = sel ∧ (sel &&& 0xFFFC = 0 → r.desc.present = false) ∧
    (sel &&& 0xFFFC ≠ 0 → m.readSegDescriptor sel = some r.desc ∧ r.desc.present = true)

/-- The state `t` runs the task whose TSS stands at `b` in the memory of `m`: registers, EIP, flags
(NT apart), segment registers, LDTR and the T flag come from there; CS is a code segment that holds
EIP, and SS a writable segment of the CPL. ESP stands apart: an error code may be on the stack. -/
structure TaskLoaded (m t : State) (b : Word) : Prop where
  eax : t.regs.eax = m.read32 (b + 40)
  ecx : t.regs.ecx = m.read32 (b + 44)
  edx : t.regs.edx = m.read32 (b + 48)
  ebx : t.regs.ebx = m.read32 (b + 52)
  ebp : t.regs.ebp = m.read32 (b + 60)
  esi : t.regs.esi = m.read32 (b + 64)
  edi : t.regs.edi = m.read32 (b + 68)
  eip : t.eip = m.read32 (b + 32)
  flags : ∀ j, j < 32 → j ≠ 14 → t.eflags.getLsbD j =
    if j = 1 then true else (definedFlags.getLsbD j && (m.read32 (b + 36)).getLsbD j)
  notVirtual8086 : t.flagVM = false
  ldtr : SegmentLoaded m (m.read16 (b + 96)) t.ldtr
  es : SegmentLoaded m (m.read16 (b + 72)) t.sregs.es
  cs : SegmentLoaded m (m.read16 (b + 76)) t.sregs.cs
  ss : SegmentLoaded m (m.read16 (b + 80)) t.sregs.ss
  ds : SegmentLoaded m (m.read16 (b + 84)) t.sregs.ds
  fs : SegmentLoaded m (m.read16 (b + 88)) t.sregs.fs
  gs : SegmentLoaded m (m.read16 (b + 92)) t.sregs.gs
  code : t.sregs.cs.desc.isCode = true
  entry : t.sregs.cs.desc.inLimit t.eip 1 = true
  stack : t.sregs.ss.desc.isWritableData = true ∧ t.sregs.ss.desc.dpl = t.cpl
  taskTrap : t.taskTrap = (m.byteAt (b + 100)).getLsbD 0

/-- What no task switch touches. -/
structure SameButTask (s t : State) : Prop where
  idtr : t.idtr = s.idtr
  gdtr : t.gdtr = s.gdtr
  mode : t.mode = s.mode
  nmiPending : t.nmiPending = s.nmiPending
  nmiHeld : t.nmiHeld = s.nmiHeld
  shutdown : t.shutdown = s.shutdown
  apic : t.apic = s.apic
  params : t.params = s.params
  env : t.env = s.env

/-! ### The faults of a task switch (log 5)

Which of several is raised is open (R126, log 41), so each predicate says what one exception can be. -/

/-- The error code of a selector (R154). -/
def selectorCode (sel : Half) (ext : Word) : Word := (sel &&& 0xFFFC).setWidth 32 + ext

/-- A selector that is not null fails to name a descriptor with a property. -/
def NamesNo (m : State) (sel : Half) (good : SegDescriptor → Prop) : Prop :=
  sel &&& 0xFFFC ≠ 0 ∧ ∀ d, m.readSegDescriptor sel = some d → ¬ good d

/-- The LDT selector of a task: null, or a present LDT in the GDT. -/
def TaskLdtFault (m : State) (sel : Half) (ext : Word) (e : Exn) : Prop :=
  NamesNo m sel (fun d => sel.getLsbD 2 = false ∧ d.kind = .ldt ∧ d.present = true) ∧
    e = ⟨10, selectorCode sel ext⟩

/-- The code segment of a task, whose DPL agrees with its RPL, and the EIP in it. -/
def TaskCodeFault (m : State) (sel : Half) (eip ext : Word) (e : Exn) : Prop :=
  ((sel &&& 0xFFFC = 0 ∨ NamesNo m sel (fun d => d.isCode = true ∧
      if d.isConforming then d.dpl ≤ sel.extractLsb' 0 2 else d.dpl = sel.extractLsb' 0 2)) ∧
    e = ⟨10, selectorCode sel ext⟩) ∨
  (sel &&& 0xFFFC ≠ 0 ∧ ∃ d, m.readSegDescriptor sel = some d ∧
    (d.present = false ∧ e = ⟨11, selectorCode sel ext⟩ ∨ d.inLimit eip 1 = false ∧ e = ⟨13, ext⟩))

/-- The stack segment of a task: writable, its RPL and DPL the CPL. -/
def TaskStackFault (m : State) (sel : Half) (cpl : BitVec 2) (ext : Word) (e : Exn) : Prop :=
  ((sel &&& 0xFFFC = 0 ∨ NamesNo m sel (fun d =>
      sel.extractLsb' 0 2 = cpl ∧ d.isWritableData = true ∧ d.dpl = cpl)) ∧
    e = ⟨10, selectorCode sel ext⟩) ∨
  (sel &&& 0xFFFC ≠ 0 ∧ ∃ d, m.readSegDescriptor sel = some d ∧ d.present = false ∧
    e = ⟨12, selectorCode sel ext⟩)

/-- A data segment of a task: null, or readable and not more privileged than CPL and RPL. -/
def TaskDataFault (m : State) (cpl : BitVec 2) (ext : Word) (sel : Half) (e : Exn) : Prop :=
  (NamesNo m sel (fun d => d.isReadable = true ∧
      (d.isConforming = true ∨ cpl ≤ d.dpl ∧ sel.extractLsb' 0 2 ≤ d.dpl)) ∧
    e = ⟨10, selectorCode sel ext⟩) ∨
  (sel &&& 0xFFFC ≠ 0 ∧ ∃ d, m.readSegDescriptor sel = some d ∧ d.present = false ∧
    e = ⟨11, selectorCode sel ext⟩)

/-- An exception the context in the TSS that TR of `m` names can raise, VM = 0 in its flags. Its
selectors are looked up with its own LDT. -/
def ContextFault (m : State) (ext : Word) (e : Exn) : Prop :=
  let b := m.tr.desc.base
  let u := { m with ldtr := m.loadedSegment (m.read16 (b + 96)) }
  let cs := m.read16 (b + 76)
  let cpl := cs.extractLsb' 0 2
  (m.read32 (b + 36)).getLsbD 17 = false ∧
    (TaskLdtFault m (m.read16 (b + 96)) ext e ∨ TaskCodeFault u cs (m.read32 (b + 32)) ext e ∨
      TaskStackFault u (m.read16 (b + 80)) cpl ext e ∨ TaskDataFault u cpl ext (m.read16 (b + 72)) e ∨
      TaskDataFault u cpl ext (m.read16 (b + 84)) e ∨ TaskDataFault u cpl ext (m.read16 (b + 88)) e ∨
      TaskDataFault u cpl ext (m.read16 (b + 92)) e)

/-- A descriptor of a 32-bit TSS, busy or not. -/
def IsTss32 (d : SegDescriptor) : Prop := ∃ b, d.kind = .tss32 b

/-- An exception the selector of a TSS can raise: `vec` where it names nothing in the GDT that is a TSS
with the busy mark asked for, #NP where the descriptor is not present, #TS where the TSS is too short.
The kind of a 16-bit TSS raises nothing: it is refused (log 39). -/
def TssFault (s : State) (sel : Half) (busy : Bool) (vec : Byte) (ext : Word) (e : Exn) : Prop :=
  ((sel.getLsbD 2 = true ∨ s.readSegDescriptor sel = none) ∧ e = ⟨vec, selectorCode sel ext⟩) ∨
  (sel.getLsbD 2 = false ∧ ∃ d, s.readSegDescriptor sel = some d ∧
    (d.kind ≠ .tss32 busy ∧ d.kind ≠ .tss16 ∧ e = ⟨vec, selectorCode sel ext⟩ ∨
      d.present = false ∧ e = ⟨11, selectorCode sel ext⟩ ∨
      IsTss32 d ∧ d.limit.toNat < 103 ∧ e = ⟨10, selectorCode sel ext⟩))

/-- The exception of a current TSS too short for the context to be saved. -/
def CurrentTssFault (s : State) (ext : Word) (e : Exn) : Prop :=
  IsTss32 s.tr.desc ∧ s.tr.desc.limit.toNat < 103 ∧ e = ⟨10, selectorCode s.tr.sel ext⟩

/-- The TSS of a selector can be read: its context can raise faults. -/
def ReadableTss (s : State) (sel : Half) (a : Word) (d : SegDescriptor) : Prop :=
  IsTss32 s.tr.desc ∧ sel.getLsbD 2 = false ∧ s.descriptorAddr sel = some a ∧
    s.readSegDescriptor sel = some d ∧ IsTss32 d ∧ d.present = true ∧ 103 ≤ d.limit.toNat

/-- An exception a task gate can raise (R132, R149, R151). -/
def TaskGateFault (s : State) (sel : Half) (ext : Word) (cs : Half) (ret : Word) (e : Exn) : Prop :=
  TssFault s sel false 13 ext e ∨ CurrentTssFault s ext e ∨
    ∃ a d, ReadableTss s sel a d ∧ ContextFault (switchedTo s sel d a cs ret) ext e

/-- An exception a task return can raise (R79): the link must lie within the current TSS to be read. -/
def TaskReturnFault (s : State) (ret : Word) (e : Exn) : Prop :=
  let link := s.read16 s.tr.desc.base
  CurrentTssFault s 0 e ∨
    (1 ≤ s.tr.desc.limit.toNat ∧
      (TssFault s link true 10 0 e ∨
        ∃ a d, ReadableTss s link a d ∧ ContextFault (returnedTo s d ret) 0 e))

end Sys2Proof.Machine
end

