-- ==== Sys2Proof/Certificates/Slice0/Obligations.lean ====
section
/-! DEFINITION. The statements about this machine, for the provers. Each docstring names the rules of
spec/ it rests on, or the log entry where it states a choice of the model. -/

open Sys2Proof Sys2Proof.Machine

/-! ### Encoding -/

/-- Decoding the encoding of a well-formed instruction gives the instruction back, whatever follows
it (30_encoding.md R50 to R53). -/
def Obligations.DecodeEncode : Prop :=
  ∀ (i : Instr) (rest : List Byte), i.wf = true → decode (encode i ++ rest) = .instr i

/-- What the decoder accepts is well formed, and the bytes it accepted are its encoding: no two byte
strings stand for one instruction (R50 to R53). -/
def Obligations.DecodedIsEncoded : Prop :=
  ∀ (bs : List Byte) (i : Instr), decode bs = .instr i → i.wf = true ∧ encode i <+: bs

/-- Instruction bytes written out from R53's table, one for each family. -/
def Obligations.WordsDecode : Prop :=
  decode [0xCD, 0x23] = .instr (.intN [] 35) ∧
  decode [0xCC] = .instr (.int3 []) ∧
  decode [0xCE] = .instr (.into []) ∧
  decode [0x62, 0x03] = .instr (.bound32 [] .eax (.base .ebx .d0)) ∧
  decode [0x66, 0x62, 0x03] = .instr (.bound16 [.opSize] .eax (.base .ebx .d0)) ∧
  decode [0xCF] = .instr (.iretd []) ∧
  decode [0x66, 0xCF] = .instr (.iret [.opSize]) ∧
  decode [0xFB] = .instr (.sti []) ∧
  decode [0xFA] = .instr (.cli []) ∧
  decode [0x66, 0x9C] = .instr (.pushf [.opSize]) ∧
  decode [0x9D] = .instr (.popfd []) ∧
  decode [0x0F, 0x01, 0x1D, 0x00, 0x30, 0x00, 0x00] = .instr (.lidt [] (.abs 0x3000)) ∧
  decode [0x0F, 0x01, 0x08] = .instr (.sidt [] (.base .eax .d0)) ∧
  decode [0x8E, 0xD0] = .instr (.movSS [] (.reg .eax)) ∧
  decode [0x17] = .instr (.popSS []) ∧
  decode [0x0F, 0xB2, 0x23] = .instr (.lss [] .esp (.base .ebx .d0))

/-- The reserved and illegal encodings of R56: register forms where memory is required and MOV to CS
or to segment register 6 or 7, with their operand there, are invalid opcodes (vector 6, a fault at
the instruction, and no error code where vector 6 is none of ERRCODE_VECTORS); other digits, other
segment registers and other opcodes are refused by name. -/
def Obligations.IllegalEncodings : Prop :=
  (∀ (modrm : Byte) (rest : List Byte), modrm.extractLsb' 6 2 = 3#2 →
    decode (0x62 :: modrm :: rest) = .invalidOpcode ∧
    decode (0x0F :: 0xB2 :: modrm :: rest) = .invalidOpcode ∧
    (modrm.extractLsb' 3 3 = 3#3 ∨ modrm.extractLsb' 3 3 = 1#3 →
      decode (0x0F :: 0x01 :: modrm :: rest) = .invalidOpcode)) ∧
  (∀ (modrm : Byte) (rest : List Byte),
    modrm.extractLsb' 3 3 = 1#3 ∨ modrm.extractLsb' 3 3 = 6#3 ∨ modrm.extractLsb' 3 3 = 7#3 →
      (modrm.extractLsb' 6 2 = 3#2 ∨ 5 ≤ rest.length →
        decode (0x8E :: modrm :: rest) = .invalidOpcode) ∧
      (decode (0x8E :: modrm :: rest) = .invalidOpcode ∨
        decode (0x8E :: modrm :: rest) = .invalidTruncated)) ∧
  (∀ (modrm : Byte) (rest : List Byte),
    modrm.extractLsb' 3 3 = 0#3 ∨ modrm.extractLsb' 3 3 = 3#3 ∨ modrm.extractLsb' 3 3 = 4#3 ∨
        modrm.extractLsb' 3 3 = 5#3 →
      decode (0x8E :: modrm :: rest) = .refused (.movSegment (modrm.extractLsb' 3 3))) ∧
  (∀ (modrm : Byte) (rest : List Byte),
    modrm.extractLsb' 3 3 ≠ 3#3 → modrm.extractLsb' 3 3 ≠ 1#3 →
      decode (0x0F :: 0x01 :: modrm :: rest) = .refused (.group0F01 (modrm.extractLsb' 3 3))) ∧
  (∀ (b : Byte) (rest : List Byte), b ≠ 0x01 → b ≠ 0xB2 →
      decode (0x0F :: b :: rest) = .refused (.opcode0F b)) ∧
  (∀ (b : Byte) (rest : List Byte), prefixOf b = none →
      b ∉ [0xCD, 0xCC, 0xCE, 0x62, 0xCF, 0xFB, 0xFA, 0x9C, 0x9D, 0x0F, 0x8E, 0x17] →
      decode (b :: rest) = .refused (.opcode b)) ∧
  udExn.vec = 6 ∧ (∀ s : State, 6 ∉ s.params.errcodeVectors → udExn.pushed s.params = none) ∧
  (∀ s : State, s.Quiet → s.mode = .protectedMode → s.sregs.cs.desc.big = true →
    (decode s.fetchWindow = .invalidOpcode →
      step s = takeException { s with env := s.env.tail } udExn s.eip) ∧
    (∀ r, decode s.fetchWindow = .refused r → step s = .refused (.outsideOpcodeMap r)))

/-- LOCK before an instruction of the map is an invalid opcode, a repeat prefix is refused, and so is
67H before a memory operand (R51). An instruction longer than 15 bytes does not decode, and its fetch
raises #GP with error code 0 at the instruction (R50; the code is log 36's). An invalid opcode that
also goes on past the bytes fetched raises #GP where the limit of the code segment cut it off (R126
class 8), and either exception where 15 bytes did (class 9, log 41). -/
def Obligations.PrefixesAndLength : Prop :=
  (∀ (i : Instr) (rest : List Byte), i.wf = true → i.size ≤ 14 →
    decode (0xF0 :: (encode i ++ rest)) = .invalidOpcode ∧
    decode (0xF2 :: (encode i ++ rest)) = .refused .repeatPrefix ∧
    decode (0xF3 :: (encode i ++ rest)) = .refused .repeatPrefix) ∧
  (∀ (p : List Prefix) (r : Reg) (m : MemOperand) (i : Instr) (rest : List Byte),
    i = .bound32 p r m ∨ i = .bound16 p r m ∨ i = .lidt p m ∨ i = .sidt p m ∨ i = .movSS p (.mem m) ∨
      i = .lss p r m →
    i.wf = true → i.size ≤ 14 →
    decode (0x67 :: (encode i ++ rest)) = .refused .addressSize16) ∧
  (∀ (i : Instr) (rest : List Byte), i.formOk = true → 15 < i.size →
    decode (encode i ++ rest) = .truncated) ∧
  (∀ s : State, s.Quiet → s.mode = .protectedMode → s.sregs.cs.desc.big = true →
    (decode s.fetchWindow = .truncated →
      step s = takeException { s with env := s.env.tail } ⟨13, 0⟩ s.eip) ∧
    (decode s.fetchWindow = .invalidTruncated →
      (s.fetchWindow.length < 15 →
        step s = takeException { s with env := s.env.tail } ⟨13, 0⟩ s.eip) ∧
      (s.fetchWindow.length = 15 →
        step s = takeException { s with env := s.env.tail } ⟨13, 0⟩ s.eip ∨
        step s = takeException { s with env := s.env.tail } ⟨6, 0⟩ s.eip))) ∧
  (∀ (i : Instr) (rest : List Byte), i.formOk = true → 15 ≤ i.size →
    decode (0xF0 :: (encode i ++ rest)) = .truncated ∨
      decode (0xF0 :: (encode i ++ rest)) = .invalidTruncated)

/-! ### Reset and invariants -/

/-- A hardware reset clears every flag (bit 1 stays 1), the NMI block, the inhibition and the pending
NMIs, and leaves the processor outside protected mode (10_state.md R30); State.reset is such a
state. IDTR gets the parameter RESET_IDTR (R5, 92 D15). That memory is kept is the model's choice
(log 24): R30 leaves memory after a reset unspecified. -/
def Obligations.ResetState : Prop :=
  (∀ s : State, s.input.reset = true → ∃ t, step s = .next t ∧
    t.eflags = 2 ∧ t.nmiBlocked = false ∧ t.eventInhibit = false ∧ t.nmiPending = 0 ∧
    t.nmiHeld = 0 ∧ t.mode = .realAddress ∧
    t.idtr = ⟨s.params.resetIdtrBase, s.params.resetIdtrLimit⟩ ∧ SameMemory s t) ∧
  State.reset.eflags = 2 ∧ State.reset.nmiBlocked = false ∧ State.reset.eventInhibit = false ∧
  State.reset.nmiPending = 0 ∧ State.reset.nmiHeld = 0 ∧ State.reset.mode = .realAddress

/-- The reset state is legal: canonical memory, reserved EFLAGS bits, no NMI remembered. -/
def Obligations.ResetLegal : Prop := State.reset.Legal

/-- Every step keeps a legal state legal: memory canonical, the reserved bits of EFLAGS at their fixed
values (R11, R68, R74), no more NMIs remembered from a blocking than NMI_LATCH_DEPTH (R118,
92 D24). -/
def Obligations.LegalKept : Prop :=
  ∀ s t : State, s.Legal → step s = .next t → t.Legal

/-- Only LIDT at CPL 0 and a hardware reset change IDTR (10_state.md R19). -/
def Obligations.IdtrWrittenOnlyByLidt : Prop :=
  ∀ s t : State, step s = .next t → t.idtr ≠ s.idtr →
    s.input.reset = true ∨
      s.cpl = 0 ∧ ∃ p m, decode s.fetchWindow = .instr (.lidt p m)

/-- Choices of the model (log 4, 16, 17): no step but a hardware reset changes the mode, GDTR or what
the APIC's vector table says; no step changes the parameters or the presence of the APIC; every step
consumes one input of the environment. -/
def Obligations.SystemStateKept : Prop :=
  ∀ s t : State, step s = .next t →
    t.params = s.params ∧ t.env = s.env.tail ∧ t.apic.availability = s.apic.availability ∧
    (s.input.reset = false → t.mode = s.mode ∧ t.gdtr = s.gdtr ∧ t.apic.lint0 = s.apic.lint0 ∧
      t.apic.lint1 = s.apic.lint1)

/-! ### Memory -/

/-- Memory is little-endian (20_memory.md R42): byte `k` of a 2-, 4- or 8-byte read stands `k` bytes
above its address; a value written is read back, and no byte outside it changes. -/
def Obligations.LittleEndian : Prop :=
  ∀ (s : State) (a : Word),
    (∀ k < 2, (s.read16 a).extractLsb' (8 * k) 8 = s.byteAt (a + BitVec.ofNat 32 k)) ∧
    (∀ k < 4, (s.read32 a).extractLsb' (8 * k) 8 = s.byteAt (a + BitVec.ofNat 32 k)) ∧
    (∀ k < 8, (s.read64 a).extractLsb' (8 * k) 8 = s.byteAt (a + BitVec.ofNat 32 k)) ∧
    (∀ v, (s.write16 a v).read16 a = v ∧ SameMemoryOutside s (s.write16 a v) a 2) ∧
    (∀ v, (s.write32 a v).read32 a = v ∧ SameMemoryOutside s (s.write32 a v) a 4)

/-! ### Steps -/

/-- At a quiet boundary, in a 32-bit code segment, a step decodes the bytes at CS:EIP and executes
the instruction on the state whose environment has moved on. With TF = 0 that is all; with TF = 1 the
single-step trap follows an instruction that completed with no delivery of its own, unless events
are inhibited (R148, log 19) or a trap on task switch, which is of a higher class, is due at the same
boundary (R126). -/
def Obligations.StepRunsDecoded : Prop :=
  ∀ (s : State) (i : Instr), s.Quiet → s.mode = .protectedMode → s.sregs.cs.desc.big = true →
    decode s.fetchWindow = .instr i →
    (s.flagTF = false → step s = exec i { s with env := s.env.tail }) ∧
    (∀ t, exec i { s with env := s.env.tail } = .next t →
      (t.deliveries ≠ s.deliveries ∨ t.eventInhibit = true ∨ t.taskTrap = true → step s = .next t) ∧
      (s.flagTF = true → t.deliveries = s.deliveries → t.eventInhibit = false → t.shutdown = false →
        t.taskTrap = false → step s = takeException t ⟨1, 0⟩ t.eip)) ∧
    (∀ f, exec i { s with env := s.env.tail } = .fault f → step s = .fault f) ∧
    (∀ r, exec i { s with env := s.env.tail } = .refused r → step s = .refused r)

/-! ### Gates -/

/-- A vector whose entry ends beyond the limit of the IDT raises #GP(8v + 2 + ext); any other is
looked up at IDTR.base + 8v (R129). -/
def Obligations.IdtLimitCheck : Prop :=
  ∀ (s : State) (v : Byte) (k : EventKind) (err : Option Word) (cs : Half) (ret : Word),
    s.flagVM = false →
    (s.idtr.limit.toNat < 8 * v.toNat + 7 →
      deliver s v k err cs ret =
        .error (.raise ⟨13, 8 * v.setWidth 32 + 2 + if k.soft then 0 else 1⟩)) ∧
    (8 * v.toNat + 7 ≤ s.idtr.limit.toNat → ∀ ext,
      (∀ g, decodeGate (s.read64 (s.idtr.base + 8 * v.setWidth 32)) = some g →
        idtGate s v ext = .ok g))

/-- A descriptor in the IDT that is no task, interrupt or trap gate raises #GP(8v + 2 + ext) (R131;
decision 92 D7 from general knowledge, 93 G12, log 37). -/
def Obligations.NonGateRaises : Prop :=
  ∀ (s : State) (v : Byte) (k : EventKind) (err : Option Word) (cs : Half) (ret : Word),
    s.flagVM = false → 8 * v.toNat + 7 ≤ s.idtr.limit.toNat →
    (let g := s.read64 (s.idtr.base + 8 * v.setWidth 32)
     g.getLsbD 44 = true ∨ (g.extractLsb' 40 4 ≠ 5#4 ∧ g.extractLsb' 40 4 ≠ 14#4 ∧
      g.extractLsb' 40 4 ≠ 15#4 ∧ g.extractLsb' 40 4 ≠ 6#4 ∧ g.extractLsb' 40 4 ≠ 7#4)) →
    deliver s v k err cs ret =
      .error (.raise ⟨13, 8 * v.setWidth 32 + 2 + if k.soft then 0 else 1⟩)

/-- The DPL of a gate is checked for INT n, INT 3 and INTO only: there a CPL above it raises
#GP(8v + 2); for every other event the DPL makes no difference to the checks on the gate (R139). -/
def Obligations.GateDplCheck : Prop :=
  (∀ (s : State) (v : Byte) (k : EventKind) (g : Gate) (err : Option Word) (cs : Half) (ret : Word),
    s.flagVM = false → 8 * v.toNat + 7 ≤ s.idtr.limit.toNat →
    decodeGate (s.read64 (s.idtr.base + 8 * v.setWidth 32)) = some g →
    k = .softIntN ∨ k = .softInt3 ∨ k = .softInto → g.dpl < s.cpl →
    deliver s v k err cs ret = .error (.raise ⟨13, 8 * v.setWidth 32 + 2⟩)) ∧
  (∀ (s : State) (v : Byte) (k : EventKind) (g : Gate) (l : BitVec 2),
    k = .extIntr ∨ k = .extApic ∨ k = .nmi ∨ k = .exc →
    checkGate s { g with dpl := l } v k = checkGate s g v k ∧
    (g.present = true → checkGate s g v k = .ok ()))

/-- No delivery transfers to a less privileged code segment: a handler segment whose DPL is above CPL
raises #GP with the target selector and EXT (R137). -/
def Obligations.HandlerPrivilegeCheck : Prop :=
  ∀ (s : State) (v : Byte) (k : EventKind) (g : Gate) (d : SegDescriptor) (err : Option Word)
    (cs : Half) (ret : Word),
    s.flagVM = false → GateReady s v k g → g.kind ≠ .task → g.sel &&& 0xFFFC ≠ 0 →
    s.readSegDescriptor g.sel = some d → d.isCode = true → s.cpl < d.dpl →
    deliver s v k err cs ret =
      .error (.raise ⟨13, (g.sel &&& 0xFFFC).setWidth 32 + if k.soft then 0 else 1⟩)

/-- A gate that is not present raises #NP(8v + 2 + ext), after the check of its DPL; the other checks
on the handler's segment raise #GP and #NP with its selector, in their order (R128, R146 step 7, 92
D7, D33). -/
def Obligations.PresenceAndSegmentChecks : Prop :=
  (∀ (s : State) (v : Byte) (k : EventKind) (g : Gate) (err : Option Word) (cs : Half) (ret : Word),
      s.flagVM = false → 8 * v.toNat + 7 ≤ s.idtr.limit.toNat →
      decodeGate (s.read64 (s.idtr.base + 8 * v.setWidth 32)) = some g →
      (k.soft = true → s.cpl ≤ g.dpl) → g.present = false →
      deliver s v k err cs ret =
        .error (.raise ⟨11, 8 * v.setWidth 32 + 2 + if k.soft then 0 else 1⟩)) ∧
  (∀ (s : State) (v : Byte) (k : EventKind) (g : Gate) (err : Option Word) (cs : Half) (ret : Word),
      s.flagVM = false → GateReady s v k g → g.kind ≠ .task →
      (g.sel &&& 0xFFFC = 0 →
        deliver s v k err cs ret = .error (.raise ⟨13, if k.soft then 0 else 1⟩)) ∧
      (g.sel &&& 0xFFFC ≠ 0 → s.readSegDescriptor g.sel = none →
        deliver s v k err cs ret =
          .error (.raise ⟨13, (g.sel &&& 0xFFFC).setWidth 32 + if k.soft then 0 else 1⟩)) ∧
      (∀ d, g.sel &&& 0xFFFC ≠ 0 → s.readSegDescriptor g.sel = some d →
        (d.isCode = false → deliver s v k err cs ret =
          .error (.raise ⟨13, (g.sel &&& 0xFFFC).setWidth 32 + if k.soft then 0 else 1⟩)) ∧
        (d.isCode = true → d.dpl ≤ s.cpl → d.present = false → deliver s v k err cs ret =
          .error (.raise ⟨11, (g.sel &&& 0xFFFC).setWidth 32 + if k.soft then 0 else 1⟩)) ∧
        (d.isCode = true → d.dpl ≤ s.cpl → d.present = true → d.inLimit g.offset 1 = false →
          deliver s v k err cs ret = .error (.raise ⟨13, 0⟩))))

/-! ### Deliveries -/

/-- A delivery to the level of the interrupted code completes: EFLAGS, CS, EIP and the error code go
onto the current stack, in that order, nothing else is stored, and the handler starts (R142). The
items have the size of the gate. -/
def Obligations.DeliverSameLevel : Prop :=
  ∀ (s : State) (v : Byte) (k : EventKind) (g : Gate) (d : SegDescriptor) (err : Option Word)
    (cs : Half) (ret : Word), SameLevelReady s v k g d err →
    ∃ t, deliver s v k err cs ret = .ok t ∧ SameLevelEntry s t k g d err cs ret

/-- A delivery to a more privileged level completes: SS:ESP come from the TSS, and the old SS, the old
ESP, EFLAGS, CS, EIP and the error code go onto that stack, in that order (R141). Where the TSS holds
SS:ESP, how much of it must lie within its limit, and which checks that SS has to pass, is 93 G8's and
log 5's and 22's: the model's choice, since R38 and R146 leave it open. -/
def Obligations.DeliverInnerLevel : Prop :=
  ∀ (s : State) (v : Byte) (k : EventKind) (g : Gate) (d ds : SegDescriptor) (err : Option Word)
    (cs : Half) (ret : Word), InnerLevelReady s v k g d ds err →
    ∃ t, deliver s v k err cs ret = .ok t ∧ InnerLevelEntry s t k g d ds err cs ret

/-- Taking an exception enters its handler with the return pointer given and pushes the error code
exactly for the vectors of the parameter ERRCODE_VECTORS (R109, R153, R91, R5), which State.reset
holds at the spec's value 8, 10 to 14 and 17 (92 D3). Where the TSS holds an inner stack is 93 G8's and
log 5's; the code pushed for a vector the spec gives none is log 42's. -/
def Obligations.ExceptionEnters : Prop :=
  State.reset.params.errcodeVectors = [8, 10, 11, 12, 13, 14, 17] ∧
  ∀ (s : State) (e : Exn) (ret : Word) (g : Gate) (d : SegDescriptor) (err : Option Word),
    err = (if e.vec ∈ s.params.errcodeVectors then some e.code else none) →
    (SameLevelReady s e.vec .exc g d err →
      ∃ t, takeException s e ret = .next t ∧ SameLevelEntry s t .exc g d err s.sregs.cs.sel ret) ∧
    (∀ ds, InnerLevelReady s e.vec .exc g d ds err →
      ∃ t, takeException s e ret = .next t ∧
        InnerLevelEntry s t .exc g d ds err s.sregs.cs.sel ret)

/-- A delivery through an interrupt or trap gate never lowers the privilege, and a return from a
handler never raises it (R137, R80, R162). -/
def Obligations.PrivilegeDirection : Prop :=
  (∀ (s t : State) (v : Byte) (k : EventKind) (g : Gate) (err : Option Word) (cs : Half) (ret : Word),
    decodeGate (s.read64 (s.idtr.base + 8 * v.setWidth 32)) = some g → g.kind ≠ .task →
    deliver s v k err cs ret = .ok t → t.cpl ≤ s.cpl) ∧
  (∀ (s t : State) (i : Instr), (iretSize i).isSome → s.flagNT = false → s.shutdown = false →
    exec i s = .next t → t.shutdown = false → t.deliveries = s.deliveries → s.cpl ≤ t.cpl)

/-- The exception an exception's delivery raises: under the policy refuse the machine has no step;
under doubleFault the pairs of 93 G10 make a double fault and the others are taken in series (R147,
92 D8, log 14: a parameter of the model). A second exception of a series whose delivery raises again
makes a double fault too (log 14: the model's choice). A double fault is delivered through vector 8
with error code 0 where vector 8 is one of ERRCODE_VECTORS and with some CS:EIP saved; an exception
raised by that delivery puts the processor in shutdown, where no inhibition holds (G10, log 14). -/
def Obligations.NestedFaults : Prop :=
  (∀ (s : State) (e e2 : Exn) (ret : Word),
    deliver s e.vec .exc (e.pushed s.params) s.sregs.cs.sel ret = .error (.raise e2) →
    (s.params.nestedFault = .refuse →
      takeException s e ret = .fault (.nestedException e.vec e2.vec)) ∧
    (s.params.nestedFault = .doubleFault →
      (e.vec ∈ [0, 10, 11, 12, 13] ∧ e2.vec ∈ [0, 10, 11, 12, 13] ∨
          e.vec = 14 ∧ e2.vec ∈ [0, 10, 11, 12, 13, 14] →
        takeException s e ret = takeDoubleFault s) ∧
      (¬(e.vec ∈ [0, 10, 11, 12, 13] ∧ e2.vec ∈ [0, 10, 11, 12, 13] ∨
          e.vec = 14 ∧ e2.vec ∈ [0, 10, 11, 12, 13, 14]) →
        (∀ t, deliver s e2.vec .exc (e2.pushed s.params) s.sregs.cs.sel ret = .ok t →
          takeException s e ret = .next t) ∧
        (∀ e3, deliver s e2.vec .exc (e2.pushed s.params) s.sregs.cs.sel ret = .error (.raise e3) →
          takeException s e ret = takeDoubleFault s)))) ∧
  (∀ s : State, ∃ (n : Nat) (cs : Half) (ret : Word),
    takeDoubleFault s =
      match deliver { s with freeCount := n } 8 .exc
        (if 8 ∈ s.params.errcodeVectors then some 0 else none) cs ret with
      | .ok t => .next t
      | .error (.raise _) =>
        .next { s with shutdown := true, eventInhibit := false, stiWindow := false }
      | .error (.refuse r) => .refused r)

/-- Only a hardware reset or an NMI leaves the shutdown (93 G10, log 14: a choice of the model). -/
def Obligations.ShutdownLeft : Prop :=
  ∀ s t : State, s.shutdown = true → step s = .next t → t.shutdown = false →
    s.input.reset = true ∨
      (0 < nmiAvailable s s.input ∧ s.nmiBlocked = false ∧ s.eventInhibit = false)

/-- The error code of R154: EXT in bit 0, IDT in bit 1, TI in bit 2, the index in bits 15 to 3, the
upper half 0; 8v + 2 + ext for an entry of the IDT, (sel and FFFCH) + ext for a selector. Where the
index ends and that the upper half is 0 are derived and decided (92 D34). -/
def Obligations.ErrorCodeFormat : Prop :=
  (∀ (index : BitVec 13) (idt ti ext : Bool) (j : Nat), j < 32 →
    (errCode index idt ti ext).getLsbD j =
      if j = 0 then ext else if j = 1 then idt else if j = 2 then ti
      else if j < 16 then index.getLsbD (j - 3) else false) ∧
  (∀ (v : Byte) (ext : Bool),
    errCode (v.setWidth 13) true false ext = idtCode v (if ext then 1 else 0)) ∧
  (∀ (sel : Half) (ext : Bool),
    errCode (sel.extractLsb' 3 13) false (sel.getLsbD 2) ext = selCode sel (if ext then 1 else 0))

/-! ### Software interrupts -/

/-- INT n, INT 3 and INTO with OF = 1 complete by entering the handler of their vector with no error
code and the return pointer behind the instruction (R59, R62, R63, R60), at the same level or at a
more privileged one, whose stack the TSS holds where 93 G8 and log 5 have it. -/
def Obligations.SoftwareInterruptEnters : Prop :=
  ∀ (s : State) (i : Instr) (v : Byte) (k : EventKind) (g : Gate) (d : SegDescriptor),
    s.Runs → softEvent s i = some (v, k) →
    (SameLevelReady s v k g d none →
      ∃ t, exec i s = .next t ∧
        SameLevelEntry s t k g d none s.sregs.cs.sel (s.eip + BitVec.ofNat 32 (encode i).length)) ∧
    (∀ ds, InnerLevelReady s v k g d ds none →
      ∃ t, exec i s = .next t ∧
        InnerLevelEntry s t k g d ds none s.sregs.cs.sel
          (s.eip + BitVec.ofNat 32 (encode i).length))

/-- An entry beyond the limit of the IDT, and a CPL above the gate's DPL, make INT n, INT 3 and INTO
raise #GP(8v + 2), whose return pointer is the instruction itself (R59, R139, 92 D9). -/
def Obligations.SoftwareInterruptFaults : Prop :=
  ∀ (s : State) (i : Instr) (v : Byte) (k : EventKind), s.Runs → softEvent s i = some (v, k) →
    (s.idtr.limit.toNat < 8 * v.toNat + 7 ∨
      (8 * v.toNat + 7 ≤ s.idtr.limit.toNat ∧
        ∃ g, decodeGate (s.read64 (s.idtr.base + 8 * v.setWidth 32)) = some g ∧ g.dpl < s.cpl)) →
    exec i s = takeException s ⟨13, 8 * v.setWidth 32 + 2⟩ s.eip

/-- INT 2 calls the handler of vector 2 and leaves the NMI block as it was; the gate's DPL is checked
as for any INT n (R61). Where the TSS holds an inner stack is 93 G8's and log 5's. -/
def Obligations.Int2IsNoNmi : Prop :=
  ∀ (s : State) (p : List Prefix), s.Runs →
    (∀ t, exec (.intN p 2) s = .next t → t.nmiBlocked = s.nmiBlocked) ∧
    (∀ g d, SameLevelReady s 2 .softIntN g d none →
      ∃ t, exec (.intN p 2) s = .next t ∧ t.eip = g.offset ∧ t.nmiBlocked = s.nmiBlocked) ∧
    (∀ g d ds, InnerLevelReady s 2 .softIntN g d ds none →
      ∃ t, exec (.intN p 2) s = .next t ∧ t.eip = g.offset ∧ t.nmiBlocked = s.nmiBlocked) ∧
    (∀ g, 8 * 2 + 7 ≤ s.idtr.limit.toNat →
      decodeGate (s.read64 (s.idtr.base + 16)) = some g → g.dpl < s.cpl →
      exec (.intN p 2) s = takeException s ⟨13, 18⟩ s.eip)

/-- INTO with OF = 0 does nothing but advance EIP (R63). -/
def Obligations.IntoWithoutOverflow : Prop :=
  ∀ (s : State) (p : List Prefix), s.Runs → s.flagOF = false →
    ∃ t, exec (.into p) s = .next t ∧ OnlyCompleted s t (.into p)

/-- BOUND: an index within the signed bounds, either bound included, completes with no effect; any
other raises #BR (vector 5), a fault, without an error code where vector 5 is none of
ERRCODE_VECTORS. The 32-bit form has its bounds at EA and
EA + 4, the 16-bit form at EA and EA + 2 (R64). -/
def Obligations.BoundChecksIndex : Prop :=
  (∀ (s : State) (p : List Prefix) (r : Reg) (m : MemOperand), s.Runs →
      OperandPermitted s p m 0 4 false → OperandPermitted s p m 4 4 false →
      (let lo := (s.read32 (operandLinear s p m)).toInt
       let hi := (s.read32 (operandLinear s p m + 4)).toInt
       let x := (s.getReg r).toInt
       (lo ≤ x ∧ x ≤ hi →
         ∃ t, exec (.bound32 p r m) s = .next t ∧ OnlyCompleted s t (.bound32 p r m)) ∧
       (x < lo ∨ hi < x → exec (.bound32 p r m) s = takeException s ⟨5, 0⟩ s.eip)) ∧
      (5 ∉ s.params.errcodeVectors → Exn.pushed ⟨5, 0⟩ s.params = none)) ∧
  (∀ (s : State) (p : List Prefix) (r : Reg) (m : MemOperand), s.Runs →
      OperandPermitted s p m 0 2 false → OperandPermitted s p m 2 2 false →
      (let lo := (s.read16 (operandLinear s p m)).toInt
       let hi := (s.read16 (operandLinear s p m + 2)).toInt
       let x := ((s.getReg r).extractLsb' 0 16).toInt
       (lo ≤ x ∧ x ≤ hi →
         ∃ t, exec (.bound16 p r m) s = .next t ∧ OnlyCompleted s t (.bound16 p r m)) ∧
       (x < lo ∨ hi < x → exec (.bound16 p r m) s = takeException s ⟨5, 0⟩ s.eip)) ∧
      (5 ∉ s.params.errcodeVectors → Exn.pushed ⟨5, 0⟩ s.params = none))

/-! ### The interrupt flag -/

/-- STI sets IF when CPL <= IOPL and raises #GP(0) at the instruction otherwise; nothing but IF, EIP
and the windows changes (R65). With IF already 1 no window opens. -/
def Obligations.StiSetsIf : Prop :=
  ∀ (s : State) (p : List Prefix), s.Runs →
    (s.cpl ≤ s.iopl →
      ∃ t, exec (.sti p) s = .next t ∧ Completed s t (.sti p) ∧
        (∀ j, j < 32 → t.eflags.getLsbD j = if j = 9 then true else s.eflags.getLsbD j) ∧
        SameRegs s t ∧ t.sregs = s.sregs ∧ t.idtr = s.idtr ∧ SameMemory s t ∧
        t.eventInhibit = false ∧ (s.flagIF = true → t.stiWindow = false)) ∧
    (s.iopl < s.cpl → exec (.sti p) s = takeException s ⟨13, 0⟩ s.eip)

/-- CLI clears IF when CPL <= IOPL and raises #GP(0) at the instruction otherwise (R66). -/
def Obligations.CliClearsIf : Prop :=
  ∀ (s : State) (p : List Prefix), s.Runs →
    (s.cpl ≤ s.iopl →
      ∃ t, exec (.cli p) s = .next t ∧ Completed s t (.cli p) ∧
        (∀ j, j < 32 → t.eflags.getLsbD j = if j = 9 then false else s.eflags.getLsbD j) ∧
        SameRegs s t ∧ t.sregs = s.sregs ∧ t.idtr = s.idtr ∧ SameMemory s t ∧ WindowsClosed t) ∧
    (s.iopl < s.cpl → exec (.cli p) s = takeException s ⟨13, 0⟩ s.eip)

/-- PUSHFD pushes EFLAGS and PUSHF its low half; only ESP, EIP and the item change, and a stack
without room raises #SS(0) at the instruction (R67; the exception is log 6's). -/
def Obligations.PushFlagsStoresEflags : Prop :=
  ∀ (s : State) (p : List Prefix), s.Runs →
    (∀ (i : Instr) (wide : Bool), (i = .pushfd p ∧ wide = true) ∨ (i = .pushf p ∧ wide = false) →
      (let a := s.sregs.ss.desc.base + (s.regs.esp - BitVec.ofNat 32 (slotSize wide))
       RoomFor s.sregs.ss.desc s.regs.esp wide 1 →
        ∃ t, exec i s = .next t ∧ Completed s t i ∧
          readSlot t wide a = slotValue wide s.eflags ∧
          t.regs.esp = s.regs.esp - BitVec.ofNat 32 (slotSize wide) ∧
          SameMemoryOutside s t a (slotSize wide) ∧ SameRegsBut .esp s t ∧
          t.eflags = s.eflags ∧ t.sregs = s.sregs ∧ t.idtr = s.idtr ∧ WindowsClosed t) ∧
      (¬ RoomFor s.sregs.ss.desc s.regs.esp wide 1 →
        exec i s = takeException s ⟨12, 0⟩ s.eip))

/-- POPFD loads EFLAGS from the stack: IOPL only at CPL 0, IF only when CPL <= IOPL, VM never, RF
cleared, the reserved bits fixed; ESP rises by 4. POPF loads EFLAGS[15:0] under the same conditions
and leaves the upper half; ESP rises by 2 (R68). -/
def Obligations.PopFlagsLoadsEflags : Prop :=
  (∀ (s : State) (p : List Prefix), s.Runs → StackReadable s true 1 →
      ∃ t, exec (.popfd p) s = .next t ∧ Completed s t (.popfd p) ∧
        (∀ j, j < 32 → t.eflags.getLsbD j =
          if j = 1 then true
          else if definedFlags.getLsbD j = false then false
          else if j = 12 ∨ j = 13 then
            (if s.cpl = 0 then (stackSlot s true 0).getLsbD j else s.eflags.getLsbD j)
          else if j = 9 then
            (if s.cpl ≤ s.iopl then (stackSlot s true 0).getLsbD j else s.eflags.getLsbD j)
          else if j = 17 then s.eflags.getLsbD j
          else if j = 16 then false
          else (stackSlot s true 0).getLsbD j) ∧
        t.regs.esp = s.regs.esp + 4 ∧ SameRegsBut .esp s t ∧ t.sregs = s.sregs ∧ t.idtr = s.idtr ∧
        SameMemory s t ∧ WindowsClosed t) ∧
  (∀ (s : State) (p : List Prefix), s.Runs → StackReadable s false 1 →
      ∃ t, exec (.popf p) s = .next t ∧ Completed s t (.popf p) ∧
        (∀ j, j < 32 → t.eflags.getLsbD j =
          if j = 1 then true
          else if definedFlags.getLsbD j = false then false
          else if 16 ≤ j then s.eflags.getLsbD j
          else if j = 12 ∨ j = 13 then
            (if s.cpl = 0 then (stackSlot s false 0).getLsbD j else s.eflags.getLsbD j)
          else if j = 9 then
            (if s.cpl ≤ s.iopl then (stackSlot s false 0).getLsbD j else s.eflags.getLsbD j)
          else (stackSlot s false 0).getLsbD j) ∧
        t.regs.esp = s.regs.esp + 2 ∧ SameRegsBut .esp s t ∧ t.sregs = s.sregs ∧ t.idtr = s.idtr ∧
        SameMemory s t ∧ WindowsClosed t)

/-! ### IDTR -/

/-- LIDT at CPL 0 loads the limit from EA and the base from EA + 2 (with 66H the low 24 bits of it);
at any other level it raises #GP(0), and an operand its segment does not permit raises the fault of
the memory read: either way at the instruction, and with IDTR as it was (R69, R70; the code of the
memory faults is log 6's). -/
def Obligations.LidtLoadsIdtr : Prop :=
  ∀ (s : State) (p : List Prefix) (m : MemOperand), s.Runs →
    (s.cpl = 0 → OperandPermitted s p m 0 2 false → OperandPermitted s p m 2 4 false →
      ∃ t, exec (.lidt p m) s = .next t ∧ Completed s t (.lidt p m) ∧
        t.idtr.limit = s.read16 (operandLinear s p m) ∧
        (Prefix.opSize ∉ p → t.idtr.base = s.read32 (operandLinear s p m + 2)) ∧
        (Prefix.opSize ∈ p →
          t.idtr.base = s.read32 (operandLinear s p m + 2) &&& 0x00FFFFFF) ∧
        SameRegs s t ∧ t.eflags = s.eflags ∧ t.sregs = s.sregs ∧ SameMemory s t ∧
        WindowsClosed t) ∧
    (s.cpl ≠ 0 → exec (.lidt p m) s = takeException s ⟨13, 0⟩ s.eip) ∧
    (s.cpl = 0 → ¬(OperandPermitted s p m 0 2 false ∧ OperandPermitted s p m 2 4 false) →
      exec (.lidt p m) s =
        takeException s (if operandSegment p m = .ss then ⟨12, 0⟩ else ⟨13, 0⟩) s.eip)

/-- SIDT stores the limit at EA and the base at EA + 2, at any privilege level; only those six bytes
and EIP change (R69, R71). -/
def Obligations.SidtStoresIdtr : Prop :=
  ∀ (s : State) (p : List Prefix) (m : MemOperand), s.Runs →
    OperandPermitted s p m 0 2 true → OperandPermitted s p m 2 4 true →
      ∃ t, exec (.sidt p m) s = .next t ∧ Completed s t (.sidt p m) ∧
        t.read16 (operandLinear s p m) = s.idtr.limit ∧
        t.read32 (operandLinear s p m + 2) = s.idtr.base ∧
        SameMemoryOutside s t (operandLinear s p m) 6 ∧
        SameRegs s t ∧ t.eflags = s.eflags ∧ t.sregs = s.sregs ∧ t.idtr = s.idtr ∧ WindowsClosed t

/-! ### Loads of SS -/

/-- MOV SS loads SS with a selector LoadSS accepts and inhibits events for the next instruction
(R82); where it runs under an inhibition itself, whether that extends is open (92 D31). -/
def Obligations.MovSSLoadsSS : Prop :=
  ∀ (s : State) (p : List Prefix) (src : RM16) (sel : Half) (d : SegDescriptor), s.Runs →
    SourceIs s p src sel → StackSelectorOk s sel d →
      ∃ t, exec (.movSS p src) s = .next t ∧ Completed s t (.movSS p src) ∧
        t.sregs.ss = ⟨sel, d⟩ ∧ t.sregs = { s.sregs with ss := t.sregs.ss } ∧
        (s.eventInhibit = false → t.eventInhibit = true) ∧ t.stiWindow = false ∧
        SameRegs s t ∧ t.eflags = s.eflags ∧ t.idtr = s.idtr ∧ SameMemory s t

/-- POP SS loads SS from the item the old SS:ESP addresses, moves ESP by the item's size and inhibits
events for the next instruction (R83). -/
def Obligations.PopSSLoadsSS : Prop :=
  ∀ (s : State) (p : List Prefix) (wide : Bool) (d : SegDescriptor), s.Runs →
    (wide = true ↔ Prefix.opSize ∉ p) → StackReadable s wide 1 →
    StackSelectorOk s ((stackSlot s wide 0).extractLsb' 0 16) d →
      ∃ t, exec (.popSS p) s = .next t ∧ Completed s t (.popSS p) ∧
        t.sregs.ss = ⟨(stackSlot s wide 0).extractLsb' 0 16, d⟩ ∧
        t.sregs = { s.sregs with ss := t.sregs.ss } ∧
        t.regs.esp = s.regs.esp + BitVec.ofNat 32 (slotSize wide) ∧ SameRegsBut .esp s t ∧
        (s.eventInhibit = false → t.eventInhibit = true) ∧ t.stiWindow = false ∧
        t.eflags = s.eflags ∧ t.idtr = s.idtr ∧ SameMemory s t

/-- LSS loads SS and its register together, the selector from behind the offset, and opens no
inhibition (R84); with 66H the offset has 16 bits and replaces the low half (R51, log 21). -/
def Obligations.LssLoadsPair : Prop :=
  ∀ (s : State) (p : List Prefix) (r : Reg) (m : MemOperand) (d : SegDescriptor), s.Runs →
    (Prefix.opSize ∉ p → OperandPermitted s p m 0 4 false → OperandPermitted s p m 4 2 false →
      StackSelectorOk s (s.read16 (operandLinear s p m + 4)) d →
      ∃ t, exec (.lss p r m) s = .next t ∧ Completed s t (.lss p r m) ∧
        t.sregs.ss = ⟨s.read16 (operandLinear s p m + 4), d⟩ ∧
        t.sregs = { s.sregs with ss := t.sregs.ss } ∧
        t.getReg r = s.read32 (operandLinear s p m) ∧ SameRegsBut r s t ∧
        t.eflags = s.eflags ∧ t.idtr = s.idtr ∧ SameMemory s t ∧ WindowsClosed t) ∧
    (Prefix.opSize ∈ p → OperandPermitted s p m 0 2 false → OperandPermitted s p m 2 2 false →
      StackSelectorOk s (s.read16 (operandLinear s p m + 2)) d →
      ∃ t, exec (.lss p r m) s = .next t ∧ Completed s t (.lss p r m) ∧
        t.sregs.ss = ⟨s.read16 (operandLinear s p m + 2), d⟩ ∧
        t.sregs = { s.sregs with ss := t.sregs.ss } ∧
        (t.getReg r).extractLsb' 0 16 = s.read16 (operandLinear s p m) ∧
        (t.getReg r).extractLsb' 16 16 = (s.getReg r).extractLsb' 16 16 ∧ SameRegsBut r s t ∧
        t.eflags = s.eflags ∧ t.idtr = s.idtr ∧ SameMemory s t ∧ WindowsClosed t)

/-- A selector that LoadSS refuses makes MOV SS, POP SS and LSS, with and without 66H, raise an
exception of R82 at the instruction, with none of its effects (R82, R83, R84, R104). Where two checks
fail, either exception may come (R126, log 41). -/
def Obligations.StackSelectorFaults : Prop :=
  ∀ (s : State) (p : List Prefix), s.Runs →
    (∀ src sel, SourceIs s p src sel → (∃ e, StackSelectorFault s sel s.cpl e) →
      ∃ e, StackSelectorFault s sel s.cpl e ∧ exec (.movSS p src) s = takeException s e s.eip) ∧
    (∀ wide, (wide = true ↔ Prefix.opSize ∉ p) → StackReadable s wide 1 →
      (∃ e, StackSelectorFault s ((stackSlot s wide 0).extractLsb' 0 16) s.cpl e) →
      ∃ e, StackSelectorFault s ((stackSlot s wide 0).extractLsb' 0 16) s.cpl e ∧
        exec (.popSS p) s = takeException s e s.eip) ∧
    (∀ r m, Prefix.opSize ∉ p → OperandPermitted s p m 0 4 false →
      OperandPermitted s p m 4 2 false →
      (∃ e, StackSelectorFault s (s.read16 (operandLinear s p m + 4)) s.cpl e) →
      ∃ e, StackSelectorFault s (s.read16 (operandLinear s p m + 4)) s.cpl e ∧
        exec (.lss p r m) s = takeException s e s.eip) ∧
    (∀ r m, Prefix.opSize ∈ p → OperandPermitted s p m 0 2 false →
      OperandPermitted s p m 2 2 false →
      (∃ e, StackSelectorFault s (s.read16 (operandLinear s p m + 2)) s.cpl e) →
      ∃ e, StackSelectorFault s (s.read16 (operandLinear s p m + 2)) s.cpl e ∧
        exec (.lss p r m) s = takeException s e s.eip)

/-- An access its segment does not permit raises #SS(0) through SS and #GP(0) through any other
segment, at the instruction (R104; the exceptions are log 6's). -/
def Obligations.OperandFaults : Prop :=
  ∀ (s : State) (p : List Prefix) (r : Reg) (m : MemOperand), s.Runs →
    (let e : Exn := if operandSegment p m = .ss then ⟨12, 0⟩ else ⟨13, 0⟩
     (¬(OperandPermitted s p m 0 4 false ∧ OperandPermitted s p m 4 4 false) →
       exec (.bound32 p r m) s = takeException s e s.eip) ∧
     (¬(OperandPermitted s p m 0 2 false ∧ OperandPermitted s p m 2 2 false) →
       exec (.bound16 p r m) s = takeException s e s.eip) ∧
     (¬(OperandPermitted s p m 0 2 true ∧ OperandPermitted s p m 2 4 true) →
       exec (.sidt p m) s = takeException s e s.eip) ∧
     (¬ OperandPermitted s p m 0 2 false →
       exec (.movSS p (.mem m)) s = takeException s e s.eip) ∧
     (Prefix.opSize ∉ p →
       ¬(OperandPermitted s p m 0 4 false ∧ OperandPermitted s p m 4 2 false) →
       exec (.lss p r m) s = takeException s e s.eip) ∧
     (Prefix.opSize ∈ p →
       ¬(OperandPermitted s p m 0 2 false ∧ OperandPermitted s p m 2 2 false) →
       exec (.lss p r m) s = takeException s e s.eip)) ∧
    (¬ StackReadable s true 1 → exec (.popfd p) s = takeException s ⟨12, 0⟩ s.eip) ∧
    (¬ StackReadable s false 1 → exec (.popf p) s = takeException s ⟨12, 0⟩ s.eip) ∧
    (∀ wide, (wide = true ↔ Prefix.opSize ∉ p) → ¬ StackReadable s wide 1 →
      exec (.popSS p) s = takeException s ⟨12, 0⟩ s.eip)

/-! ### Returns -/

/-- IRETD and IRET return to the level they run at: EIP, CS and EFLAGS from the stack, ESP above the
three items, nothing stored (R72, R73, R75, R76). -/
def Obligations.IretSameLevel : Prop :=
  ∀ (s : State) (i : Instr) (wide : Bool) (d : SegDescriptor), s.Runs → s.flagNT = false →
    iretSize i = some wide → StackReadable s wide 3 → ReturnReady s wide d →
    (stackSlot s wide 1).extractLsb' 0 2 = s.cpl →
    ∃ t, exec i s = .next t ∧ Returned s t wide d ∧
      t.regs.esp = s.regs.esp + BitVec.ofNat 32 (slotSize wide * 3) ∧
      t.sregs = { s.sregs with cs := t.sregs.cs }

/-- IRETD and IRET return to a less privileged level: SS:ESP too come from the stack, and data
segment registers that hold more privileged segments get the null selector (R72, R75, R80), whose
cache is unusable (log 23: the model's choice). -/
def Obligations.IretOuterLevel : Prop :=
  ∀ (s : State) (i : Instr) (wide : Bool) (d ds : SegDescriptor), s.Runs → s.flagNT = false →
    iretSize i = some wide → StackReadable s wide 5 → ReturnReady s wide d →
    s.cpl < (stackSlot s wide 1).extractLsb' 0 2 →
    (stackSlot s wide 4).extractLsb' 0 16 &&& 0xFFFC ≠ 0#16 →
    s.readSegDescriptor ((stackSlot s wide 4).extractLsb' 0 16) = some ds →
    (stackSlot s wide 4).extractLsb' 0 2 = (stackSlot s wide 1).extractLsb' 0 2 →
    ds.isWritableData = true → ds.dpl = (stackSlot s wide 1).extractLsb' 0 2 → ds.present = true →
    ∃ t, exec i s = .next t ∧ Returned s t wide d ∧
      t.sregs.ss = ⟨(stackSlot s wide 4).extractLsb' 0 16, ds⟩ ∧
      t.regs.esp.extractLsb' 0 16 = (stackSlot s wide 3).extractLsb' 0 16 ∧
      (wide = true → t.regs.esp = stackSlot s wide 3) ∧
      DataSegmentReturned t.cpl s.sregs.es t.sregs.es ∧
      DataSegmentReturned t.cpl s.sregs.ds t.sregs.ds ∧
      DataSegmentReturned t.cpl s.sregs.fs t.sregs.fs ∧
      DataSegmentReturned t.cpl s.sregs.gs t.sregs.gs

/-- Which flags an IRET restores, whenever it returns without an exception: IOPL only at CPL 0, IF
only when CPL <= IOPL, VM only at CPL 0, the reserved bits never, all others always (R74). -/
def Obligations.IretRestoresFlags : Prop :=
  ∀ (s t : State) (i : Instr) (wide : Bool), iretSize i = some wide → s.flagNT = false →
    s.shutdown = false → exec i s = .next t → t.shutdown = false → t.deliveries = s.deliveries →
    IretFlags s.eflags (poppedFlags s wide) s.cpl t.eflags

/-- What makes an IRET raise an exception, at the instruction and with NMIs unblocked already (R80,
R76): items that cannot be read (#SS(0), log 6), the popped CS, the popped EIP beyond the segment's
limit, and on a return to an outer level the items of SS:ESP and the popped SS. The checks of CS come
before the reads of SS:ESP (R72); where several fail beyond that, one of their exceptions is raised,
whichever (R126, log 41). An image with VM = 1 at CPL 0 is refused (92 D27). -/
def Obligations.IretChecks : Prop :=
  ∀ (s : State) (i : Instr) (wide : Bool), s.Runs → s.flagNT = false → iretSize i = some wide →
    (let u := { s with nmiBlocked := false }
     let cs := poppedCs s wide
     let virtual := wide = true ∧ s.cpl = 0 ∧ (stackSlot s wide 2).getLsbD 17 = true
     (¬ StackReadable s wide 3 → exec i s = takeException u ⟨12, 0⟩ s.eip) ∧
     (StackReadable s wide 3 → virtual → exec i s = .refused .returnToVirtual8086) ∧
     (StackReadable s wide 3 → ¬ virtual → (∃ e, CodeReturnFault s cs e) →
       ∃ e, (CodeReturnFault s cs e ∨ EntryReturnFault s wide e) ∧
         exec i s = takeException u e s.eip) ∧
     (StackReadable s wide 3 → ¬ virtual → (∀ e, ¬ CodeReturnFault s cs e) →
       (∃ e, EntryReturnFault s wide e ∨ OuterReturnFault s wide e) →
       ∃ e, (EntryReturnFault s wide e ∨ OuterReturnFault s wide e) ∧
         exec i s = takeException u e s.eip))

/-- Every IRET leaves NMIs unblocked, even one that faults, and no other step but a hardware reset
unblocks them (R116). -/
def Obligations.NmiUnblockedByIretOnly : Prop :=
  (∀ (s t : State) (i : Instr), (iretSize i).isSome → exec i s = .next t → t.nmiBlocked = false) ∧
  (∀ s t : State, step s = .next t → s.nmiBlocked = true → t.nmiBlocked = false →
    s.input.reset = true ∨ ∃ i, (iretSize i).isSome ∧ decode s.fetchWindow = .instr i)

/-- An interrupt at the same level followed by IRETD loses nothing: the interrupted program goes on
with its CS:EIP, SS:ESP, registers and flags (R87, R74, R142), provided its code descriptor still
stands in its table (log 4) and IF is either untouched by the gate or restorable at this level. -/
def Obligations.InterruptAndReturnSameLevel : Prop :=
  ∀ (s t : State) (v : Byte) (k : EventKind) (g : Gate) (d : SegDescriptor) (p : List Prefix),
    s.Runs → s.flagsOk → SameLevelReady s v k g d none → g.wide = true →
    deliver s v k none s.sregs.cs.sel s.eip = .ok t →
    t.readSegDescriptor s.sregs.cs.sel = some s.sregs.cs.desc →
    s.sregs.cs.sel &&& 0xFFFC ≠ 0 → s.sregs.cs.desc.isCode = true →
    s.sregs.cs.desc.present = true →
    (if s.sregs.cs.desc.isConforming then s.sregs.cs.desc.dpl ≤ s.cpl
      else s.sregs.cs.desc.dpl = s.cpl) →
    s.sregs.cs.desc.inLimit s.eip 1 = true →
    g.kind = .trap ∨ s.cpl ≤ s.iopl →
    ∃ u, exec (.iretd p) t = .next u ∧ u.eip = s.eip ∧ u.sregs = s.sregs ∧ SameRegs s u ∧
      u.eflags = s.eflags ∧ u.nmiBlocked = false ∧
      SameMemoryOutside s u (s.sregs.ss.desc.base + (s.regs.esp - 12)) 12

/-- The same across levels: a handler at CPL 0 returns by IRETD to the interrupted, less privileged
program with its CS:EIP, SS:ESP, registers and flags (R87, R74, R141, R75), where its data segment
registers hold no segment more privileged than it is (R80, log 23). Where the TSS holds the handler's
stack is 93 G8's and log 5's. -/
def Obligations.InterruptAndReturnInner : Prop :=
  ∀ (s t : State) (v : Byte) (k : EventKind) (g : Gate) (d ds : SegDescriptor) (p : List Prefix),
    s.Runs → s.flagsOk → InnerLevelReady s v k g d ds none → g.wide = true → d.dpl = 0 →
    deliver s v k none s.sregs.cs.sel s.eip = .ok t →
    t.readSegDescriptor s.sregs.cs.sel = some s.sregs.cs.desc →
    s.sregs.cs.sel &&& 0xFFFC ≠ 0 → s.sregs.cs.desc.isCode = true →
    s.sregs.cs.desc.present = true →
    (if s.sregs.cs.desc.isConforming then s.sregs.cs.desc.dpl ≤ s.cpl
      else s.sregs.cs.desc.dpl = s.cpl) →
    s.sregs.cs.desc.inLimit s.eip 1 = true →
    StackSelectorOk s s.sregs.ss.sel s.sregs.ss.desc →
    t.readSegDescriptor s.sregs.ss.sel = some s.sregs.ss.desc →
    (∀ r : SegRegister, r = s.sregs.es ∨ r = s.sregs.ds ∨ r = s.sregs.fs ∨ r = s.sregs.gs →
      ¬(r.desc.present = true ∧ r.desc.dpl < s.cpl)) →
    ∃ u, exec (.iretd p) t = .next u ∧ u.eip = s.eip ∧ u.sregs = s.sregs ∧ SameRegs s u ∧
      u.eflags = s.eflags ∧ u.nmiBlocked = false ∧
      SameMemoryOutside s u (ds.base + (tssEsp s 0 - 20)) 20

/-! ### Handler tasks -/

/-- The faults of a task switch (R132, R149, R151, R79; what is checked beyond the TSS's kind and busy
mark is log 5's). A task gate with faults raises one of them, and an IRET with NT = 1 with faults
raises one at itself, with NMIs unblocked; all are of one class, so that any may come (R126, 92 D4, log
41). A task gate that names a busy TSS never completes: #GP with the TSS selector and EXT is among its
faults, and is the one raised where nothing else is wrong (R151). -/
def Obligations.TaskSwitchFaults : Prop :=
  (∀ (s : State) (v : Byte) (k : EventKind) (g : Gate) (err : Option Word) (cs : Half) (ret : Word),
    s.flagVM = false → GateReady s v k g → g.kind = .task →
    (let ext : Word := if k.soft then 0 else 1
     let busy : Exn := ⟨13, selectorCode g.sel ext⟩
     ((∃ e, TaskGateFault s g.sel ext cs ret e) →
       ∃ e, TaskGateFault s g.sel ext cs ret e ∧ deliver s v k err cs ret = .error (.raise e)) ∧
     (∀ d, g.sel.getLsbD 2 = false → s.readSegDescriptor g.sel = some d → d.kind = .tss32 true →
       (∀ t, deliver s v k err cs ret ≠ .ok t) ∧
       ((∀ e, TaskGateFault s g.sel ext cs ret e → e = busy) →
         deliver s v k err cs ret = .error (.raise busy))))) ∧
  (∀ (s : State) (i : Instr), s.Runs → s.flagNT = true → (iretSize i).isSome →
    IsTss32 s.tr.desc →
    (let u := { s with nmiBlocked := false }
     let ret := s.eip + BitVec.ofNat 32 (encode i).length
     (∃ e, TaskReturnFault u ret e) →
       ∃ e, TaskReturnFault u ret e ∧ exec i s = takeException u e s.eip))

/-- A task switch that completes runs the task of the gate's TSS (R149): in some memory `m`, which
differs from the old one in the saved context, the link back and the busy mark, the TSS is busy,
holds the link and holds the context that is loaded; NT is set; an error code lies on top of the new
task's stack, and nothing else is stored after (93 G8, log 5). -/
def Obligations.TaskSwitchEnters : Prop :=
  ∀ (s t : State) (v : Byte) (k : EventKind) (g : Gate) (d : SegDescriptor) (a : Word)
    (err : Option Word) (cs : Half) (ret : Word),
    decodeGate (s.read64 (s.idtr.base + 8 * v.setWidth 32)) = some g → g.kind = .task →
    s.descriptorAddr g.sel = some a → s.readSegDescriptor g.sel = some d →
    deliver s v k err cs ret = .ok t →
    t.tr = ⟨g.sel, { d with kind := .tss32 true }⟩ ∧ t.flagNT = true ∧ SameButTask s t ∧
    WindowsClosed t ∧ t.deliveries = s.deliveries + 1 ∧
    t.nmiBlocked = (s.nmiBlocked || decide (k = .nmi)) ∧
    ∃ memory : Memory,
      (let m := { t with mem := memory }
       SameMemoryBut s m (fun x => (x - d.base).toNat < 2 ∨ x = a + 5) ∧
       (m.byteAt (a + 5)).getLsbD 1 = true ∧
       (2 ≤ ((a + 5) - d.base).toNat → m.read16 d.base = s.tr.sel) ∧
       TaskLoaded m t d.base ∧
       (err = none → t.regs.esp = m.read32 (d.base + 56) ∧ SameMemory m t) ∧
       (∀ e, err = some e → t.regs.esp = m.read32 (d.base + 56) - 4 ∧
         t.read32 (t.sregs.ss.desc.base + t.regs.esp) = e ∧
         SameMemoryOutside m t (t.sregs.ss.desc.base + t.regs.esp) 4))

/-- A delivery through a task gate saves the context of the interrupted task in its TSS, with the return
pointer given (R149, R150). Which registers make up that context (EIP, EFLAGS, the general registers and
the selectors of the six segment registers, not LDTR's), at which offsets they stand (93 G8 in part),
and that nothing is stored but they, the link, the busy mark and the error code (so that LDTR's selector
at offset 96 and the two bytes above each selector stay as they were), is the model's choice (log 5). -/
def Obligations.TaskContextSaved : Prop :=
  ∀ (s t : State) (v : Byte) (k : EventKind) (g : Gate) (d : SegDescriptor) (a : Word)
    (err : Option Word) (cs : Half) (ret : Word),
    decodeGate (s.read64 (s.idtr.base + 8 * v.setWidth 32)) = some g → g.kind = .task →
    s.descriptorAddr g.sel = some a → s.readSegDescriptor g.sel = some d →
    deliver s v k err cs ret = .ok t →
    (let other : Word → Prop := fun x =>
       (x - d.base).toNat < 2 ∨ x = a + 5 ∨
         err.isSome = true ∧ (x - (t.sregs.ss.desc.base + t.regs.esp)).toNat < 4
     TaskSaved s t s.eflags cs ret other ∧ SameMemoryBut s t other)

/-- An IRET with NT = 1 that returns without an exception goes to the task whose TSS the previous task
link names, and runs the context that TSS holds (R79; offsets are 93 G8's and log 5's). The task that
returns is saved with NT clear and EIP behind the IRET, and its TSS is no longer busy (log 5: the
model's choice). -/
def Obligations.TaskReturnFollowsLink : Prop :=
  ∀ (s t : State) (i : Instr), (iretSize i).isSome → s.flagNT = true → s.shutdown = false →
    exec i s = .next t → t.shutdown = false → t.deliveries = s.deliveries →
    t.tr.sel = s.read16 s.tr.desc.base ∧
    s.readSegDescriptor (s.read16 s.tr.desc.base) = some t.tr.desc ∧
    t.tr.desc.kind = .tss32 true ∧ t.nmiBlocked = false ∧ WindowsClosed t ∧ SameButTask s t ∧
    TaskLoaded t t t.tr.desc.base ∧ t.regs.esp = t.read32 (t.tr.desc.base + 56) ∧
    t.flagNT = (t.read32 (t.tr.desc.base + 36)).getLsbD 14 ∧
    (let other : Word → Prop := fun x => ∃ a, s.descriptorAddr s.tr.sel = some a ∧ x = a + 5
     TaskSaved s t (setFlag s.eflags 14 false) s.sregs.cs.sel
       (s.eip + BitVec.ofNat 32 (encode i).length) other ∧
     SameMemoryBut s t other ∧ ∀ x, other x → (t.byteAt x).getLsbD 1 = false)

/-! ### Boundaries -/

/-- A true NMI that is not blocked is delivered at the boundary through the gate of vector 2, with EIP
as its return pointer and no error code, whatever IF, and before any maskable interrupt; it blocks
NMIs (R114, R115, R126). Of several, one is delivered and the others are held (log 15: the model's
choice). -/
def Obligations.NmiDelivered : Prop :=
  ∀ s t : State, s.NoHigherEvent → s.mode = .protectedMode → 0 < nmiAvailable s s.input →
    s.nmiBlocked = false → s.eventInhibit = false →
    deliver { s.received with nmiHeld := nmiAvailable s s.input - 1 } 2 .nmi none s.sregs.cs.sel
      s.eip = .ok t →
    step s = .next t ∧ t.nmiBlocked = true ∧ t.nmiHeld + 1 = nmiAvailable s s.input

/-- An NMI that arrives while NMIs are blocked is remembered, up to NMI_LATCH_DEPTH of them, and lost
beyond that (R118; the count is decision 92 D24 and log 15). NMIs held from before the blocking stay
held (R125) and take none of that count (log 15). -/
def Obligations.BlockedNmiLatched : Prop :=
  ∀ s t : State, s.nmiBlocked = true → s.input.reset = false → step s = .next t →
    t.nmiPending = min (s.nmiPending + nmiArrivals s s.input) s.params.nmiLatchDepth ∧
      t.nmiHeld = s.nmiHeld

/-- Nothing but the delivery of a true NMI blocks NMIs: not INT 2, not INTR with vector 2 (R117,
R61, R24). -/
def Obligations.OnlyNmiBlocks : Prop :=
  ∀ s t : State, step s = .next t → s.nmiBlocked = false → t.nmiBlocked = true →
    0 < nmiAvailable s s.input ∧ s.eventInhibit = false

/-- What asserts a maskable interrupt: INTR, with the vector of the system bus, and the vectors 16 to
255 that the pins and messages of an enabled local APIC bring (R94, R95). With IF = 0 none is served;
with IF = 1 and no window open, one of them is, with its vector, no error code and EIP as its return
pointer: the only one where there is one (R120, R148), and any where there are several (92 D4). -/
def Obligations.MaskableInterrupts : Prop :=
  (∀ (s : State) (k : EventKind) (v : Byte), (k, v) ∈ maskableRequests s s.input ↔
    (k = .extIntr ∧ v = s.input.busVector ∧
      (s.input.lint0 = true ∧ lint0Role s = .intr ∨ s.input.lint1 = true ∧ lint1Role s = .intr)) ∨
    (k = .extApic ∧ 16 ≤ v.toNat ∧ s.apic.availability = .enabled ∧
      (s.input.lint0 = true ∧ s.apic.lint0 = .fixed v ∨ s.input.lint1 = true ∧ s.apic.lint1 = .fixed v ∨
        v ∈ s.input.apicMessages))) ∧
  (∀ s : State, s.NoHigherEvent → s.mode = .protectedMode → nmiDeliverable s = false →
    (s.flagIF = false → s.input.codeBreakpoint = false → step s = runNext s.received) ∧
    (s.flagIF = true → s.eventInhibit = false → s.stiWindow = false →
      (maskableRequests s s.input ≠ [] →
        ∃ k v n, (k, v) ∈ maskableRequests s s.input ∧
          step s = takeInterrupt { s.received with freeCount := n } v k s.eip) ∧
      (∀ k v, maskableRequests s s.input = [(k, v)] →
        ∀ t, deliver s.received v k none s.sregs.cs.sel s.eip = .ok t → step s = .next t)))

/-- While events are inhibited no interrupt, NMI or debug exception is taken: the boundary runs the
next instruction, and the NMIs that arrive are held (R123, R26 (b), 92 D31), up to NMI_LATCH_DEPTH
where NMIs are blocked as well (92 D24). That the depth bounds only these is the model's reading (log
15). -/
def Obligations.InhibitionHoldsEvents : Prop :=
  ∀ s : State, s.mode = .protectedMode → s.eventInhibit = true → s.shutdown = false →
    s.input.reset = false → s.input.machineCheck = false →
    step s = runNext s.received ∧
    ∀ t, step s = .next t → NmisKept s t

/-- An instruction breakpoint raises #DB before the instruction when RF = 0 and not when RF = 1 (R122;
the match itself is an input, log 18). -/
def Obligations.BreakpointAndResumeFlag : Prop :=
  ∀ s : State, s.NoHigherEvent → s.mode = .protectedMode → nmiDeliverable s = false →
    maskableRequests s s.input = [] → s.input.codeBreakpoint = true → s.eventInhibit = false →
    (s.flagRF = false → step s = takeException s.received ⟨1, 0⟩ s.eip) ∧
    (s.flagRF = true → step s = runNext s.received)

/-- The APIC indicates the receipt of a vector 0 to 15, by a pin or by a message (R96), and such a
vector is not delivered to the core: a boundary at which only such vectors arrive runs the next
instruction (decision 92 D12, log 16). -/
def Obligations.ApicIllegalVector : Prop :=
  (∀ s t : State, s.input.reset = false → (∃ v ∈ apicVectors s s.input, v.toNat < 16) →
    step s = .next t → t.apic.illegalVector = true) ∧
  (∀ s : State, s.NoHigherEvent → s.mode = .protectedMode → nmiDeliverable s = false →
    intrAsserted s s.input = false → s.input.codeBreakpoint = false →
    (∀ v ∈ apicVectors s s.input, v.toNat < 16) → step s = runNext s.received)

/-- A machine check is delivered through vector 18, without an error code where 18 is none of
ERRCODE_VECTORS, with any CS:EIP saved (R102, 92 D17, 93 U1, U4). The NMIs that lose to it are held
pending: all of them where NMIs are not blocked (R125). That it comes as an input is the model's choice
(log 13, 25). -/
def Obligations.MachineCheckDelivered : Prop :=
  ∀ s t : State, s.mode = .protectedMode → s.input.reset = false → s.shutdown = false →
    s.input.machineCheck = true → 18 ∉ s.params.errcodeVectors →
    deliver { s.received with freeCount := s.freeCount + 1 } 18 .exc none
      (Config.freeAbortCs s.freeCount) (Config.freeAbortEip s.freeCount) = .ok t →
    step s = .next t ∧ NmisKept s t

/-- A trap on task switch that is due is taken as #DB at its boundary, before NMIs and maskable
interrupts, and the NMIs that lose to it are held pending: all of them where NMIs are not blocked (R126
class 2, R125), up to NMI_LATCH_DEPTH where they are (R118, 92 D24). Where a machine check precedes it,
it is discarded: the check is taken on a state without it, and a handler that is no task does not meet
it (R26 (d), R125). The T flag that makes it due is log 5's. -/
def Obligations.TaskSwitchTrap : Prop :=
  ∀ s : State, s.mode = .protectedMode → s.input.reset = false → s.shutdown = false →
    s.taskTrap = true →
    s.received.taskTrap = false ∧
    NmisKept s s.received ∧
    (s.input.machineCheck = false → s.eventInhibit = false →
      step s = takeException s.received ⟨1, 0⟩ s.eip ∧ ∀ t, step s = .next t → NmisKept s t) ∧
    (s.input.machineCheck = true → step s = takeAbort s.received ⟨18, 0⟩ ∧
      ∀ g cs ret t, decodeGate (s.read64 (s.idtr.base + 8 * (18 : Byte).setWidth 32)) = some g →
        g.kind ≠ .task → deliver { s.received with freeCount := s.freeCount + 1 } 18 .exc
          (Exn.pushed ⟨18, 0⟩ s.params) cs ret = .ok t → t.taskTrap = false)
end

