-- ==== Sys2Proof/Laws/Flags.lean ====
section
/-! SUPPORT. EFLAGS bit by bit: what each update of it sets and what it leaves. -/

namespace Sys2Proof.Machine

theorem flag_setFlag (f : Word) (i j : Nat) (b : Bool) (hi : i < 32) :
    flag (setFlag f i b) j = if j = i then b else flag f j := by
  unfold flag setFlag
  rcases lt_or_ge j 32 with hj | hj
  · cases b <;> by_cases h : j = i
    · subst h; simp [hi]
    · simp [h, hj]
    · subst h; simp [hi]
    · simp [h, Ne.symm h]
  · simp only [BitVec.getLsbD_of_ge _ _ hj, if_neg (show ¬ j = i by omega)]

theorem flag_fixReserved (f : Word) (j : Nat) :
    flag (fixReserved f) j = ((flag f j && flag definedFlags j) || decide (j = 1)) := by
  unfold flag fixReserved
  have : BitVec.getLsbD (2#32) j = decide (j = 1) := by
    rcases lt_or_ge j 32 with h | h
    · interval_cases j <;> rfl
    · rw [BitVec.getLsbD_of_ge _ _ h]; simp; omega
  simp [this]

theorem flag_setIopl (f : Word) (v : BitVec 2) (j : Nat) (h : j ≠ 12) (h' : j ≠ 13) :
    flag (setIopl f v) j = flag f j := by
  unfold flag setIopl
  rcases lt_or_ge j 32 with hj | hj
  · have hm : BitVec.getLsbD (~~~0x3000#32) j = true := by
      interval_cases j <;> first | rfl | contradiction
    have hv : BitVec.getLsbD (v.setWidth 32 <<< 12) j = false := by
      rw [BitVec.getLsbD_shiftLeft, BitVec.getLsbD_setWidth]
      rcases lt_or_ge j 12 with h1 | h1
      · simp [h1]
      · simp [BitVec.getLsbD_of_ge v (j - 12) (by omega)]
    rw [BitVec.getLsbD_or, BitVec.getLsbD_and, hm, hv, Bool.and_true, Bool.or_false]
  · simp only [BitVec.getLsbD_of_ge _ _ hj]

theorem ioplOf_setIopl (f : Word) (v : BitVec 2) : ioplOf (setIopl f v) = v := by
  refine BitVec.eq_of_getLsbD_eq fun i hi => ?_
  unfold ioplOf setIopl
  interval_cases i <;> simp

/-- IOPL is bits 13 and 12, so a flag elsewhere does not touch it. -/
theorem ioplOf_setFlag (f : Word) (i : Nat) (b : Bool) (hi : i < 32) (h : i ≠ 12) (h' : i ≠ 13) :
    ioplOf (setFlag f i b) = ioplOf f := by
  refine BitVec.eq_of_getLsbD_eq fun k hk => ?_
  have := flag_setFlag f i (12 + k) b hi
  unfold flag at this
  simp only [ioplOf, BitVec.getLsbD_extractLsb', hk, decide_true, Bool.true_and, this]
  rw [if_neg (by omega)]

theorem ioplOf_fixReserved (f : Word) : ioplOf (fixReserved f) = ioplOf f := by
  refine BitVec.eq_of_getLsbD_eq fun k hk => ?_
  have := flag_fixReserved f (12 + k)
  unfold flag at this
  simp only [ioplOf, BitVec.getLsbD_extractLsb', hk, decide_true, Bool.true_and, this]
  interval_cases k <;> simp [definedFlags]

/-- Fixing the reserved bits twice is fixing them once. -/
theorem fixReserved_idem (f : Word) : fixReserved (fixReserved f) = fixReserved f := by
  refine BitVec.eq_of_getLsbD_eq fun i hi => ?_
  have h1 := flag_fixReserved (fixReserved f) i
  have h2 := flag_fixReserved f i
  unfold flag at h1 h2
  rw [h1, h2]
  interval_cases i <;> simp [definedFlags]

/-- Setting a defined flag keeps the reserved bits. -/
theorem fixReserved_setFlag (f : Word) (i : Nat) (b : Bool) (hd : definedFlags.getLsbD i = true)
    (h : fixReserved f = f) : fixReserved (setFlag f i b) = setFlag f i b := by
  have hi : i < 32 := BitVec.lt_of_getLsbD hd
  refine BitVec.eq_of_getLsbD_eq fun j hj => ?_
  have h1 := flag_fixReserved (setFlag f i b) j
  have h2 := flag_setFlag f i j b hi
  have h3 := flag_fixReserved f j
  rw [h] at h3
  unfold flag at h1 h2 h3
  rw [h1, h2]
  by_cases hji : j = i
  · subst hji
    have : j ≠ 1 := by rintro rfl; simp [definedFlags] at hd
    simp [hd, this]
  · simp only [hji, if_false]; exact h3.symm

theorem handlerFlags_fixReserved (f : Word) (c : Bool) (h : fixReserved f = f) :
    fixReserved (handlerFlags f c) = handlerFlags f c := by
  have hg := fixReserved_setFlag _ ntBit false rfl (fixReserved_setFlag _ rfBit false rfl
    (fixReserved_setFlag _ vmBit false rfl (fixReserved_setFlag f tfBit false rfl h)))
  unfold handlerFlags
  cases c
  · exact hg
  · exact fixReserved_setFlag _ ifBit false rfl hg

/-- What a handler starts with, flag by flag (R144, R145). -/
theorem flag_handlerFlags (f : Word) (c : Bool) (j : Nat) :
    flag (handlerFlags f c) j =
      if j = tfBit ∨ j = vmBit ∨ j = rfBit ∨ j = ntBit then false
      else if c = true ∧ j = ifBit then false else flag f j := by
  have hg : flag (setFlag (setFlag (setFlag (setFlag f tfBit false) vmBit false) rfBit false)
      ntBit false) j = if j = tfBit ∨ j = vmBit ∨ j = rfBit ∨ j = ntBit then false else flag f j := by
    rw [flag_setFlag _ _ _ _ (by decide), flag_setFlag _ _ _ _ (by decide),
      flag_setFlag _ _ _ _ (by decide), flag_setFlag _ _ _ _ (by decide)]
    by_cases h1 : j = tfBit <;> by_cases h2 : j = vmBit <;> by_cases h3 : j = rfBit <;>
      by_cases h4 : j = ntBit <;> simp [h1, h2, h3, h4]
  unfold handlerFlags
  cases c
  · simpa using hg
  · simp only [if_true]
    rw [flag_setFlag _ _ _ _ (by decide), hg]
    by_cases h5 : j = ifBit
    · simp [h5]
    · simp [h5]

end Sys2Proof.Machine
end

