-- ==== Sys2Proof/Laws/State.lean ====
section
/-! SUPPORT. One lemma per field per update of the state, each true by rfl: proofs about a later
state rewrite with these and do not unfold a record update. -/

namespace Sys2Proof.Machine

/-! ### setReg -/

@[simp] theorem setReg_regs (s : State) (r : Reg) (v : Word) : (s.setReg r v).regs = s.regs.set r v := rfl
@[simp] theorem setReg_eip (s : State) (r : Reg) (v : Word) : (s.setReg r v).eip = s.eip := rfl
@[simp] theorem setReg_eflags (s : State) (r : Reg) (v : Word) : (s.setReg r v).eflags = s.eflags := rfl
@[simp] theorem setReg_sregs (s : State) (r : Reg) (v : Word) : (s.setReg r v).sregs = s.sregs := rfl
@[simp] theorem setReg_idtr (s : State) (r : Reg) (v : Word) : (s.setReg r v).idtr = s.idtr := rfl
@[simp] theorem setReg_gdtr (s : State) (r : Reg) (v : Word) : (s.setReg r v).gdtr = s.gdtr := rfl
@[simp] theorem setReg_ldtr (s : State) (r : Reg) (v : Word) : (s.setReg r v).ldtr = s.ldtr := rfl
@[simp] theorem setReg_tr (s : State) (r : Reg) (v : Word) : (s.setReg r v).tr = s.tr := rfl
@[simp] theorem setReg_mode (s : State) (r : Reg) (v : Word) : (s.setReg r v).mode = s.mode := rfl
@[simp] theorem setReg_nmiBlocked (s : State) (r : Reg) (v : Word) : (s.setReg r v).nmiBlocked = s.nmiBlocked := rfl
@[simp] theorem setReg_eventInhibit (s : State) (r : Reg) (v : Word) : (s.setReg r v).eventInhibit = s.eventInhibit := rfl
@[simp] theorem setReg_stiWindow (s : State) (r : Reg) (v : Word) : (s.setReg r v).stiWindow = s.stiWindow := rfl
@[simp] theorem setReg_nmiPending (s : State) (r : Reg) (v : Word) : (s.setReg r v).nmiPending = s.nmiPending := rfl
@[simp] theorem setReg_nmiHeld (s : State) (r : Reg) (v : Word) : (s.setReg r v).nmiHeld = s.nmiHeld := rfl
@[simp] theorem setReg_taskTrap (s : State) (r : Reg) (v : Word) : (s.setReg r v).taskTrap = s.taskTrap := rfl
@[simp] theorem setReg_shutdown (s : State) (r : Reg) (v : Word) : (s.setReg r v).shutdown = s.shutdown := rfl
@[simp] theorem setReg_apic (s : State) (r : Reg) (v : Word) : (s.setReg r v).apic = s.apic := rfl
@[simp] theorem setReg_params (s : State) (r : Reg) (v : Word) : (s.setReg r v).params = s.params := rfl
@[simp] theorem setReg_env (s : State) (r : Reg) (v : Word) : (s.setReg r v).env = s.env := rfl
@[simp] theorem setReg_deliveries (s : State) (r : Reg) (v : Word) : (s.setReg r v).deliveries = s.deliveries := rfl
@[simp] theorem setReg_freeCount (s : State) (r : Reg) (v : Word) : (s.setReg r v).freeCount = s.freeCount := rfl
@[simp] theorem setReg_mem (s : State) (r : Reg) (v : Word) : (s.setReg r v).mem = s.mem := rfl

/-! ### setSS -/

@[simp] theorem setSS_regs (s : State) (r : SegRegister) : (s.setSS r).regs = s.regs := rfl
@[simp] theorem setSS_eip (s : State) (r : SegRegister) : (s.setSS r).eip = s.eip := rfl
@[simp] theorem setSS_eflags (s : State) (r : SegRegister) : (s.setSS r).eflags = s.eflags := rfl
@[simp] theorem setSS_sregs (s : State) (r : SegRegister) : (s.setSS r).sregs = { s.sregs with ss := r } := rfl
@[simp] theorem setSS_idtr (s : State) (r : SegRegister) : (s.setSS r).idtr = s.idtr := rfl
@[simp] theorem setSS_gdtr (s : State) (r : SegRegister) : (s.setSS r).gdtr = s.gdtr := rfl
@[simp] theorem setSS_ldtr (s : State) (r : SegRegister) : (s.setSS r).ldtr = s.ldtr := rfl
@[simp] theorem setSS_tr (s : State) (r : SegRegister) : (s.setSS r).tr = s.tr := rfl
@[simp] theorem setSS_mode (s : State) (r : SegRegister) : (s.setSS r).mode = s.mode := rfl
@[simp] theorem setSS_nmiBlocked (s : State) (r : SegRegister) : (s.setSS r).nmiBlocked = s.nmiBlocked := rfl
@[simp] theorem setSS_eventInhibit (s : State) (r : SegRegister) : (s.setSS r).eventInhibit = s.eventInhibit := rfl
@[simp] theorem setSS_stiWindow (s : State) (r : SegRegister) : (s.setSS r).stiWindow = s.stiWindow := rfl
@[simp] theorem setSS_nmiPending (s : State) (r : SegRegister) : (s.setSS r).nmiPending = s.nmiPending := rfl
@[simp] theorem setSS_nmiHeld (s : State) (r : SegRegister) : (s.setSS r).nmiHeld = s.nmiHeld := rfl
@[simp] theorem setSS_taskTrap (s : State) (r : SegRegister) : (s.setSS r).taskTrap = s.taskTrap := rfl
@[simp] theorem setSS_shutdown (s : State) (r : SegRegister) : (s.setSS r).shutdown = s.shutdown := rfl
@[simp] theorem setSS_apic (s : State) (r : SegRegister) : (s.setSS r).apic = s.apic := rfl
@[simp] theorem setSS_params (s : State) (r : SegRegister) : (s.setSS r).params = s.params := rfl
@[simp] theorem setSS_env (s : State) (r : SegRegister) : (s.setSS r).env = s.env := rfl
@[simp] theorem setSS_deliveries (s : State) (r : SegRegister) : (s.setSS r).deliveries = s.deliveries := rfl
@[simp] theorem setSS_freeCount (s : State) (r : SegRegister) : (s.setSS r).freeCount = s.freeCount := rfl
@[simp] theorem setSS_mem (s : State) (r : SegRegister) : (s.setSS r).mem = s.mem := rfl

/-! ### setCS -/

@[simp] theorem setCS_regs (s : State) (r : SegRegister) : (s.setCS r).regs = s.regs := rfl
@[simp] theorem setCS_eip (s : State) (r : SegRegister) : (s.setCS r).eip = s.eip := rfl
@[simp] theorem setCS_eflags (s : State) (r : SegRegister) : (s.setCS r).eflags = s.eflags := rfl
@[simp] theorem setCS_sregs (s : State) (r : SegRegister) : (s.setCS r).sregs = { s.sregs with cs := r } := rfl
@[simp] theorem setCS_idtr (s : State) (r : SegRegister) : (s.setCS r).idtr = s.idtr := rfl
@[simp] theorem setCS_gdtr (s : State) (r : SegRegister) : (s.setCS r).gdtr = s.gdtr := rfl
@[simp] theorem setCS_ldtr (s : State) (r : SegRegister) : (s.setCS r).ldtr = s.ldtr := rfl
@[simp] theorem setCS_tr (s : State) (r : SegRegister) : (s.setCS r).tr = s.tr := rfl
@[simp] theorem setCS_mode (s : State) (r : SegRegister) : (s.setCS r).mode = s.mode := rfl
@[simp] theorem setCS_nmiBlocked (s : State) (r : SegRegister) : (s.setCS r).nmiBlocked = s.nmiBlocked := rfl
@[simp] theorem setCS_eventInhibit (s : State) (r : SegRegister) : (s.setCS r).eventInhibit = s.eventInhibit := rfl
@[simp] theorem setCS_stiWindow (s : State) (r : SegRegister) : (s.setCS r).stiWindow = s.stiWindow := rfl
@[simp] theorem setCS_nmiPending (s : State) (r : SegRegister) : (s.setCS r).nmiPending = s.nmiPending := rfl
@[simp] theorem setCS_nmiHeld (s : State) (r : SegRegister) : (s.setCS r).nmiHeld = s.nmiHeld := rfl
@[simp] theorem setCS_taskTrap (s : State) (r : SegRegister) : (s.setCS r).taskTrap = s.taskTrap := rfl
@[simp] theorem setCS_shutdown (s : State) (r : SegRegister) : (s.setCS r).shutdown = s.shutdown := rfl
@[simp] theorem setCS_apic (s : State) (r : SegRegister) : (s.setCS r).apic = s.apic := rfl
@[simp] theorem setCS_params (s : State) (r : SegRegister) : (s.setCS r).params = s.params := rfl
@[simp] theorem setCS_env (s : State) (r : SegRegister) : (s.setCS r).env = s.env := rfl
@[simp] theorem setCS_deliveries (s : State) (r : SegRegister) : (s.setCS r).deliveries = s.deliveries := rfl
@[simp] theorem setCS_freeCount (s : State) (r : SegRegister) : (s.setCS r).freeCount = s.freeCount := rfl
@[simp] theorem setCS_mem (s : State) (r : SegRegister) : (s.setCS r).mem = s.mem := rfl

/-! ### setEflags -/

@[simp] theorem setEflags_regs (s : State) (f : Word) : (s.setEflags f).regs = s.regs := rfl
@[simp] theorem setEflags_eip (s : State) (f : Word) : (s.setEflags f).eip = s.eip := rfl
@[simp] theorem setEflags_eflags (s : State) (f : Word) : (s.setEflags f).eflags = f := rfl
@[simp] theorem setEflags_sregs (s : State) (f : Word) : (s.setEflags f).sregs = s.sregs := rfl
@[simp] theorem setEflags_idtr (s : State) (f : Word) : (s.setEflags f).idtr = s.idtr := rfl
@[simp] theorem setEflags_gdtr (s : State) (f : Word) : (s.setEflags f).gdtr = s.gdtr := rfl
@[simp] theorem setEflags_ldtr (s : State) (f : Word) : (s.setEflags f).ldtr = s.ldtr := rfl
@[simp] theorem setEflags_tr (s : State) (f : Word) : (s.setEflags f).tr = s.tr := rfl
@[simp] theorem setEflags_mode (s : State) (f : Word) : (s.setEflags f).mode = s.mode := rfl
@[simp] theorem setEflags_nmiBlocked (s : State) (f : Word) : (s.setEflags f).nmiBlocked = s.nmiBlocked := rfl
@[simp] theorem setEflags_eventInhibit (s : State) (f : Word) : (s.setEflags f).eventInhibit = s.eventInhibit := rfl
@[simp] theorem setEflags_stiWindow (s : State) (f : Word) : (s.setEflags f).stiWindow = s.stiWindow := rfl
@[simp] theorem setEflags_nmiPending (s : State) (f : Word) : (s.setEflags f).nmiPending = s.nmiPending := rfl
@[simp] theorem setEflags_nmiHeld (s : State) (f : Word) : (s.setEflags f).nmiHeld = s.nmiHeld := rfl
@[simp] theorem setEflags_taskTrap (s : State) (f : Word) : (s.setEflags f).taskTrap = s.taskTrap := rfl
@[simp] theorem setEflags_shutdown (s : State) (f : Word) : (s.setEflags f).shutdown = s.shutdown := rfl
@[simp] theorem setEflags_apic (s : State) (f : Word) : (s.setEflags f).apic = s.apic := rfl
@[simp] theorem setEflags_params (s : State) (f : Word) : (s.setEflags f).params = s.params := rfl
@[simp] theorem setEflags_env (s : State) (f : Word) : (s.setEflags f).env = s.env := rfl
@[simp] theorem setEflags_deliveries (s : State) (f : Word) : (s.setEflags f).deliveries = s.deliveries := rfl
@[simp] theorem setEflags_freeCount (s : State) (f : Word) : (s.setEflags f).freeCount = s.freeCount := rfl
@[simp] theorem setEflags_mem (s : State) (f : Word) : (s.setEflags f).mem = s.mem := rfl

/-! ### setIdtr -/

@[simp] theorem setIdtr_regs (s : State) (l : Half) (b : Word) : (s.setIdtr l b).regs = s.regs := rfl
@[simp] theorem setIdtr_eip (s : State) (l : Half) (b : Word) : (s.setIdtr l b).eip = s.eip := rfl
@[simp] theorem setIdtr_eflags (s : State) (l : Half) (b : Word) : (s.setIdtr l b).eflags = s.eflags := rfl
@[simp] theorem setIdtr_sregs (s : State) (l : Half) (b : Word) : (s.setIdtr l b).sregs = s.sregs := rfl
@[simp] theorem setIdtr_idtr (s : State) (l : Half) (b : Word) : (s.setIdtr l b).idtr = ⟨b, l⟩ := rfl
@[simp] theorem setIdtr_gdtr (s : State) (l : Half) (b : Word) : (s.setIdtr l b).gdtr = s.gdtr := rfl
@[simp] theorem setIdtr_ldtr (s : State) (l : Half) (b : Word) : (s.setIdtr l b).ldtr = s.ldtr := rfl
@[simp] theorem setIdtr_tr (s : State) (l : Half) (b : Word) : (s.setIdtr l b).tr = s.tr := rfl
@[simp] theorem setIdtr_mode (s : State) (l : Half) (b : Word) : (s.setIdtr l b).mode = s.mode := rfl
@[simp] theorem setIdtr_nmiBlocked (s : State) (l : Half) (b : Word) : (s.setIdtr l b).nmiBlocked = s.nmiBlocked := rfl
@[simp] theorem setIdtr_eventInhibit (s : State) (l : Half) (b : Word) : (s.setIdtr l b).eventInhibit = s.eventInhibit := rfl
@[simp] theorem setIdtr_stiWindow (s : State) (l : Half) (b : Word) : (s.setIdtr l b).stiWindow = s.stiWindow := rfl
@[simp] theorem setIdtr_nmiPending (s : State) (l : Half) (b : Word) : (s.setIdtr l b).nmiPending = s.nmiPending := rfl
@[simp] theorem setIdtr_nmiHeld (s : State) (l : Half) (b : Word) : (s.setIdtr l b).nmiHeld = s.nmiHeld := rfl
@[simp] theorem setIdtr_taskTrap (s : State) (l : Half) (b : Word) : (s.setIdtr l b).taskTrap = s.taskTrap := rfl
@[simp] theorem setIdtr_shutdown (s : State) (l : Half) (b : Word) : (s.setIdtr l b).shutdown = s.shutdown := rfl
@[simp] theorem setIdtr_apic (s : State) (l : Half) (b : Word) : (s.setIdtr l b).apic = s.apic := rfl
@[simp] theorem setIdtr_params (s : State) (l : Half) (b : Word) : (s.setIdtr l b).params = s.params := rfl
@[simp] theorem setIdtr_env (s : State) (l : Half) (b : Word) : (s.setIdtr l b).env = s.env := rfl
@[simp] theorem setIdtr_deliveries (s : State) (l : Half) (b : Word) : (s.setIdtr l b).deliveries = s.deliveries := rfl
@[simp] theorem setIdtr_freeCount (s : State) (l : Half) (b : Word) : (s.setIdtr l b).freeCount = s.freeCount := rfl
@[simp] theorem setIdtr_mem (s : State) (l : Half) (b : Word) : (s.setIdtr l b).mem = s.mem := rfl

/-! ### setByte -/

@[simp] theorem setByte_regs (s : State) (a : Word) (b : Byte) : (s.setByte a b).regs = s.regs := rfl
@[simp] theorem setByte_eip (s : State) (a : Word) (b : Byte) : (s.setByte a b).eip = s.eip := rfl
@[simp] theorem setByte_eflags (s : State) (a : Word) (b : Byte) : (s.setByte a b).eflags = s.eflags := rfl
@[simp] theorem setByte_sregs (s : State) (a : Word) (b : Byte) : (s.setByte a b).sregs = s.sregs := rfl
@[simp] theorem setByte_idtr (s : State) (a : Word) (b : Byte) : (s.setByte a b).idtr = s.idtr := rfl
@[simp] theorem setByte_gdtr (s : State) (a : Word) (b : Byte) : (s.setByte a b).gdtr = s.gdtr := rfl
@[simp] theorem setByte_ldtr (s : State) (a : Word) (b : Byte) : (s.setByte a b).ldtr = s.ldtr := rfl
@[simp] theorem setByte_tr (s : State) (a : Word) (b : Byte) : (s.setByte a b).tr = s.tr := rfl
@[simp] theorem setByte_mode (s : State) (a : Word) (b : Byte) : (s.setByte a b).mode = s.mode := rfl
@[simp] theorem setByte_nmiBlocked (s : State) (a : Word) (b : Byte) : (s.setByte a b).nmiBlocked = s.nmiBlocked := rfl
@[simp] theorem setByte_eventInhibit (s : State) (a : Word) (b : Byte) : (s.setByte a b).eventInhibit = s.eventInhibit := rfl
@[simp] theorem setByte_stiWindow (s : State) (a : Word) (b : Byte) : (s.setByte a b).stiWindow = s.stiWindow := rfl
@[simp] theorem setByte_nmiPending (s : State) (a : Word) (b : Byte) : (s.setByte a b).nmiPending = s.nmiPending := rfl
@[simp] theorem setByte_nmiHeld (s : State) (a : Word) (b : Byte) : (s.setByte a b).nmiHeld = s.nmiHeld := rfl
@[simp] theorem setByte_taskTrap (s : State) (a : Word) (b : Byte) : (s.setByte a b).taskTrap = s.taskTrap := rfl
@[simp] theorem setByte_shutdown (s : State) (a : Word) (b : Byte) : (s.setByte a b).shutdown = s.shutdown := rfl
@[simp] theorem setByte_apic (s : State) (a : Word) (b : Byte) : (s.setByte a b).apic = s.apic := rfl
@[simp] theorem setByte_params (s : State) (a : Word) (b : Byte) : (s.setByte a b).params = s.params := rfl
@[simp] theorem setByte_env (s : State) (a : Word) (b : Byte) : (s.setByte a b).env = s.env := rfl
@[simp] theorem setByte_deliveries (s : State) (a : Word) (b : Byte) : (s.setByte a b).deliveries = s.deliveries := rfl
@[simp] theorem setByte_freeCount (s : State) (a : Word) (b : Byte) : (s.setByte a b).freeCount = s.freeCount := rfl
@[simp] theorem setByte_mem (s : State) (a : Word) (b : Byte) : (s.setByte a b).mem = writeByte s.mem a.toNat b := rfl

/-! ### write16 -/

@[simp] theorem write16_regs (s : State) (a : Word) (v : Half) : (s.write16 a v).regs = s.regs := rfl
@[simp] theorem write16_eip (s : State) (a : Word) (v : Half) : (s.write16 a v).eip = s.eip := rfl
@[simp] theorem write16_eflags (s : State) (a : Word) (v : Half) : (s.write16 a v).eflags = s.eflags := rfl
@[simp] theorem write16_sregs (s : State) (a : Word) (v : Half) : (s.write16 a v).sregs = s.sregs := rfl
@[simp] theorem write16_idtr (s : State) (a : Word) (v : Half) : (s.write16 a v).idtr = s.idtr := rfl
@[simp] theorem write16_gdtr (s : State) (a : Word) (v : Half) : (s.write16 a v).gdtr = s.gdtr := rfl
@[simp] theorem write16_ldtr (s : State) (a : Word) (v : Half) : (s.write16 a v).ldtr = s.ldtr := rfl
@[simp] theorem write16_tr (s : State) (a : Word) (v : Half) : (s.write16 a v).tr = s.tr := rfl
@[simp] theorem write16_mode (s : State) (a : Word) (v : Half) : (s.write16 a v).mode = s.mode := rfl
@[simp] theorem write16_nmiBlocked (s : State) (a : Word) (v : Half) : (s.write16 a v).nmiBlocked = s.nmiBlocked := rfl
@[simp] theorem write16_eventInhibit (s : State) (a : Word) (v : Half) : (s.write16 a v).eventInhibit = s.eventInhibit := rfl
@[simp] theorem write16_stiWindow (s : State) (a : Word) (v : Half) : (s.write16 a v).stiWindow = s.stiWindow := rfl
@[simp] theorem write16_nmiPending (s : State) (a : Word) (v : Half) : (s.write16 a v).nmiPending = s.nmiPending := rfl
@[simp] theorem write16_nmiHeld (s : State) (a : Word) (v : Half) : (s.write16 a v).nmiHeld = s.nmiHeld := rfl
@[simp] theorem write16_taskTrap (s : State) (a : Word) (v : Half) : (s.write16 a v).taskTrap = s.taskTrap := rfl
@[simp] theorem write16_shutdown (s : State) (a : Word) (v : Half) : (s.write16 a v).shutdown = s.shutdown := rfl
@[simp] theorem write16_apic (s : State) (a : Word) (v : Half) : (s.write16 a v).apic = s.apic := rfl
@[simp] theorem write16_mem (s : State) (a : Word) (v : Half) : (s.write16 a v).mem = store16 s.mem a v := rfl
@[simp] theorem write16_params (s : State) (a : Word) (v : Half) : (s.write16 a v).params = s.params := rfl
@[simp] theorem write16_env (s : State) (a : Word) (v : Half) : (s.write16 a v).env = s.env := rfl
@[simp] theorem write16_deliveries (s : State) (a : Word) (v : Half) : (s.write16 a v).deliveries = s.deliveries := rfl
@[simp] theorem write16_freeCount (s : State) (a : Word) (v : Half) : (s.write16 a v).freeCount = s.freeCount := rfl

/-! ### write32 -/

@[simp] theorem write32_regs (s : State) (a : Word) (v : Word) : (s.write32 a v).regs = s.regs := rfl
@[simp] theorem write32_eip (s : State) (a : Word) (v : Word) : (s.write32 a v).eip = s.eip := rfl
@[simp] theorem write32_eflags (s : State) (a : Word) (v : Word) : (s.write32 a v).eflags = s.eflags := rfl
@[simp] theorem write32_sregs (s : State) (a : Word) (v : Word) : (s.write32 a v).sregs = s.sregs := rfl
@[simp] theorem write32_idtr (s : State) (a : Word) (v : Word) : (s.write32 a v).idtr = s.idtr := rfl
@[simp] theorem write32_gdtr (s : State) (a : Word) (v : Word) : (s.write32 a v).gdtr = s.gdtr := rfl
@[simp] theorem write32_ldtr (s : State) (a : Word) (v : Word) : (s.write32 a v).ldtr = s.ldtr := rfl
@[simp] theorem write32_tr (s : State) (a : Word) (v : Word) : (s.write32 a v).tr = s.tr := rfl
@[simp] theorem write32_mode (s : State) (a : Word) (v : Word) : (s.write32 a v).mode = s.mode := rfl
@[simp] theorem write32_nmiBlocked (s : State) (a : Word) (v : Word) : (s.write32 a v).nmiBlocked = s.nmiBlocked := rfl
@[simp] theorem write32_eventInhibit (s : State) (a : Word) (v : Word) : (s.write32 a v).eventInhibit = s.eventInhibit := rfl
@[simp] theorem write32_stiWindow (s : State) (a : Word) (v : Word) : (s.write32 a v).stiWindow = s.stiWindow := rfl
@[simp] theorem write32_nmiPending (s : State) (a : Word) (v : Word) : (s.write32 a v).nmiPending = s.nmiPending := rfl
@[simp] theorem write32_nmiHeld (s : State) (a : Word) (v : Word) : (s.write32 a v).nmiHeld = s.nmiHeld := rfl
@[simp] theorem write32_taskTrap (s : State) (a : Word) (v : Word) : (s.write32 a v).taskTrap = s.taskTrap := rfl
@[simp] theorem write32_shutdown (s : State) (a : Word) (v : Word) : (s.write32 a v).shutdown = s.shutdown := rfl
@[simp] theorem write32_apic (s : State) (a : Word) (v : Word) : (s.write32 a v).apic = s.apic := rfl
@[simp] theorem write32_mem (s : State) (a : Word) (v : Word) : (s.write32 a v).mem = store32 s.mem a v := rfl
@[simp] theorem write32_params (s : State) (a : Word) (v : Word) : (s.write32 a v).params = s.params := rfl
@[simp] theorem write32_env (s : State) (a : Word) (v : Word) : (s.write32 a v).env = s.env := rfl
@[simp] theorem write32_deliveries (s : State) (a : Word) (v : Word) : (s.write32 a v).deliveries = s.deliveries := rfl
@[simp] theorem write32_freeCount (s : State) (a : Word) (v : Word) : (s.write32 a v).freeCount = s.freeCount := rfl

/-! ### setTr -/

@[simp] theorem setTr_regs (s : State) (r : SegRegister) : (s.setTr r).regs = s.regs := rfl
@[simp] theorem setTr_eip (s : State) (r : SegRegister) : (s.setTr r).eip = s.eip := rfl
@[simp] theorem setTr_eflags (s : State) (r : SegRegister) : (s.setTr r).eflags = s.eflags := rfl
@[simp] theorem setTr_sregs (s : State) (r : SegRegister) : (s.setTr r).sregs = s.sregs := rfl
@[simp] theorem setTr_idtr (s : State) (r : SegRegister) : (s.setTr r).idtr = s.idtr := rfl
@[simp] theorem setTr_gdtr (s : State) (r : SegRegister) : (s.setTr r).gdtr = s.gdtr := rfl
@[simp] theorem setTr_ldtr (s : State) (r : SegRegister) : (s.setTr r).ldtr = s.ldtr := rfl
@[simp] theorem setTr_tr (s : State) (r : SegRegister) : (s.setTr r).tr = r := rfl
@[simp] theorem setTr_mode (s : State) (r : SegRegister) : (s.setTr r).mode = s.mode := rfl
@[simp] theorem setTr_nmiBlocked (s : State) (r : SegRegister) : (s.setTr r).nmiBlocked = s.nmiBlocked := rfl
@[simp] theorem setTr_eventInhibit (s : State) (r : SegRegister) : (s.setTr r).eventInhibit = s.eventInhibit := rfl
@[simp] theorem setTr_stiWindow (s : State) (r : SegRegister) : (s.setTr r).stiWindow = s.stiWindow := rfl
@[simp] theorem setTr_nmiPending (s : State) (r : SegRegister) : (s.setTr r).nmiPending = s.nmiPending := rfl
@[simp] theorem setTr_nmiHeld (s : State) (r : SegRegister) : (s.setTr r).nmiHeld = s.nmiHeld := rfl
@[simp] theorem setTr_taskTrap (s : State) (r : SegRegister) : (s.setTr r).taskTrap = s.taskTrap := rfl
@[simp] theorem setTr_shutdown (s : State) (r : SegRegister) : (s.setTr r).shutdown = s.shutdown := rfl
@[simp] theorem setTr_apic (s : State) (r : SegRegister) : (s.setTr r).apic = s.apic := rfl
@[simp] theorem setTr_params (s : State) (r : SegRegister) : (s.setTr r).params = s.params := rfl
@[simp] theorem setTr_env (s : State) (r : SegRegister) : (s.setTr r).env = s.env := rfl
@[simp] theorem setTr_deliveries (s : State) (r : SegRegister) : (s.setTr r).deliveries = s.deliveries := rfl
@[simp] theorem setTr_freeCount (s : State) (r : SegRegister) : (s.setTr r).freeCount = s.freeCount := rfl
@[simp] theorem setTr_mem (s : State) (r : SegRegister) : (s.setTr r).mem = s.mem := rfl

/-! ### setLdtr -/

@[simp] theorem setLdtr_regs (s : State) (r : SegRegister) : (s.setLdtr r).regs = s.regs := rfl
@[simp] theorem setLdtr_eip (s : State) (r : SegRegister) : (s.setLdtr r).eip = s.eip := rfl
@[simp] theorem setLdtr_eflags (s : State) (r : SegRegister) : (s.setLdtr r).eflags = s.eflags := rfl
@[simp] theorem setLdtr_sregs (s : State) (r : SegRegister) : (s.setLdtr r).sregs = s.sregs := rfl
@[simp] theorem setLdtr_idtr (s : State) (r : SegRegister) : (s.setLdtr r).idtr = s.idtr := rfl
@[simp] theorem setLdtr_gdtr (s : State) (r : SegRegister) : (s.setLdtr r).gdtr = s.gdtr := rfl
@[simp] theorem setLdtr_ldtr (s : State) (r : SegRegister) : (s.setLdtr r).ldtr = r := rfl
@[simp] theorem setLdtr_tr (s : State) (r : SegRegister) : (s.setLdtr r).tr = s.tr := rfl
@[simp] theorem setLdtr_mode (s : State) (r : SegRegister) : (s.setLdtr r).mode = s.mode := rfl
@[simp] theorem setLdtr_nmiBlocked (s : State) (r : SegRegister) : (s.setLdtr r).nmiBlocked = s.nmiBlocked := rfl
@[simp] theorem setLdtr_eventInhibit (s : State) (r : SegRegister) : (s.setLdtr r).eventInhibit = s.eventInhibit := rfl
@[simp] theorem setLdtr_stiWindow (s : State) (r : SegRegister) : (s.setLdtr r).stiWindow = s.stiWindow := rfl
@[simp] theorem setLdtr_nmiPending (s : State) (r : SegRegister) : (s.setLdtr r).nmiPending = s.nmiPending := rfl
@[simp] theorem setLdtr_nmiHeld (s : State) (r : SegRegister) : (s.setLdtr r).nmiHeld = s.nmiHeld := rfl
@[simp] theorem setLdtr_taskTrap (s : State) (r : SegRegister) : (s.setLdtr r).taskTrap = s.taskTrap := rfl
@[simp] theorem setLdtr_shutdown (s : State) (r : SegRegister) : (s.setLdtr r).shutdown = s.shutdown := rfl
@[simp] theorem setLdtr_apic (s : State) (r : SegRegister) : (s.setLdtr r).apic = s.apic := rfl
@[simp] theorem setLdtr_params (s : State) (r : SegRegister) : (s.setLdtr r).params = s.params := rfl
@[simp] theorem setLdtr_env (s : State) (r : SegRegister) : (s.setLdtr r).env = s.env := rfl
@[simp] theorem setLdtr_deliveries (s : State) (r : SegRegister) : (s.setLdtr r).deliveries = s.deliveries := rfl
@[simp] theorem setLdtr_freeCount (s : State) (r : SegRegister) : (s.setLdtr r).freeCount = s.freeCount := rfl
@[simp] theorem setLdtr_mem (s : State) (r : SegRegister) : (s.setLdtr r).mem = s.mem := rfl

/-! ### settle -/

@[simp] theorem settle_regs (s : State) : (s.settle).regs = s.regs := rfl
@[simp] theorem settle_eip (s : State) : (s.settle).eip = s.eip := rfl
@[simp] theorem settle_eflags (s : State) : (s.settle).eflags = s.eflags := rfl
@[simp] theorem settle_sregs (s : State) : (s.settle).sregs = s.sregs := rfl
@[simp] theorem settle_idtr (s : State) : (s.settle).idtr = s.idtr := rfl
@[simp] theorem settle_gdtr (s : State) : (s.settle).gdtr = s.gdtr := rfl
@[simp] theorem settle_ldtr (s : State) : (s.settle).ldtr = s.ldtr := rfl
@[simp] theorem settle_tr (s : State) : (s.settle).tr = s.tr := rfl
@[simp] theorem settle_mode (s : State) : (s.settle).mode = s.mode := rfl
@[simp] theorem settle_nmiBlocked (s : State) : (s.settle).nmiBlocked = s.nmiBlocked := rfl
@[simp] theorem settle_eventInhibit (s : State) : (s.settle).eventInhibit = false := rfl
@[simp] theorem settle_stiWindow (s : State) : (s.settle).stiWindow = false := rfl
@[simp] theorem settle_nmiPending (s : State) : (s.settle).nmiPending = s.nmiPending := rfl
@[simp] theorem settle_nmiHeld (s : State) : (s.settle).nmiHeld = s.nmiHeld := rfl
@[simp] theorem settle_taskTrap (s : State) : (s.settle).taskTrap = s.taskTrap := rfl
@[simp] theorem settle_shutdown (s : State) : (s.settle).shutdown = s.shutdown := rfl
@[simp] theorem settle_apic (s : State) : (s.settle).apic = s.apic := rfl
@[simp] theorem settle_params (s : State) : (s.settle).params = s.params := rfl
@[simp] theorem settle_env (s : State) : (s.settle).env = s.env := rfl
@[simp] theorem settle_deliveries (s : State) : (s.settle).deliveries = s.deliveries := rfl
@[simp] theorem settle_freeCount (s : State) : (s.settle).freeCount = s.freeCount := rfl
@[simp] theorem settle_mem (s : State) : (s.settle).mem = s.mem := rfl

/-! ### retire -/

@[simp] theorem retire_regs (s : State) (i : Instr) : (s.retire i).regs = s.regs := rfl
@[simp] theorem retire_eip (s : State) (i : Instr) : (s.retire i).eip = eipNext s i := rfl
@[simp] theorem retire_eflags (s : State) (i : Instr) : (s.retire i).eflags = s.eflags := rfl
@[simp] theorem retire_sregs (s : State) (i : Instr) : (s.retire i).sregs = s.sregs := rfl
@[simp] theorem retire_idtr (s : State) (i : Instr) : (s.retire i).idtr = s.idtr := rfl
@[simp] theorem retire_gdtr (s : State) (i : Instr) : (s.retire i).gdtr = s.gdtr := rfl
@[simp] theorem retire_ldtr (s : State) (i : Instr) : (s.retire i).ldtr = s.ldtr := rfl
@[simp] theorem retire_tr (s : State) (i : Instr) : (s.retire i).tr = s.tr := rfl
@[simp] theorem retire_mode (s : State) (i : Instr) : (s.retire i).mode = s.mode := rfl
@[simp] theorem retire_nmiBlocked (s : State) (i : Instr) : (s.retire i).nmiBlocked = s.nmiBlocked := rfl
@[simp] theorem retire_eventInhibit (s : State) (i : Instr) : (s.retire i).eventInhibit = false := rfl
@[simp] theorem retire_stiWindow (s : State) (i : Instr) : (s.retire i).stiWindow = false := rfl
@[simp] theorem retire_nmiPending (s : State) (i : Instr) : (s.retire i).nmiPending = s.nmiPending := rfl
@[simp] theorem retire_nmiHeld (s : State) (i : Instr) : (s.retire i).nmiHeld = s.nmiHeld := rfl
@[simp] theorem retire_taskTrap (s : State) (i : Instr) : (s.retire i).taskTrap = s.taskTrap := rfl
@[simp] theorem retire_shutdown (s : State) (i : Instr) : (s.retire i).shutdown = s.shutdown := rfl
@[simp] theorem retire_apic (s : State) (i : Instr) : (s.retire i).apic = s.apic := rfl
@[simp] theorem retire_params (s : State) (i : Instr) : (s.retire i).params = s.params := rfl
@[simp] theorem retire_env (s : State) (i : Instr) : (s.retire i).env = s.env := rfl
@[simp] theorem retire_deliveries (s : State) (i : Instr) : (s.retire i).deliveries = s.deliveries := rfl
@[simp] theorem retire_freeCount (s : State) (i : Instr) : (s.retire i).freeCount = s.freeCount := rfl
@[simp] theorem retire_mem (s : State) (i : Instr) : (s.retire i).mem = s.mem := rfl

/-! ### endDelivery -/

@[simp] theorem endDelivery_regs (s : State) (k : EventKind) : (endDelivery s k).regs = s.regs := rfl
@[simp] theorem endDelivery_eip (s : State) (k : EventKind) : (endDelivery s k).eip = s.eip := rfl
@[simp] theorem endDelivery_eflags (s : State) (k : EventKind) : (endDelivery s k).eflags = s.eflags := rfl
@[simp] theorem endDelivery_sregs (s : State) (k : EventKind) : (endDelivery s k).sregs = s.sregs := rfl
@[simp] theorem endDelivery_idtr (s : State) (k : EventKind) : (endDelivery s k).idtr = s.idtr := rfl
@[simp] theorem endDelivery_gdtr (s : State) (k : EventKind) : (endDelivery s k).gdtr = s.gdtr := rfl
@[simp] theorem endDelivery_ldtr (s : State) (k : EventKind) : (endDelivery s k).ldtr = s.ldtr := rfl
@[simp] theorem endDelivery_tr (s : State) (k : EventKind) : (endDelivery s k).tr = s.tr := rfl
@[simp] theorem endDelivery_mode (s : State) (k : EventKind) : (endDelivery s k).mode = s.mode := rfl
@[simp] theorem endDelivery_nmiBlocked (s : State) (k : EventKind) : (endDelivery s k).nmiBlocked = (s.nmiBlocked || k == .nmi) := rfl
@[simp] theorem endDelivery_eventInhibit (s : State) (k : EventKind) : (endDelivery s k).eventInhibit = false := rfl
@[simp] theorem endDelivery_stiWindow (s : State) (k : EventKind) : (endDelivery s k).stiWindow = false := rfl
@[simp] theorem endDelivery_nmiPending (s : State) (k : EventKind) : (endDelivery s k).nmiPending = s.nmiPending := rfl
@[simp] theorem endDelivery_nmiHeld (s : State) (k : EventKind) : (endDelivery s k).nmiHeld = s.nmiHeld := rfl
@[simp] theorem endDelivery_taskTrap (s : State) (k : EventKind) : (endDelivery s k).taskTrap = s.taskTrap := rfl
@[simp] theorem endDelivery_shutdown (s : State) (k : EventKind) : (endDelivery s k).shutdown = s.shutdown := rfl
@[simp] theorem endDelivery_apic (s : State) (k : EventKind) : (endDelivery s k).apic = s.apic := rfl
@[simp] theorem endDelivery_params (s : State) (k : EventKind) : (endDelivery s k).params = s.params := rfl
@[simp] theorem endDelivery_env (s : State) (k : EventKind) : (endDelivery s k).env = s.env := rfl
@[simp] theorem endDelivery_deliveries (s : State) (k : EventKind) : (endDelivery s k).deliveries = s.deliveries + 1 := rfl
@[simp] theorem endDelivery_freeCount (s : State) (k : EventKind) : (endDelivery s k).freeCount = s.freeCount := rfl
@[simp] theorem endDelivery_mem (s : State) (k : EventKind) : (endDelivery s k).mem = s.mem := rfl

/-! ### enterHandler -/

@[simp] theorem enterHandler_regs (s : State) (g : Gate) (d : SegDescriptor) (l : BitVec 2) : (enterHandler s g d l).regs = s.regs := rfl
@[simp] theorem enterHandler_eip (s : State) (g : Gate) (d : SegDescriptor) (l : BitVec 2) : (enterHandler s g d l).eip = g.offset := rfl
@[simp] theorem enterHandler_eflags (s : State) (g : Gate) (d : SegDescriptor) (l : BitVec 2) : (enterHandler s g d l).eflags = handlerFlags s.eflags (g.kind == .interrupt) := rfl
@[simp] theorem enterHandler_sregs (s : State) (g : Gate) (d : SegDescriptor) (l : BitVec 2) : (enterHandler s g d l).sregs = { s.sregs with cs := ⟨selWithRpl g.sel l, d⟩ } := rfl
@[simp] theorem enterHandler_idtr (s : State) (g : Gate) (d : SegDescriptor) (l : BitVec 2) : (enterHandler s g d l).idtr = s.idtr := rfl
@[simp] theorem enterHandler_gdtr (s : State) (g : Gate) (d : SegDescriptor) (l : BitVec 2) : (enterHandler s g d l).gdtr = s.gdtr := rfl
@[simp] theorem enterHandler_ldtr (s : State) (g : Gate) (d : SegDescriptor) (l : BitVec 2) : (enterHandler s g d l).ldtr = s.ldtr := rfl
@[simp] theorem enterHandler_tr (s : State) (g : Gate) (d : SegDescriptor) (l : BitVec 2) : (enterHandler s g d l).tr = s.tr := rfl
@[simp] theorem enterHandler_mode (s : State) (g : Gate) (d : SegDescriptor) (l : BitVec 2) : (enterHandler s g d l).mode = s.mode := rfl
@[simp] theorem enterHandler_nmiBlocked (s : State) (g : Gate) (d : SegDescriptor) (l : BitVec 2) : (enterHandler s g d l).nmiBlocked = s.nmiBlocked := rfl
@[simp] theorem enterHandler_eventInhibit (s : State) (g : Gate) (d : SegDescriptor) (l : BitVec 2) : (enterHandler s g d l).eventInhibit = s.eventInhibit := rfl
@[simp] theorem enterHandler_stiWindow (s : State) (g : Gate) (d : SegDescriptor) (l : BitVec 2) : (enterHandler s g d l).stiWindow = s.stiWindow := rfl
@[simp] theorem enterHandler_nmiPending (s : State) (g : Gate) (d : SegDescriptor) (l : BitVec 2) : (enterHandler s g d l).nmiPending = s.nmiPending := rfl
@[simp] theorem enterHandler_nmiHeld (s : State) (g : Gate) (d : SegDescriptor) (l : BitVec 2) : (enterHandler s g d l).nmiHeld = s.nmiHeld := rfl
@[simp] theorem enterHandler_taskTrap (s : State) (g : Gate) (d : SegDescriptor) (l : BitVec 2) : (enterHandler s g d l).taskTrap = s.taskTrap := rfl
@[simp] theorem enterHandler_shutdown (s : State) (g : Gate) (d : SegDescriptor) (l : BitVec 2) : (enterHandler s g d l).shutdown = s.shutdown := rfl
@[simp] theorem enterHandler_apic (s : State) (g : Gate) (d : SegDescriptor) (l : BitVec 2) : (enterHandler s g d l).apic = s.apic := rfl
@[simp] theorem enterHandler_params (s : State) (g : Gate) (d : SegDescriptor) (l : BitVec 2) : (enterHandler s g d l).params = s.params := rfl
@[simp] theorem enterHandler_env (s : State) (g : Gate) (d : SegDescriptor) (l : BitVec 2) : (enterHandler s g d l).env = s.env := rfl
@[simp] theorem enterHandler_deliveries (s : State) (g : Gate) (d : SegDescriptor) (l : BitVec 2) : (enterHandler s g d l).deliveries = s.deliveries := rfl
@[simp] theorem enterHandler_freeCount (s : State) (g : Gate) (d : SegDescriptor) (l : BitVec 2) : (enterHandler s g d l).freeCount = s.freeCount := rfl
@[simp] theorem enterHandler_mem (s : State) (g : Gate) (d : SegDescriptor) (l : BitVec 2) : (enterHandler s g d l).mem = s.mem := rfl

/-! ### received -/

@[simp] theorem received_regs (s : State) : s.received.regs = s.regs := rfl
@[simp] theorem received_eip (s : State) : s.received.eip = s.eip := rfl
@[simp] theorem received_eflags (s : State) : s.received.eflags = s.eflags := rfl
@[simp] theorem received_sregs (s : State) : s.received.sregs = s.sregs := rfl
@[simp] theorem received_idtr (s : State) : s.received.idtr = s.idtr := rfl
@[simp] theorem received_gdtr (s : State) : s.received.gdtr = s.gdtr := rfl
@[simp] theorem received_ldtr (s : State) : s.received.ldtr = s.ldtr := rfl
@[simp] theorem received_tr (s : State) : s.received.tr = s.tr := rfl
@[simp] theorem received_mode (s : State) : s.received.mode = s.mode := rfl
@[simp] theorem received_nmiBlocked (s : State) : s.received.nmiBlocked = s.nmiBlocked := rfl
@[simp] theorem received_eventInhibit (s : State) : s.received.eventInhibit = s.eventInhibit := rfl
@[simp] theorem received_stiWindow (s : State) : s.received.stiWindow = s.stiWindow := rfl
@[simp] theorem received_nmiPending (s : State) : s.received.nmiPending = nmisRemembered s s.input := rfl
@[simp] theorem received_nmiHeld (s : State) : s.received.nmiHeld = nmisHeld s s.input := rfl
@[simp] theorem received_taskTrap (s : State) : s.received.taskTrap = false := rfl
@[simp] theorem received_shutdown (s : State) : s.received.shutdown = s.shutdown := rfl
@[simp] theorem received_params (s : State) : s.received.params = s.params := rfl
@[simp] theorem received_env (s : State) : s.received.env = s.env.tail := rfl
@[simp] theorem received_deliveries (s : State) : s.received.deliveries = s.deliveries := rfl
@[simp] theorem received_freeCount (s : State) : s.received.freeCount = s.freeCount := rfl
@[simp] theorem received_mem (s : State) : s.received.mem = s.mem := rfl

@[simp] theorem received_availability (s : State) :
    s.received.apic.availability = s.apic.availability := rfl
@[simp] theorem received_lint0 (s : State) : s.received.apic.lint0 = s.apic.lint0 := rfl
@[simp] theorem received_lint1 (s : State) : s.received.apic.lint1 = s.apic.lint1 := rfl
@[simp] theorem received_illegalVector (s : State) : s.received.apic.illegalVector =
    (s.apic.illegalVector || (apicVectors s s.input).any fun v => !apicLegal v) := rfl

/-! ### Segment registers loaded -/

@[simp] theorem loadedSegment_sel (s : State) (sel : Half) : (s.loadedSegment sel).sel = sel := by
  unfold State.loadedSegment; split <;> rfl

end Sys2Proof.Machine
end

