-- ==== Sys2Proof/Laws/Memory.lean ====
section
/-! SUPPORT. Memory: a read after a write, and the canonical form every write keeps. -/

namespace Sys2Proof.Machine

/-! ### Lists of cells -/

theorem readByte_eraseByte (m : Memory) (k j : Nat) :
    readByte (eraseByte m k) j = if j = k then unlistedByte else readByte m j := by
  induction m with
  | nil => simp [eraseByte, readByte]
  | cons c m ih =>
    by_cases h : c.1 = k
    · rw [eraseByte, if_pos h, ih, readByte]
      by_cases hj : j = k
      · simp [hj]
      · simp [hj, h, Ne.symm hj]
    · rw [eraseByte, if_neg h, readByte, readByte, ih]
      by_cases hj : c.1 = j
      · rw [if_pos hj, if_neg (fun e => h (hj.trans e)), if_pos hj]
      · rw [if_neg hj, if_neg hj]

theorem readByte_insertByte (m : Memory) (k j : Nat) (b : Byte) (hm : ∀ c ∈ m, c.1 ≠ k) :
    readByte (insertByte m k b) j = if j = k then b else readByte m j := by
  induction m with
  | nil => by_cases hj : k = j <;> simp [insertByte, readByte, hj, eq_comm]
  | cons c m ih =>
    have hc : c.1 ≠ k := hm c (by simp)
    by_cases hlt : k < c.1
    · rw [insertByte, if_pos hlt, readByte]
      by_cases hj : k = j
      · rw [if_pos hj, if_pos hj.symm]
      · rw [if_neg hj, if_neg (Ne.symm hj)]
    · rw [insertByte, if_neg hlt, readByte, readByte, ih fun c h => hm c (by simp [h])]
      by_cases hj : c.1 = j
      · rw [if_pos hj, if_neg (fun e => hc (hj.trans e)), if_pos hj]
      · rw [if_neg hj, if_neg hj]

theorem not_mem_eraseByte (m : Memory) (k : Nat) : ∀ c ∈ eraseByte m k, c.1 ≠ k := by
  induction m with
  | nil => simp [eraseByte]
  | cons c m ih =>
    by_cases h : c.1 = k
    · simpa [eraseByte, h] using ih
    · simpa [eraseByte, h] using ih

/-- A byte read after a write is the byte written, or the byte that was there. -/
theorem readByte_writeByte (m : Memory) (k j : Nat) (b : Byte) :
    readByte (writeByte m k b) j = if j = k then b else readByte m j := by
  unfold writeByte
  split
  · next h => rw [readByte_eraseByte, h]
  · rw [readByte_insertByte _ _ _ _ (not_mem_eraseByte m k)]
    by_cases hj : j = k <;> simp [hj, readByte_eraseByte]

/-! ### The canonical form -/

theorem wfFrom_mono (m : Memory) {lo lo' : Nat} (h : lo' ≤ lo) (hm : wfFrom lo m = true) :
    wfFrom lo' m = true := by
  cases m with
  | nil => rfl
  | cons c m =>
    simp only [wfFrom, Bool.and_eq_true, decide_eq_true_eq] at hm ⊢
    exact ⟨⟨⟨by omega, hm.1.1.2⟩, hm.1.2⟩, hm.2⟩

theorem wfFrom_eraseByte (m : Memory) (k lo : Nat) (hm : wfFrom lo m = true) :
    wfFrom lo (eraseByte m k) = true := by
  induction m generalizing lo with
  | nil => rfl
  | cons c m ih =>
    simp only [wfFrom, Bool.and_eq_true, decide_eq_true_eq] at hm
    by_cases h : c.1 = k
    · rw [eraseByte, if_pos h]
      exact wfFrom_mono _ (by omega) (ih _ hm.2)
    · rw [eraseByte, if_neg h]
      simp only [wfFrom, Bool.and_eq_true, decide_eq_true_eq]
      exact ⟨hm.1, ih _ hm.2⟩

theorem wfFrom_insertByte (m : Memory) (k lo : Nat) (b : Byte) (hlo : lo ≤ k) (hk : k < 2 ^ 32)
    (hb : b ≠ unlistedByte) (hm : wfFrom lo m = true) (hne : ∀ c ∈ m, c.1 ≠ k) :
    wfFrom lo (insertByte m k b) = true := by
  induction m generalizing lo with
  | nil =>
    simp only [insertByte, wfFrom, Bool.and_eq_true, decide_eq_true_eq]
    exact ⟨⟨⟨hlo, hk⟩, hb⟩, trivial⟩
  | cons c m ih =>
    simp only [wfFrom, Bool.and_eq_true, decide_eq_true_eq] at hm
    have hc : c.1 ≠ k := hne c (by simp)
    by_cases h : k < c.1
    · rw [insertByte, if_pos h]
      simp only [wfFrom, Bool.and_eq_true, decide_eq_true_eq]
      exact ⟨⟨⟨hlo, hk⟩, hb⟩, ⟨⟨by omega, hm.1.1.2⟩, hm.1.2⟩, hm.2⟩
    · rw [insertByte, if_neg h]
      simp only [wfFrom, Bool.and_eq_true, decide_eq_true_eq]
      exact ⟨hm.1, ih _ (by omega) hm.2 fun c hcm => hne c (by simp [hcm])⟩

/-- A write keeps the canonical form. -/
theorem writeByte_wf (m : Memory) (k : Nat) (b : Byte) (hk : k < 2 ^ 32) (hm : m.wf = true) :
    (writeByte m k b).wf = true := by
  unfold writeByte
  split
  · exact wfFrom_eraseByte m k 0 hm
  · next h =>
    exact wfFrom_insertByte _ k 0 b (Nat.zero_le _) hk h (wfFrom_eraseByte m k 0 hm)
      (not_mem_eraseByte m k)

/-- At reset memory is in its canonical form. -/
theorem reset_mem_wf : State.reset.mem.wf = true := rfl

/-! ### Of a state -/

theorem byteAt_setByte (s : State) (a x : Word) (b : Byte) :
    (s.setByte a b).byteAt x = if x = a then b else s.byteAt x := by
  simp [State.byteAt, readByte_writeByte, BitVec.toNat_inj]

theorem setByte_wf (s : State) (a : Word) (b : Byte) (h : s.mem.wf = true) :
    (s.setByte a b).mem.wf = true := writeByte_wf _ _ _ a.isLt h

theorem store16_wf (m : Memory) (a : Word) (v : Half) (h : m.wf = true) : (store16 m a v).wf = true :=
  writeByte_wf _ _ _ (a + 1).isLt (writeByte_wf _ _ _ a.isLt h)

theorem store32_wf (m : Memory) (a : Word) (v : Word) (h : m.wf = true) : (store32 m a v).wf = true :=
  writeByte_wf _ _ _ (a + 3).isLt (writeByte_wf _ _ _ (a + 2).isLt (store16_wf m a _ h))

theorem write16_wf (s : State) (a : Word) (v : Half) (h : s.mem.wf = true) :
    (s.write16 a v).mem.wf = true := store16_wf _ _ _ h

theorem write32_wf (s : State) (a : Word) (v : Word) (h : s.mem.wf = true) :
    (s.write32 a v).mem.wf = true := store32_wf _ _ _ h

theorem writeBytes_wf (s : State) (a : Word) (bs : List Byte) (h : s.mem.wf = true) :
    (s.writeBytes a bs).mem.wf = true := by
  induction bs generalizing s a with
  | nil => exact h
  | cons b bs ih => exact ih _ _ (setByte_wf _ _ _ h)

/-- The bytes of the low half are the two low bytes. -/
theorem extract_low_half (v : Word) :
    (v.extractLsb' 0 16).extractLsb' 0 8 = v.extractLsb' 0 8 ∧
      (v.extractLsb' 0 16).extractLsb' 8 8 = v.extractLsb' 8 8 := by
  constructor <;> ext i hi <;> simp

/-- The bytes a two-byte store leaves. -/
theorem byteAt_write16 (s : State) (a x : Word) (v : Half) :
    (s.write16 a v).byteAt x =
      if x = a + 1 then v.extractLsb' 8 8 else if x = a then v.extractLsb' 0 8 else s.byteAt x := by
  simp only [State.byteAt, State.write16, store16, readByte_writeByte, BitVec.toNat_inj]

/-- The bytes a four-byte store leaves. -/
theorem byteAt_write32 (s : State) (a x : Word) (v : Word) :
    (s.write32 a v).byteAt x =
      if x = a + 3 then v.extractLsb' 24 8
      else if x = a + 2 then v.extractLsb' 16 8
      else if x = a + 1 then v.extractLsb' 8 8
      else if x = a then v.extractLsb' 0 8
      else s.byteAt x := by
  simp only [State.byteAt, State.write32, store32, store16, readByte_writeByte, BitVec.toNat_inj,
    extract_low_half]

/-- A two-byte store leaves every other byte. -/
theorem byteAt_write16_outside (s : State) (a x : Word) (v : Half) (h : 2 ≤ (x - a).toNat) :
    (s.write16 a v).byteAt x = s.byteAt x := by
  have h0 : x ≠ a := by rintro rfl; simp at h
  have h1 : x ≠ a + 1 := by rintro rfl; rw [show a + 1 - a = 1#32 by bv_omega] at h; simp at h
  rw [byteAt_write16, if_neg h1, if_neg h0]

/-- A four-byte store leaves every other byte. -/
theorem byteAt_write32_outside (s : State) (a x : Word) (v : Word) (h : 4 ≤ (x - a).toNat) :
    (s.write32 a v).byteAt x = s.byteAt x := by
  have h0 : x ≠ a := by rintro rfl; simp at h
  have h1 : x ≠ a + 1 := by rintro rfl; rw [show a + 1 - a = 1#32 by bv_omega] at h; simp at h
  have h2 : x ≠ a + 2 := by rintro rfl; rw [show a + 2 - a = 2#32 by bv_omega] at h; simp at h
  have h3 : x ≠ a + 3 := by rintro rfl; rw [show a + 3 - a = 3#32 by bv_omega] at h; simp at h
  rw [byteAt_write32, if_neg h3, if_neg h2, if_neg h1, if_neg h0]

/-- A doubleword is its four bytes put together again. -/
theorem word32_extract (v : Word) :
    word32 (v.extractLsb' 0 8) (v.extractLsb' 8 8) (v.extractLsb' 16 8) (v.extractLsb' 24 8) = v := by
  refine BitVec.eq_of_getLsbD_eq fun i hi => ?_
  simp only [word32, BitVec.getLsbD_append, BitVec.getLsbD_extractLsb']
  rcases lt_or_ge i 8 with h | h
  · simp [h]
  rcases lt_or_ge i 16 with h' | h'
  · simp [show ¬ i < 8 by omega, show i - 8 < 8 by omega, show 8 + (i - 8) = i by omega]
  rcases lt_or_ge i 24 with h'' | h''
  · simp [show ¬ i < 8 by omega, show ¬ i - 8 < 8 by omega, show i - 8 - 8 < 8 by omega,
      show 16 + (i - 8 - 8) = i by omega]
  · simp [show ¬ i < 8 by omega, show ¬ i - 8 < 8 by omega, show ¬ i - 8 - 8 < 8 by omega,
      show i - 8 - 8 - 8 < 8 by omega, show 24 + (i - 8 - 8 - 8) = i by omega]

/-- A word is its two bytes put together again. -/
theorem half_extract (v : Half) :
    (v.extractLsb' 8 8 ++ v.extractLsb' 0 8 : BitVec (8 + 8)) = v := by
  refine BitVec.eq_of_getLsbD_eq fun i hi => ?_
  simp only [BitVec.getLsbD_append, BitVec.getLsbD_extractLsb']
  rcases lt_or_ge i 8 with h | h
  · simp [h]
  · simp [show ¬ i < 8 by omega, show i - 8 < 8 by omega, show 8 + (i - 8) = i by omega]

/-- A doubleword read where it was stored. -/
theorem read32_write32 (s : State) (a v : Word) : (s.write32 a v).read32 a = v := by
  have e01 : a ≠ a + 1 := by bv_omega
  have e02 : a ≠ a + 2 := by bv_omega
  have e03 : a ≠ a + 3 := by bv_omega
  have e12 : a + 1 ≠ a + 2 := by bv_omega
  have e13 : a + 1 ≠ a + 3 := by bv_omega
  have e23 : a + 2 ≠ a + 3 := by bv_omega
  have f1 : a + 1 ≠ a := by bv_omega
  have f2 : a + 2 ≠ a + 1 := by bv_omega
  simp only [State.read32, byteAt_write32, e01, e02, e03, e12, e13, e23, if_true, if_false]
  exact word32_extract v

/-- A word read where it was stored. -/
theorem read16_write16 (s : State) (a : Word) (v : Half) : (s.write16 a v).read16 a = v := by
  have e01 : a ≠ a + 1 := by bv_omega
  simp only [State.read16, byteAt_write16, e01, if_true, if_false]
  exact half_extract v

/-- A store of four bytes leaves a doubleword that lies outside them. -/
theorem read32_write32_outside (s : State) (a b v : Word) (h : 4 ≤ (b - a).toNat)
    (h' : 4 ≤ (a - b).toNat) : (s.write32 a v).read32 b = s.read32 b := by
  simp only [State.read32]
  rw [byteAt_write32_outside, byteAt_write32_outside, byteAt_write32_outside, byteAt_write32_outside]
  all_goals bv_omega

/-- Only memory is read. -/
theorem byteAt_congr {s t : State} (h : s.mem = t.mem) (a : Word) : s.byteAt a = t.byteAt a := by
  simp [State.byteAt, h]

theorem read32_congr {s t : State} (h : s.mem = t.mem) (a : Word) : s.read32 a = t.read32 a := by
  simp [State.read32, byteAt_congr h]

theorem read64_congr {s t : State} (h : s.mem = t.mem) (a : Word) : s.read64 a = t.read64 a := by
  simp [State.read64, read32_congr h]

theorem read16_congr {s t : State} (h : s.mem = t.mem) (a : Word) : s.read16 a = t.read16 a := by
  simp [State.read16, byteAt_congr h]

/-! ### At offsets from one base -/

theorem offset_sub (b i j : Word) : b + j - (b + i) = j - i := by bv_omega

theorem read32_write32_at (s : State) (b i j v : Word) (h : 4 ≤ (j - i).toNat)
    (h' : 4 ≤ (i - j).toNat) : (s.write32 (b + i) v).read32 (b + j) = s.read32 (b + j) :=
  read32_write32_outside _ _ _ _ (by rwa [offset_sub]) (by rwa [offset_sub])

theorem read32_write16_at (s : State) (b i j : Word) (v : Half) (h : 2 ≤ (j - i).toNat)
    (h' : 4 ≤ (i - j).toNat) : (s.write16 (b + i) v).read32 (b + j) = s.read32 (b + j) := by
  simp only [State.read32]
  rw [byteAt_write16_outside, byteAt_write16_outside, byteAt_write16_outside, byteAt_write16_outside]
  all_goals bv_omega

theorem read16_write16_at (s : State) (b i j : Word) (v : Half) (h : 2 ≤ (j - i).toNat)
    (h' : 2 ≤ (i - j).toNat) : (s.write16 (b + i) v).read16 (b + j) = s.read16 (b + j) := by
  simp only [State.read16]
  rw [byteAt_write16_outside, byteAt_write16_outside]
  all_goals bv_omega

/-- A doubleword whose four bytes are as before reads as before. -/
theorem read32_of_bytes {s t : State} {a : Word}
    (h : ∀ k, k < 4 → t.byteAt (a + BitVec.ofNat 32 k) = s.byteAt (a + BitVec.ofNat 32 k)) :
    t.read32 a = s.read32 a := by
  have h0 : t.byteAt a = s.byteAt a := by simpa using h 0 (by decide)
  have h1 : t.byteAt (a + 1) = s.byteAt (a + 1) := h 1 (by decide)
  have h2 : t.byteAt (a + 2) = s.byteAt (a + 2) := h 2 (by decide)
  have h3 : t.byteAt (a + 3) = s.byteAt (a + 3) := h 3 (by decide)
  rw [State.read32, State.read32, h0, h1, h2, h3]

/-- A word whose two bytes are as before reads as before. -/
theorem read16_of_bytes {s t : State} {a : Word}
    (h : ∀ k, k < 2 → t.byteAt (a + BitVec.ofNat 32 k) = s.byteAt (a + BitVec.ofNat 32 k)) :
    t.read16 a = s.read16 a := by
  have h0 : t.byteAt a = s.byteAt a := by simpa using h 0 (by decide)
  have h1 : t.byteAt (a + 1) = s.byteAt (a + 1) := h 1 (by decide)
  rw [State.read16, State.read16, h0, h1]

end Sys2Proof.Machine
end

