-- ==== Sys2Proof/Laws/Stop.lean ====
section
/-! SUPPORT. When the checks and their sequences answer a value, and which fault is raised. -/

namespace Sys2Proof.Machine

/-- A sequence answers a value exactly when its first part does and the rest does on it. -/
theorem bind_ok {α β : Type} (x : Except Stop α) (f : α → Except Stop β) (b : β) :
    (x >>= f) = .ok b ↔ ∃ a, x = .ok a ∧ f a = .ok b := by
  cases x <;> simp [bind, Except.bind]

theorem pure_ok {α : Type} (a b : α) : (pure a : Except Stop α) = .ok b ↔ b = a := by
  simp [pure, Except.pure, eq_comm]

theorem require_ok (c : Bool) (e : Exn) (u : Unit) : require c e = .ok u ↔ c = true := by
  cases c <;> simp [require]

theorem require_true (e : Exn) : require true e = .ok () := rfl

theorem require_false (e : Exn) : require false e = .error (.raise e) := rfl

theorem inScope_ok (c : Bool) (r : Refusal) (u : Unit) : inScope c r = .ok u ↔ c = true := by
  cases c <;> simp [inScope]

theorem inScope_true (r : Refusal) : inScope true r = .ok () := rfl

theorem orRaise_ok {α : Type} (o : Option α) (e : Exn) (a : α) : orRaise o e = .ok a ↔ o = some a := by
  cases o <;> simp [orRaise]

theorem orRaise_some {α : Type} (a : α) (e : Exn) : orRaise (some a) e = .ok a := rfl

/-! ### Several faults of one class -/

theorem mem_failing (l : List (Bool × Exn)) (e : Exn) : e ∈ failing l ↔ (false, e) ∈ l := by
  simp only [failing, List.mem_map, List.mem_filter, Bool.not_eq_true']
  constructor
  · rintro ⟨⟨b, x⟩, ⟨h, rfl⟩, rfl⟩; exact h
  · intro h; exact ⟨(false, e), ⟨h, rfl⟩, rfl⟩

theorem failing_nil (l : List (Bool × Exn)) : failing l = [] ↔ ∀ c ∈ l, c.1 = true := by
  simp [failing, List.filter_eq_nil_iff]

/-- The fault raised is one of those there are. -/
theorem chooseFault_mem (n : Nat) (e : Exn) (l : List Exn) : chooseFault n e l ∈ e :: l := by
  match l with
  | [] => simp [chooseFault]
  | f :: rest =>
    have h : ∀ k, k % (e :: f :: rest).length < (e :: f :: rest).length := fun k =>
      Nat.mod_lt _ (by simp)
    rw [chooseFault, List.getD_eq_getElem _ _ (h _)]
    exact List.getElem_mem (h _)

theorem raiseAny_ok (n : Nat) (l : List Exn) (u : Unit) : raiseAny n l = .ok u ↔ l = [] := by
  cases l <;> simp [raiseAny]

/-- Where there are faults, one of them is raised. -/
theorem raiseAny_raises {n : Nat} {l : List Exn} (h : l ≠ []) :
    ∃ e ∈ l, raiseAny n l = .error (.raise e) := by
  match l with
  | [] => exact absurd rfl h
  | e :: others => exact ⟨_, chooseFault_mem n e others, rfl⟩

theorem ok_bind {α β : Type} (a : α) (f : α → Except Stop β) : (Except.ok a >>= f) = f a := rfl

theorem error_bind {α β : Type} (x : Stop) (f : α → Except Stop β) :
    ((Except.error x : Except Stop α) >>= f) = .error x := rfl

end Sys2Proof.Machine
end

