-- ==== Sys2Proof/Laws/Operands.lean ====
section
/-! SUPPORT. Registers, memory operands and the stack: when each access answers, and with what. -/

namespace Sys2Proof.Machine

/-! ### Registers -/

/-- A register read after a write. -/
theorem getReg_setReg (s : State) (r q : Reg) (v : Word) :
    (s.setReg r v).getReg q = if q = r then v else s.getReg q := by
  cases r <;> cases q <;> rfl

theorem esp_setReg (s : State) (r : Reg) (v : Word) :
    (s.setReg r v).regs.esp = if r = .esp then v else s.regs.esp := by
  cases r <;> rfl

theorem Reg.ofCode_code (r : Reg) : Reg.ofCode r.code = r := by cases r <;> rfl

/-! ### Access through a segment -/

theorem segLinear_ok (s : State) (x : SReg) (off : Word) (n : Nat) (w : Bool) (a : Word) :
    segLinear s x off n w = .ok a ↔
      (s.getSreg x).desc.permits off n w = true ∧ a = (s.getSreg x).desc.base + off := by
  simp only [segLinear, bind_ok, require_ok, pure_ok, exists_const]

theorem loadSeg16_ok (s : State) (x : SReg) (off : Word) (v : Half) :
    loadSeg16 s x off = .ok v ↔
      (s.getSreg x).desc.permits off 2 false = true ∧ v = s.read16 ((s.getSreg x).desc.base + off) := by
  simp only [loadSeg16, bind_ok, segLinear_ok, pure_ok]
  constructor
  · rintro ⟨a, ⟨h, rfl⟩, rfl⟩; exact ⟨h, rfl⟩
  · rintro ⟨h, rfl⟩; exact ⟨_, ⟨h, rfl⟩, rfl⟩

theorem loadSeg32_ok (s : State) (x : SReg) (off v : Word) :
    loadSeg32 s x off = .ok v ↔
      (s.getSreg x).desc.permits off 4 false = true ∧ v = s.read32 ((s.getSreg x).desc.base + off) := by
  simp only [loadSeg32, bind_ok, segLinear_ok, pure_ok]
  constructor
  · rintro ⟨a, ⟨h, rfl⟩, rfl⟩; exact ⟨h, rfl⟩
  · rintro ⟨h, rfl⟩; exact ⟨_, ⟨h, rfl⟩, rfl⟩

theorem storeSeg16_ok (s t : State) (x : SReg) (off : Word) (v : Half) :
    storeSeg16 s x off v = .ok t ↔
      (s.getSreg x).desc.permits off 2 true = true ∧
        t = s.write16 ((s.getSreg x).desc.base + off) v := by
  simp only [storeSeg16, bind_ok, segLinear_ok, pure_ok]
  constructor
  · rintro ⟨a, ⟨h, rfl⟩, rfl⟩; exact ⟨h, rfl⟩
  · rintro ⟨h, rfl⟩; exact ⟨_, ⟨h, rfl⟩, rfl⟩

theorem storeSeg32_ok (s t : State) (x : SReg) (off v : Word) :
    storeSeg32 s x off v = .ok t ↔
      (s.getSreg x).desc.permits off 4 true = true ∧
        t = s.write32 ((s.getSreg x).desc.base + off) v := by
  simp only [storeSeg32, bind_ok, segLinear_ok, pure_ok]
  constructor
  · rintro ⟨a, ⟨h, rfl⟩, rfl⟩; exact ⟨h, rfl⟩
  · rintro ⟨h, rfl⟩; exact ⟨_, ⟨h, rfl⟩, rfl⟩

/-! ### The stack -/

theorem stackLinear_ok (e : Exn) (s : State) (off : Word) (n : Nat) (w : Bool) (a : Word) :
    stackLinear e s off n w = .ok a ↔
      s.sregs.ss.desc.permits off n w = true ∧ a = s.sregs.ss.desc.base + off := by
  simp only [stackLinear, bind_ok, require_ok, pure_ok, exists_const]

/-- Push32 decrements ESP by 4 and stores there (R7). -/
theorem push32_ok (e : Exn) (s t : State) (v : Word) :
    push32 e s v = .ok t ↔
      s.sregs.ss.desc.permits (s.regs.esp - 4) 4 true = true ∧
        t = (s.write32 (s.sregs.ss.desc.base + (s.regs.esp - 4)) v).setReg .esp (s.regs.esp - 4) := by
  simp only [push32, bind_ok, stackLinear_ok, pure_ok]
  constructor
  · rintro ⟨a, ⟨h, rfl⟩, rfl⟩; exact ⟨h, rfl⟩
  · rintro ⟨h, rfl⟩; exact ⟨_, ⟨h, rfl⟩, rfl⟩

/-- Push16 decrements ESP by 2 and stores there (R7). -/
theorem push16_ok (e : Exn) (s t : State) (v : Half) :
    push16 e s v = .ok t ↔
      s.sregs.ss.desc.permits (s.regs.esp - 2) 2 true = true ∧
        t = (s.write16 (s.sregs.ss.desc.base + (s.regs.esp - 2)) v).setReg .esp (s.regs.esp - 2) := by
  simp only [push16, bind_ok, stackLinear_ok, pure_ok]
  constructor
  · rintro ⟨a, ⟨h, rfl⟩, rfl⟩; exact ⟨h, rfl⟩
  · rintro ⟨h, rfl⟩; exact ⟨_, ⟨h, rfl⟩, rfl⟩

theorem stackItem_ok (wide : Bool) (s : State) (off v : Word) :
    stackItem wide s off = .ok v ↔
      s.sregs.ss.desc.permits off (if wide then 4 else 2) false = true ∧
        v = if wide then s.read32 (s.sregs.ss.desc.base + off)
            else (s.read16 (s.sregs.ss.desc.base + off)).setWidth 32 := by
  simp only [stackItem, bind_ok, stackLinear_ok, pure_ok]
  constructor
  · rintro ⟨a, ⟨h, rfl⟩, rfl⟩; exact ⟨h, rfl⟩
  · rintro ⟨h, rfl⟩; exact ⟨_, ⟨h, rfl⟩, rfl⟩

/-- What any number of pushes can do: move ESP, store, draw free values; memory keeps its canonical
form. -/
def Pushed (s t : State) : Prop :=
  ∃ esp m n, t = { s with regs := { s.regs with esp := esp }, mem := m, freeCount := n } ∧
    (s.mem.wf = true → m.wf = true)

theorem Pushed.refl (s : State) : Pushed s s := ⟨s.regs.esp, s.mem, s.freeCount, rfl, id⟩

theorem Pushed.trans {s t u : State} (h : Pushed s t) (h' : Pushed t u) : Pushed s u := by
  obtain ⟨e, m, n, rfl, hm⟩ := h
  obtain ⟨e', m', n', rfl, hm'⟩ := h'
  exact ⟨e', m', n', rfl, hm' ∘ hm⟩

theorem push32_pushed {e : Exn} {s t : State} {v : Word} (h : push32 e s v = .ok t) : Pushed s t := by
  obtain ⟨-, rfl⟩ := (push32_ok _ _ _ _).1 h
  exact ⟨_, _, s.freeCount, rfl, store32_wf _ _ _⟩

theorem push16_pushed {e : Exn} {s t : State} {v : Half} (h : push16 e s v = .ok t) : Pushed s t := by
  obtain ⟨-, rfl⟩ := (push16_ok _ _ _ _).1 h
  exact ⟨_, _, s.freeCount, rfl, store16_wf _ _ _⟩

theorem pushItem_pushed {w : Bool} {e : Exn} {s t : State} {v : Word}
    (h : pushItem w e s v = .ok t) : Pushed s t := by
  cases w
  · exact push16_pushed h
  · exact push32_pushed h

theorem pushSelector_pushed {w : Bool} {e : Exn} {s t : State} {v : Half}
    (h : pushSelector w e s v = .ok t) : Pushed s t := by
  cases w
  · exact push16_pushed h
  · obtain ⟨x, m, n, rfl, hm⟩ := push32_pushed h
    exact ⟨x, m, n, rfl, hm⟩

/-! ### Loads of SS -/

theorem loadedSegment_some {s : State} {sel : Half} {d : SegDescriptor}
    (h : s.readSegDescriptor sel = some d) : s.loadedSegment sel = ⟨sel, d⟩ := by
  simp [State.loadedSegment, h]

/-- A selector has no fault as a stack segment exactly when every check passes (R82, R80). -/
theorem stackSegmentFaults_nil (s : State) (sel : Half) (l : BitVec 2) :
    stackSegmentFaults s sel l = [] ↔
      selIsNull sel = false ∧ ∃ d, s.readSegDescriptor sel = some d ∧ selRpl sel = l ∧
        d.isWritableData = true ∧ d.dpl = l ∧ d.present = true := by
  unfold stackSegmentFaults
  cases selIsNull sel <;> cases s.readSegDescriptor sel <;> simp [failing_nil, and_assoc]

/-- LoadSS answers exactly when every check of R82 passes. -/
theorem loadSS_ok (s : State) (sel : Half) (r : SegRegister) :
    loadSS s sel = .ok r ↔
      selIsNull sel = false ∧ ∃ d, s.readSegDescriptor sel = some d ∧ selRpl sel = s.cpl ∧
        d.isWritableData = true ∧ d.dpl = s.cpl ∧ d.present = true ∧ r = ⟨sel, d⟩ := by
  simp only [loadSS, bind_ok, raiseAny_ok, pure_ok, exists_const, stackSegmentFaults_nil]
  constructor
  · rintro ⟨⟨h, d, hd, h1, h2, h3, h4⟩, rfl⟩
    exact ⟨h, d, hd, h1, h2, h3, h4, loadedSegment_some hd⟩
  · rintro ⟨h, d, hd, h1, h2, h3, h4, rfl⟩
    exact ⟨⟨h, d, hd, h1, h2, h3, h4⟩, (loadedSegment_some hd).symm⟩

/-- A selector with faults makes LoadSS raise one of them. -/
theorem loadSS_raises {s : State} {sel : Half} (h : stackSegmentFaults s sel s.cpl ≠ []) :
    ∃ e ∈ stackSegmentFaults s sel s.cpl, loadSS s sel = .error (.raise e) := by
  obtain ⟨e, he, hr⟩ := raiseAny_raises (n := s.deliveries) h
  exact ⟨e, he, by rw [loadSS, hr, error_bind]⟩

end Sys2Proof.Machine
end

