-- ==== Sys2Proof/Laws/Ops.lean ====
section
/-! SUPPORT. The shared operations: what each does when it answers (inversions), and what none of
them touches. -/

namespace Sys2Proof.Machine

/-! ### What deliveries, returns and task switches carry over -/

/-- What neither the frame, the handler's entry, a return nor a task switch touches; memory keeps its
canonical form and EFLAGS its reserved bits. -/
structure Carried (s t : State) : Prop where
  idtr : t.idtr = s.idtr
  gdtr : t.gdtr = s.gdtr
  mode : t.mode = s.mode
  nmiBlocked : t.nmiBlocked = s.nmiBlocked
  eventInhibit : t.eventInhibit = s.eventInhibit
  stiWindow : t.stiWindow = s.stiWindow
  nmiPending : t.nmiPending = s.nmiPending
  nmiHeld : t.nmiHeld = s.nmiHeld
  shutdown : t.shutdown = s.shutdown
  apic : t.apic = s.apic
  params : t.params = s.params
  env : t.env = s.env
  deliveries : t.deliveries = s.deliveries
  wf : s.mem.wf = true → t.mem.wf = true
  flags : s.flagsOk → t.flagsOk

theorem Carried.refl (s : State) : Carried s s :=
  ⟨rfl, rfl, rfl, rfl, rfl, rfl, rfl, rfl, rfl, rfl, rfl, rfl, rfl, id, id⟩

theorem Carried.trans {s t u : State} (h : Carried s t) (k : Carried t u) : Carried s u :=
  ⟨k.idtr.trans h.idtr, k.gdtr.trans h.gdtr, k.mode.trans h.mode, k.nmiBlocked.trans h.nmiBlocked,
    k.eventInhibit.trans h.eventInhibit, k.stiWindow.trans h.stiWindow,
    k.nmiPending.trans h.nmiPending, k.nmiHeld.trans h.nmiHeld, k.shutdown.trans h.shutdown, k.apic.trans h.apic,
    k.params.trans h.params, k.env.trans h.env, k.deliveries.trans h.deliveries,
    k.wf ∘ h.wf, k.flags ∘ h.flags⟩

theorem Carried.write32 {s t : State} (h : Carried s t) (a v : Word) : Carried s (t.write32 a v) :=
  h.trans ⟨rfl, rfl, rfl, rfl, rfl, rfl, rfl, rfl, rfl, rfl, rfl, rfl, rfl, write32_wf t a v, id⟩

theorem Carried.write16 {s t : State} (h : Carried s t) (a : Word) (v : Half) :
    Carried s (t.write16 a v) :=
  h.trans ⟨rfl, rfl, rfl, rfl, rfl, rfl, rfl, rfl, rfl, rfl, rfl, rfl, rfl, write16_wf t a v, id⟩

theorem Carried.setByte {s t : State} (h : Carried s t) (a : Word) (b : Byte) :
    Carried s (t.setByte a b) :=
  h.trans ⟨rfl, rfl, rfl, rfl, rfl, rfl, rfl, rfl, rfl, rfl, rfl, rfl, rfl, setByte_wf t a b, id⟩

theorem Carried.setTr {s t : State} (h : Carried s t) (r : SegRegister) : Carried s (t.setTr r) :=
  h.trans ⟨rfl, rfl, rfl, rfl, rfl, rfl, rfl, rfl, rfl, rfl, rfl, rfl, rfl, id, id⟩

theorem Pushed.carried {s t : State} (h : Pushed s t) : Carried s t := by
  obtain ⟨e, m, n, rfl, hm⟩ := h
  exact ⟨rfl, rfl, rfl, rfl, rfl, rfl, rfl, rfl, rfl, rfl, rfl, rfl, rfl, hm, id⟩

/-! ### The stages of a delivery (R146) -/

theorem idtGate_ok (s : State) (v : Byte) (ext : Word) (g : Gate) :
    idtGate s v ext = .ok g ↔
      s.idtHas v = true ∧ decodeGate (s.read64 (s.idtEntry v)) = some g := by
  simp only [idtGate, bind_ok, require_ok, orRaise_ok, exists_const]

theorem checkGate_ok (s : State) (g : Gate) (v : Byte) (k : EventKind) (u : Unit) :
    checkGate s g v k = .ok u ↔ (k.soft = true → s.cpl ≤ g.dpl) ∧ g.present = true := by
  simp only [checkGate, bind_ok, require_ok, exists_const, Bool.or_eq_true, Bool.not_eq_true',
    decide_eq_true_eq]
  cases k.soft <;> simp

theorem handlerSegment_ok (s : State) (g : Gate) (ext : Word) (d : SegDescriptor) :
    handlerSegment s g ext = .ok d ↔
      selIsNull g.sel = false ∧ s.readSegDescriptor g.sel = some d ∧ d.isCode = true ∧
        d.dpl ≤ s.cpl ∧ d.present = true ∧ d.inLimit g.offset 1 = true := by
  simp only [handlerSegment, bind_ok, require_ok, orRaise_ok, pure_ok, exists_const,
    Bool.not_eq_true', decide_eq_true_eq]
  constructor
  · rintro ⟨h, d', hd, h1, h2, h3, h4, rfl⟩; exact ⟨h, hd, h1, h2, h3, h4⟩
  · rintro ⟨h, hd, h1, h2, h3, h4⟩; exact ⟨h, d, hd, h1, h2, h3, h4, rfl⟩

theorem tssStack_ok (s : State) (l : BitVec 2) (ext : Word) (x : Half × Word) :
    tssStack s l ext = .ok x ↔
      (∃ b, s.tr.desc.kind = .tss32 b) ∧ 8 * l.toNat + 11 ≤ s.tr.desc.limit.toNat ∧
        x = (s.read16 (s.tr.desc.base + 8 * l.setWidth 32 + 8),
          s.read32 (s.tr.desc.base + 8 * l.setWidth 32 + 4)) := by
  simp only [tssStack, bind_ok, require_ok, inScope_ok, pure_ok, exists_const, decide_eq_true_eq]
  cases s.tr.desc.kind <;> simp

theorem handlerStackSegment_ok (s : State) (n : Half) (l : BitVec 2) (ext : Word)
    (d : SegDescriptor) :
    handlerStackSegment s n l ext = .ok d ↔
      selIsNull n = false ∧ s.readSegDescriptor n = some d ∧ selRpl n = l ∧
        d.isWritableData = true ∧ d.dpl = l ∧ d.present = true := by
  simp only [handlerStackSegment, bind_ok, require_ok, orRaise_ok, pure_ok, exists_const,
    Bool.not_eq_true', Bool.and_eq_true, beq_iff_eq]
  constructor
  · rintro ⟨h, d', hd, ⟨⟨⟨h1, h2⟩, h3⟩, h4⟩, rfl⟩; exact ⟨h, hd, h1, h2, h3, h4⟩
  · rintro ⟨h, hd, h1, h2, h3, h4⟩; exact ⟨h, d, hd, ⟨⟨⟨h1, h2⟩, h3⟩, h4⟩, rfl⟩

/-- A stack switch: SS:ESP from the TSS, the old SS and ESP pushed there (R141). -/
theorem innerStack_ok (s : State) (l : BitVec 2) (w : Bool) (ext : Word) (x : State × Exn) :
    innerStack s l w ext = .ok x ↔
      ∃ nss nesp d s1, tssStack s l ext = .ok (nss, nesp) ∧
        handlerStackSegment s nss l ext = .ok d ∧
        pushSelector w (ssExn (selCode nss ext)) ((s.setSS ⟨nss, d⟩).setReg .esp nesp)
          s.sregs.ss.sel = .ok s1 ∧
        pushItem w (ssExn (selCode nss ext)) s1 s.regs.esp = .ok x.1 ∧
        x.2 = ssExn (selCode nss ext) := by
  simp only [innerStack, bind_ok, pure_ok]
  constructor
  · rintro ⟨⟨nss, nesp⟩, h1, d, h2, s1, h3, s2, h4, rfl⟩; exact ⟨nss, nesp, d, s1, h1, h2, h3, h4, rfl⟩
  · rintro ⟨nss, nesp, d, s1, h1, h2, h3, h4, h5⟩
    exact ⟨(nss, nesp), h1, d, h2, s1, h3, x.1, h4, Prod.ext rfl h5⟩

/-- The frame's stack differs from the interrupted one in SS, ESP, memory and the free counter. -/
theorem frameStack_carried {s : State} {d : SegDescriptor} {w : Bool} {ext : Word} {x : State × Exn}
    (h : frameStack s d w ext = .ok x) :
    Carried s x.1 ∧ x.1.eflags = s.eflags ∧ x.1.sregs.cs = s.sregs.cs := by
  unfold frameStack at h
  split at h
  · obtain ⟨nss, nesp, e, s1, -, -, h3, h4, -⟩ := (innerStack_ok _ _ _ _ _).1 h
    obtain ⟨a, m, n, hx, hm⟩ := (pushSelector_pushed h3).trans (pushItem_pushed h4)
    rw [hx]
    exact ⟨⟨rfl, rfl, rfl, rfl, rfl, rfl, rfl, rfl, rfl, rfl, rfl, rfl, rfl, hm, id⟩, rfl, rfl⟩
  · obtain rfl : (s, ssExn ext) = x := by simpa using h
    exact ⟨Carried.refl s, rfl, rfl⟩

theorem pushFrame_pushed {s t : State} {w : Bool} {e : Exn} {f : Word} {c : Half} {r : Word}
    {err : Option Word} (h : pushFrame s w e f c r err = .ok t) : Pushed s t := by
  simp only [pushFrame, bind_ok] at h
  obtain ⟨s1, h1, s2, h2, s3, h3, h4⟩ := h
  have h123 := ((pushItem_pushed h1).trans (pushSelector_pushed h2)).trans (pushItem_pushed h3)
  cases err with
  | none => obtain rfl := (pure_ok _ _).1 h4; exact h123
  | some x => exact h123.trans (pushItem_pushed h4)

/-- Through an interrupt or trap gate: the frame, then the handler's entry (R146 steps 7 to 12). -/
theorem throughGate_ok (s t : State) (g : Gate) (ext : Word) (err : Option Word) (c : Half) (r : Word) :
    throughGate s g ext err c r = .ok t ↔
      ∃ d x s2, handlerSegment s g ext = .ok d ∧ frameStack s d g.wide ext = .ok x ∧
        pushFrame x.1 g.wide x.2 s.eflags c r err = .ok s2 ∧
        t = enterHandler s2 g d (handlerLevel s d) := by
  simp only [throughGate, bind_ok, pure_ok]
  constructor
  · rintro ⟨d, h1, ⟨s1, e⟩, h2, s2, h3, rfl⟩; exact ⟨d, (s1, e), s2, h1, h2, h3, rfl⟩
  · rintro ⟨d, ⟨s1, e⟩, s2, h1, h2, h3, rfl⟩; exact ⟨d, h1, (s1, e), h2, s2, h3, rfl⟩

theorem throughGate_carried {s t : State} {g : Gate} {ext : Word} {err : Option Word} {c : Half}
    {r : Word} (h : throughGate s g ext err c r = .ok t) : Carried s t := by
  obtain ⟨d, x, s2, -, h2, h3, rfl⟩ := (throughGate_ok _ _ _ _ _ _ _).1 h
  obtain ⟨hc, hf, -⟩ := frameStack_carried h2
  have hp := hc.trans (pushFrame_pushed h3).carried
  exact ⟨hp.idtr, hp.gdtr, hp.mode, hp.nmiBlocked, hp.eventInhibit, hp.stiWindow, hp.nmiPending, hp.nmiHeld,
    hp.shutdown, hp.apic, hp.params, hp.env, hp.deliveries, hp.wf,
    fun hs => handlerFlags_fixReserved _ _ (hp.flags hs)⟩

/-! ### Task switches -/

theorem saveTask_carried (s : State) (f : Word) (c : Half) (r : Word) : Carried s (saveTask s f c r) := by
  exact (((((((((((((((Carried.refl s).write32 _ _).write32 _ _).write32 _ _).write32 _ _).write32 _ _
    ).write32 _ _).write32 _ _).write32 _ _).write32 _ _).write32 _ _).write16 _ _).write16 _ _
    ).write16 _ _).write16 _ _).write16 _ _ |>.write16 _ _

theorem markBusy_carried (s : State) (a : Word) (b : Bool) : Carried s (markBusy s a b) :=
  (Carried.refl s).setByte _ _

/-- Loading a task's context (R149): the registers come from the TSS that TR names, with NT set for a
nested task. -/
theorem loadTask_ok (s t : State) (nested : Bool) :
    loadTask s nested = .ok t ↔
      flag (taskFlags s) vmBit = false ∧
        t = { loadTaskLdt s with
          regs := tssRegs s s.tr.desc.base
          eip := s.read32 (s.tr.desc.base + tssEip)
          eflags := if nested then setFlag (taskFlags s) ntBit true else taskFlags s
          sregs := taskSegments (loadTaskLdt s) (tssSelectors s s.tr.desc.base)
          taskTrap := (s.byteAt (s.tr.desc.base + tssTrap)).getLsbD 0 } := by
  simp only [loadTask, bind_ok, inScope_ok, pure_ok, exists_const, Bool.not_eq_true']

theorem loadTask_carried {s t : State} {nested : Bool} (h : loadTask s nested = .ok t) :
    Carried s t := by
  obtain ⟨-, rfl⟩ := (loadTask_ok _ _ _).1 h
  refine ⟨rfl, rfl, rfl, rfl, rfl, rfl, rfl, rfl, rfl, rfl, rfl, rfl, rfl, id, fun _ => ?_⟩
  cases nested
  · exact fixReserved_idem _
  · exact fixReserved_setFlag _ ntBit true rfl (fixReserved_idem _)

/-- A switch without a fault: nothing is wrong with the two TSSs, nor with the new context where both
are 32-bit ones. -/
theorem switchFaults_nil {s next : State} {d : SegDescriptor} {busy : Bool} {wrong : Exn} {sel : Half}
    {ext : Word} (h : switchFaults s next d busy wrong sel ext = [])
    (hd : d.isTss32 = true) (hs : s.tr.desc.isTss32 = true) :
    d.kind = .tss32 busy ∧ d.present = true ∧ d.holdsTask = true ∧ s.tr.desc.holdsTask = true ∧
      contextFaults next ext = [] := by
  have hk : d.kind ≠ .tss16 := fun hk => by simp [SegDescriptor.isTss32, hk] at hd
  simp only [switchFaults, tssFaults, currentTssFaults, List.append_eq_nil_iff, failing_nil,
    List.mem_cons, List.not_mem_nil, or_false, forall_eq_or_imp, forall_eq, hd, hs, Bool.not_true,
    Bool.false_or, Bool.or_eq_true, beq_iff_eq, hk] at h
  obtain ⟨⟨⟨h1, h2, h3⟩, h4⟩, h5⟩ := h
  exact ⟨h1, h2, h3, h4, by simpa [h2, h3] using h5⟩

/-- TaskSwitch: no fault of a task gate, two 32-bit TSSs, the new context loaded with NT set, the
error code pushed last (R149). -/
theorem taskSwitch_ok (s t : State) (sel : Half) (err : Option Word) (ext : Word) (c : Half) (r : Word) :
    taskSwitch s sel err ext c r = .ok t ↔
      gateTaskFaults s sel ext c r = [] ∧ ∃ a d u, s.tssAddr sel = some a ∧
        d = decodeSegDescriptor (s.read64 a) ∧ d.isTss32 = true ∧ s.tr.desc.isTss32 = true ∧
        loadTask (switchedTo s sel d a c r) true = .ok u ∧
        (∀ e, err = some e → push32 (ssExn ext) u e = .ok t) ∧ (err = none → t = u) := by
  simp only [taskSwitch, bind_ok, raiseAny_ok, orRaise_ok, inScope_ok, Bool.and_eq_true, exists_const]
  refine and_congr_right fun _ => exists_congr fun a => ?_
  cases err with
  | none =>
    simp only [pure_ok]
    constructor
    · rintro ⟨ha, ⟨h1, h2⟩, u, hu, ht⟩; exact ⟨_, u, ha, rfl, h1, h2, hu, nofun, fun _ => ht⟩
    · rintro ⟨_, u, ha, rfl, h1, h2, hu, -, ht⟩; exact ⟨ha, ⟨h1, h2⟩, u, hu, by simpa using ht⟩
  | some e =>
    constructor
    · rintro ⟨ha, ⟨h1, h2⟩, u, hu, ht⟩
      exact ⟨_, u, ha, rfl, h1, h2, hu, fun e' he => Option.some.inj he ▸ ht, nofun⟩
    · rintro ⟨_, u, ha, rfl, h1, h2, hu, ht, -⟩; exact ⟨ha, ⟨h1, h2⟩, u, hu, ht e rfl⟩

/-- A task gate with faults raises one of them. -/
theorem taskSwitch_raises {s : State} {sel : Half} {ext : Word} {c : Half} {r : Word}
    (err : Option Word) (h : gateTaskFaults s sel ext c r ≠ []) :
    ∃ e ∈ gateTaskFaults s sel ext c r, taskSwitch s sel err ext c r = .error (.raise e) := by
  obtain ⟨e, he, hr⟩ := raiseAny_raises (n := s.deliveries) h
  exact ⟨e, he, by rw [taskSwitch, hr, error_bind]⟩

theorem switchedTo_carried (s : State) (sel : Half) (d : SegDescriptor) (a : Word) (c : Half) (r : Word) :
    Carried s (switchedTo s sel d a c r) :=
  (((saveTask_carried s s.eflags c r).write16 _ _).trans (markBusy_carried _ a true)).setTr _

theorem taskSwitch_carried {s t : State} {sel : Half} {err : Option Word} {ext : Word} {c : Half}
    {r : Word} (h : taskSwitch s sel err ext c r = .ok t) : Carried s t := by
  obtain ⟨-, a, d, u, -, -, -, -, h2, h3, h4⟩ := (taskSwitch_ok _ _ _ _ _ _ _).1 h
  have hu : Carried s u := (switchedTo_carried s sel d a c r).trans (loadTask_carried h2)
  cases err with
  | none => exact h4 rfl ▸ hu
  | some e => exact hu.trans (push32_pushed (h3 e rfl)).carried

/-- TaskReturn: no fault, two 32-bit TSSs, the task that returns released and the task of the link
loaded (R79). -/
theorem taskReturn_ok (s t : State) (r : Word) :
    taskReturn s r = .ok t ↔
      s.tr.desc.isTss32 = true ∧ returnTaskFaults s r = [] ∧ ∃ a d, s.tssAddr (taskLink s) = some a ∧
        d = decodeSegDescriptor (s.read64 a) ∧ d.isTss32 = true ∧
        loadTask (returnedTo s d r) false = .ok t := by
  simp only [taskReturn, bind_ok, raiseAny_ok, orRaise_ok, inScope_ok, exists_const]
  refine and_congr_right fun _ => and_congr_right fun _ => exists_congr fun a => ?_
  constructor
  · rintro ⟨ha, h1, h2⟩; exact ⟨_, ha, rfl, h1, h2⟩
  · rintro ⟨_, ha, rfl, h1, h2⟩; exact ⟨ha, h1, h2⟩

/-- A task return with faults raises one of them. -/
theorem taskReturn_raises {s : State} {r : Word} (hs : s.tr.desc.isTss32 = true)
    (h : returnTaskFaults s r ≠ []) :
    ∃ e ∈ returnTaskFaults s r, taskReturn s r = .error (.raise e) := by
  obtain ⟨e, he, hr⟩ := raiseAny_raises (n := s.deliveries) h
  exact ⟨e, he, by rw [taskReturn, hs, inScope_true, ok_bind, hr, error_bind]⟩

theorem releaseTask_carried (s : State) (r : Word) : Carried s (releaseTask s r) := by
  have hs := saveTask_carried s (setFlag s.eflags ntBit false) s.sregs.cs.sel r
  unfold releaseTask
  cases s.descriptorAddr s.tr.sel with
  | none => exact hs
  | some a => exact hs.trans (markBusy_carried _ a false)

theorem taskReturn_carried {s t : State} {r : Word} (h : taskReturn s r = .ok t) : Carried s t := by
  obtain ⟨-, -, a, d, -, -, -, h3⟩ := (taskReturn_ok _ _ _).1 h
  exact ((releaseTask_carried s r).setTr _).trans (loadTask_carried h3)

/-! ### The whole delivery -/

/-- Deliver answers through a task gate or through an interrupt or trap gate (R146). -/
theorem deliver_ok (s t : State) (v : Byte) (k : EventKind) (err : Option Word) (c : Half) (r : Word) :
    deliver s v k err c r = .ok t ↔
      s.flagVM = false ∧ ∃ g u, idtGate s v k.ext = .ok g ∧ checkGate s g v k = .ok () ∧
        (if g.kind = .task then taskSwitch s g.sel err k.ext c r
          else throughGate s g k.ext err c r) = .ok u ∧
        t = endDelivery u k := by
  simp only [deliver, bind_ok, inScope_ok, exists_const, Bool.not_eq_true']
  constructor
  · rintro ⟨h0, g, h1, _, h2, h3⟩
    refine ⟨h0, g, ?_⟩
    cases hk : g.kind <;> simp only [hk, bind_ok, pure_ok] at h3 <;> obtain ⟨u, h3, rfl⟩ := h3 <;>
      exact ⟨u, h1, h2, by simpa using h3, rfl⟩
  · rintro ⟨h0, g, u, h1, h2, h3, rfl⟩
    refine ⟨h0, g, h1, (), h2, ?_⟩
    cases hk : g.kind <;> simp only [bind_ok, pure_ok] <;>
      exact ⟨u, by simpa [hk] using h3, rfl⟩

/-- What a delivery carries over, beside what `endDelivery` sets. -/
theorem deliver_carried {s t : State} {v : Byte} {k : EventKind} {err : Option Word} {c : Half}
    {r : Word} (h : deliver s v k err c r = .ok t) :
    ∃ u, Carried s u ∧ t = endDelivery u k := by
  obtain ⟨-, g, u, -, -, h3, rfl⟩ := (deliver_ok _ _ _ _ _ _ _).1 h
  refine ⟨u, ?_, rfl⟩
  split at h3
  · exact taskSwitch_carried h3
  · exact throughGate_carried h3

/-! ### Returns -/

theorem popped_flags_ok (cur img : Word) (cpl : BitVec 2) : fixReserved (mergeFlags cur img cpl) =
    mergeFlags cur img cpl := fixReserved_idem _

theorem returnStack_carried {s t : State} {w : Bool} {l : BitVec 2}
    (h : returnStack s w l = .ok t) : Carried s t := by
  unfold returnStack at h
  split at h
  · simp only [leaveToOuter, bind_ok, pure_ok] at h
    obtain ⟨e, -, x, -, rfl⟩ := h
    exact ⟨rfl, rfl, rfl, rfl, rfl, rfl, rfl, rfl, rfl, rfl, rfl, rfl, rfl, id, id⟩
  · obtain rfl : s.setReg .esp (s.regs.esp + 3 * itemSize w) = t := by simpa using h
    exact ⟨rfl, rfl, rfl, rfl, rfl, rfl, rfl, rfl, rfl, rfl, rfl, rfl, rfl, id, id⟩

/-- The return (R72): the three items are read, no check fails, and CS:EIP and EFLAGS are theirs. -/
theorem procedureReturn_ok (s t : State) (w : Bool) :
    procedureReturn s w = .ok t ↔
      ∃ item sel img u, returnItems s w = .ok (item, sel, img) ∧
        (w && flag img vmBit && s.cpl == 0) = false ∧ returnFaults s w item sel = [] ∧
        returnStack s w (selRpl sel) = .ok u ∧
        t = { u with
          eip := restored w item (Config.freeEipHalf s.freeCount)
          eflags := mergeFlags s.eflags img s.cpl
          sregs := { u.sregs with cs := s.loadedSegment sel }
          freeCount := if w then s.freeCount else s.freeCount + 1 } := by
  simp only [procedureReturn, bind_ok, inScope_ok, raiseAny_ok, pure_ok, exists_const,
    Bool.not_eq_true']
  constructor
  · rintro ⟨⟨item, sel, img⟩, h1, h2, h3, u, h4, h5⟩; exact ⟨item, sel, img, u, h1, h2, h3, h4, h5⟩
  · rintro ⟨item, sel, img, u, h1, h2, h3, h4, h5⟩; exact ⟨(item, sel, img), h1, h2, h3, u, h4, h5⟩

theorem procedureReturn_carried {s t : State} {w : Bool} (h : procedureReturn s w = .ok t) :
    Carried s t := by
  obtain ⟨item, sel, img, u, -, -, -, h4, rfl⟩ := (procedureReturn_ok _ _ _).1 h
  have hu := returnStack_carried h4
  exact ⟨hu.idtr, hu.gdtr, hu.mode, hu.nmiBlocked, hu.eventInhibit, hu.stiWindow, hu.nmiPending, hu.nmiHeld,
    hu.shutdown, hu.apic, hu.params, hu.env, hu.deliveries, hu.wf, fun _ => popped_flags_ok _ _ _⟩

end Sys2Proof.Machine
end

