-- ==== Sys2Proof/Laws/Frames.lean ====
section
/-! SUPPORT. Items on a stack: what a sequence of pushes leaves there (60_exceptions.md R141 to R143),
and the operands and checks of Safety in terms of the operations. -/

namespace Sys2Proof.Machine

/-! ### Where the instructions are described -/

theorem inProtectedMode_runs {s : State} (h : s.Runs) (k : Host.Outcome State Fault Refusal) :
    inProtectedMode s k = k := by
  simp [inProtectedMode, h.1, h.2]

theorem conclude_ok (s t : State) : conclude s (.ok t) = .next t := rfl

theorem conclude_raise (s : State) (e : Exn) :
    conclude s (.error (.raise e)) = takeException s e s.eip := rfl

theorem takeException_of_ok {s t : State} {e : Exn} {ret : Word}
    (h : deliver s e.vec .exc (e.pushed s.params) s.sregs.cs.sel ret = .ok t) :
    takeException s e ret = .next t := by
  simp [takeException, h]

theorem takeInterrupt_of_ok {s t : State} {v : Byte} {k : EventKind} {ret : Word}
    (h : deliver s v k none s.sregs.cs.sel ret = .ok t) : takeInterrupt s v k ret = .next t := by
  simp [takeInterrupt, h]

theorem takeInterrupt_of_raise {s : State} {v : Byte} {k : EventKind} {ret : Word} {e : Exn}
    (h : deliver s v k none s.sregs.cs.sel ret = .error (.raise e)) :
    takeInterrupt s v k ret = takeException s e s.eip := by
  simp [takeInterrupt, h]

/-! ### One item -/

/-- An item stored at an address. -/
def writeSlot (s : State) (w : Bool) (a v : Word) : State :=
  if w then s.write32 a v else s.write16 a (v.extractLsb' 0 16)

/-- The low half of an item is the word at its address. -/
theorem read16_eq_readSlot (t : State) (w : Bool) (a : Word) :
    t.read16 a = (readSlot t w a).extractLsb' 0 16 := by
  refine BitVec.eq_of_getLsbD_eq fun i hi => ?_
  cases w
  · simp [readSlot, hi, show i < 32 by omega]
  · rw [BitVec.getLsbD_extractLsb']
    simp only [hi, decide_true, Bool.true_and, Nat.zero_add, readSlot, if_true, State.read16,
      State.read32, word32, BitVec.getLsbD_append]
    rcases lt_or_ge i 8 with h | h
    · simp only [h, if_true]
    · simp only [show ¬ i < 8 by omega, show i - 8 < 8 by omega, if_true, if_false]

theorem readSlot_writeSlot (s : State) (w : Bool) (a v : Word) :
    readSlot (writeSlot s w a v) w a = slotValue w v := by
  cases w
  · simp [readSlot, writeSlot, slotValue, read16_write16]
  · simp [readSlot, writeSlot, slotValue, read32_write32]

theorem byteAt_writeSlot_outside (s : State) (w : Bool) (a v x : Word)
    (h : slotSize w ≤ (x - a).toNat) : (writeSlot s w a v).byteAt x = s.byteAt x := by
  cases w
  · exact byteAt_write16_outside s a x _ h
  · exact byteAt_write32_outside s a x v h

/-- An item that lies outside the one stored is left. -/
theorem readSlot_writeSlot_outside (s : State) (w : Bool) (a b v : Word)
    (h : slotSize w ≤ (b - a).toNat) (h' : slotSize w ≤ (a - b).toNat) :
    readSlot (writeSlot s w a v) w b = readSlot s w b := by
  cases w
  · have h2 : 2 ≤ (b - a).toNat := h
    have h2' : 2 ≤ (a - b).toNat := h'
    simp only [readSlot, Bool.false_eq_true, if_false, State.read16]
    rw [byteAt_writeSlot_outside, byteAt_writeSlot_outside]
    · exact h
    · show 2 ≤ _; bv_omega
  · exact read32_write32_outside s a b v h h'

theorem slotValue_low (w : Bool) (v : Word) :
    (slotValue w v).extractLsb' 0 16 = v.extractLsb' 0 16 := by
  cases w
  · refine BitVec.eq_of_getLsbD_eq fun i hi => ?_
    simp [slotValue, hi, show i < 32 by omega]
  · rfl

/-! ### Many items -/

/-- `t` is `s` after the pushes of some values, the last one pushed first in the list. -/
structure Stacked (s t : State) (w : Bool) (vs : List Word) : Prop where
  state : ∃ m n, t = { s with
    regs := { s.regs with esp := s.regs.esp - BitVec.ofNat 32 (slotSize w * vs.length) },
    mem := m, freeCount := n }
  items : ∀ i v, vs[i]? = some v →
    readSlot t w (slotAt (s.sregs.ss.desc.base + t.regs.esp) w i) = slotValue w v
  memory : SameMemoryOutside s t (s.sregs.ss.desc.base + t.regs.esp) (slotSize w * vs.length)

theorem Stacked.refl (s : State) (w : Bool) : Stacked s s w [] :=
  ⟨⟨s.mem, s.freeCount, by simp⟩, by simp, fun _ _ => rfl⟩

theorem Stacked.ss {s t : State} {w : Bool} {vs : List Word} (h : Stacked s t w vs) :
    t.sregs = s.sregs := by
  obtain ⟨m, n, rfl⟩ := h.state; rfl

theorem Stacked.esp {s t : State} {w : Bool} {vs : List Word} (h : Stacked s t w vs) :
    t.regs.esp = s.regs.esp - BitVec.ofNat 32 (slotSize w * vs.length) := by
  obtain ⟨m, n, rfl⟩ := h.state; rfl

/-- One more push. -/
theorem Stacked.push {s t u : State} {w : Bool} {vs : List Word} {v : Word} (h : Stacked s t w vs)
    (hlen : vs.length ≤ 8)
    (hu : ∃ n, u = (writeSlot { t with freeCount := n } w
      (t.sregs.ss.desc.base + (t.regs.esp - BitVec.ofNat 32 (slotSize w))) v).setReg .esp
        (t.regs.esp - BitVec.ofNat 32 (slotSize w))) :
    Stacked s u w (v :: vs) := by
  obtain ⟨n, rfl⟩ := hu
  have hss := h.ss
  have hesp := h.esp
  have hw : slotSize w = 4 ∨ slotSize w = 2 := by cases w <;> simp [slotSize]
  have hsum : t.regs.esp - BitVec.ofNat 32 (slotSize w) =
      s.regs.esp - BitVec.ofNat 32 (slotSize w * (v :: vs).length) := by
    rw [hesp, List.length_cons]
    rcases hw with e | e <;> rw [e] <;> bv_omega
  have hread : ∀ b, readSlot ((writeSlot { t with freeCount := n } w
      (t.sregs.ss.desc.base + (t.regs.esp - BitVec.ofNat 32 (slotSize w))) v).setReg .esp
        (t.regs.esp - BitVec.ofNat 32 (slotSize w))) w b =
      readSlot (writeSlot { t with freeCount := n } w
      (t.sregs.ss.desc.base + (t.regs.esp - BitVec.ofNat 32 (slotSize w))) v) w b := fun _ => rfl
  refine ⟨?_, ?_, ?_⟩
  · obtain ⟨m, k, rfl⟩ := h.state
    rw [hsum]
    cases w
    · exact ⟨_, n, rfl⟩
    · exact ⟨_, n, rfl⟩
  · intro i x hi
    rw [hread]
    show readSlot _ w (slotAt (s.sregs.ss.desc.base + (t.regs.esp - BitVec.ofNat 32 (slotSize w))) w i) = _
    rw [hss]
    cases i with
    | zero =>
      obtain rfl : v = x := by simpa using hi
      simp only [slotAt, Nat.mul_zero]
      rw [show s.sregs.ss.desc.base + (t.regs.esp - BitVec.ofNat 32 (slotSize w)) + BitVec.ofNat 32 0 =
        s.sregs.ss.desc.base + (t.regs.esp - BitVec.ofNat 32 (slotSize w)) by bv_omega]
      exact readSlot_writeSlot _ _ _ _
    | succ i =>
      have hi' : vs[i]? = some x := by simpa using hi
      have hlt : i < vs.length := by
        have := List.getElem?_eq_some_iff.1 hi'; exact this.1
      have key : slotAt (s.sregs.ss.desc.base + (t.regs.esp - BitVec.ofNat 32 (slotSize w))) w (i + 1) =
          slotAt (s.sregs.ss.desc.base + t.regs.esp) w i := by
        simp only [slotAt]
        rcases hw with e | e <;> rw [e] <;> bv_omega
      rw [key, readSlot_writeSlot_outside, ← h.items i x hi']
      · rfl
      · simp only [slotAt]
        rcases hw with e | e <;> rw [e] <;> bv_omega
      · simp only [slotAt]
        rcases hw with e | e <;> rw [e] <;> bv_omega
  · intro x hx
    have hx' : slotSize w * (v :: vs).length ≤
        (x - (s.sregs.ss.desc.base + (t.regs.esp - BitVec.ofNat 32 (slotSize w)))).toNat := hx
    rw [List.length_cons] at hx'
    show (writeSlot { t with freeCount := n } w
      (t.sregs.ss.desc.base + (t.regs.esp - BitVec.ofNat 32 (slotSize w))) v).byteAt x = _
    rw [hss, byteAt_writeSlot_outside]
    · exact h.memory x (by rcases hw with e | e <;> rw [e] at hx' ⊢ <;> bv_omega)
    · rcases hw with e | e <;> rw [e] at hx' ⊢ <;> omega

theorem pushItem_slot {w : Bool} {e : Exn} {s : State} {v : Word}
    (h : s.sregs.ss.desc.permits (s.regs.esp - BitVec.ofNat 32 (slotSize w)) (slotSize w) true = true) :
    pushItem w e s v = .ok ((writeSlot s w
      (s.sregs.ss.desc.base + (s.regs.esp - BitVec.ofNat 32 (slotSize w))) v).setReg .esp
        (s.regs.esp - BitVec.ofNat 32 (slotSize w))) := by
  cases w
  · exact (push16_ok _ _ _ _).2 ⟨h, rfl⟩
  · exact (push32_ok _ _ _ _).2 ⟨h, rfl⟩

/-- A selector pushed: an item whose low half is the selector (R143). -/
theorem pushSelector_slot {w : Bool} {e : Exn} {s : State} {sel : Half}
    (h : s.sregs.ss.desc.permits (s.regs.esp - BitVec.ofNat 32 (slotSize w)) (slotSize w) true = true) :
    ∃ n x, x.extractLsb' 0 16 = sel ∧
      pushSelector w e s sel = .ok ((writeSlot { s with freeCount := n } w
        (s.sregs.ss.desc.base + (s.regs.esp - BitVec.ofNat 32 (slotSize w))) x).setReg .esp
          (s.regs.esp - BitVec.ofNat 32 (slotSize w))) := by
  cases w
  · refine ⟨s.freeCount, sel.setWidth 32, ?_, ?_⟩
    · refine BitVec.eq_of_getLsbD_eq fun i hi => ?_
      simp [hi, show i < 32 by omega]
    · rw [pushSelector, if_neg (by simp), push16_ok]
      refine ⟨h, ?_⟩
      have : (BitVec.setWidth 32 sel).extractLsb' 0 16 = sel := by
        refine BitVec.eq_of_getLsbD_eq fun i hi => ?_
        simp [hi, show i < 32 by omega]
      simp [writeSlot, this, slotSize]
  · refine ⟨s.freeCount + 1, (Config.freeSlotHalf s.freeCount ++ sel : BitVec (16 + 16)), ?_, ?_⟩
    · refine BitVec.eq_of_getLsbD_eq fun i hi => ?_
      rw [BitVec.getLsbD_extractLsb', BitVec.getLsbD_append]
      simp only [hi, decide_true, Bool.true_and, Nat.zero_add, if_true]
    · exact (push32_ok _ _ _ _).2 ⟨h, rfl⟩

theorem Stacked.pushItem {s t : State} {w : Bool} {vs : List Word} {v : Word} (e : Exn)
    (h : Stacked s t w vs) {n : Nat} (hn : n ≤ 8) (hlt : vs.length < n)
    (hr : RoomFor s.sregs.ss.desc s.regs.esp w n) :
    ∃ u, Machine.pushItem w e t v = .ok u ∧ Stacked s u w (v :: vs) := by
  have hp := hr (vs.length + 1) (by omega) (by omega)
  have hw : slotSize w = 4 ∨ slotSize w = 2 := by cases w <;> simp [slotSize]
  have he : t.regs.esp - BitVec.ofNat 32 (slotSize w) =
      s.regs.esp - BitVec.ofNat 32 (slotSize w * (vs.length + 1)) := by
    rw [h.esp]; rcases hw with e | e <;> rw [e] <;> bv_omega
  exact ⟨_, pushItem_slot (by rw [h.ss, he]; exact hp), h.push (by omega) ⟨t.freeCount, rfl⟩⟩

theorem Stacked.pushSelector {s t : State} {w : Bool} {vs : List Word} {sel : Half} (e : Exn)
    (h : Stacked s t w vs) {n : Nat} (hn : n ≤ 8) (hlt : vs.length < n)
    (hr : RoomFor s.sregs.ss.desc s.regs.esp w n) :
    ∃ u x, Machine.pushSelector w e t sel = .ok u ∧ x.extractLsb' 0 16 = sel ∧
      Stacked s u w (x :: vs) := by
  have hp := hr (vs.length + 1) (by omega) (by omega)
  have hw : slotSize w = 4 ∨ slotSize w = 2 := by cases w <;> simp [slotSize]
  have he : t.regs.esp - BitVec.ofNat 32 (slotSize w) =
      s.regs.esp - BitVec.ofNat 32 (slotSize w * (vs.length + 1)) := by
    rw [h.esp]; rcases hw with e | e <;> rw [e] <;> bv_omega
  obtain ⟨k, x, hx, hpush⟩ := pushSelector_slot (w := w) (e := e) (s := t) (sel := sel)
    (by rw [h.ss, he]; exact hp)
  exact ⟨_, x, hpush, hx, h.push (by omega) ⟨k, rfl⟩⟩

/-- EFLAGS, CS, EIP and the error code on top of what is there already. -/
theorem Stacked.pushFrame {s t : State} {w : Bool} {vs : List Word} (e : Exn) (flags : Word)
    (cs : Half) (ret : Word) (err : Option Word) (h : Stacked s t w vs) {n : Nat} (hn : n ≤ 8)
    (hlt : vs.length + frameItems err ≤ n) (hr : RoomFor s.sregs.ss.desc s.regs.esp w n) :
    ∃ u x, Machine.pushFrame t w e flags cs ret err = .ok u ∧ x.extractLsb' 0 16 = cs ∧
      Stacked s u w (err.toList ++ ret :: x :: flags :: vs) := by
  have h3 : vs.length + 3 ≤ n := by cases err <;> simp [frameItems] at hlt <;> omega
  obtain ⟨u1, p1, s1⟩ := h.pushItem (v := flags) e hn (by omega) hr
  obtain ⟨u2, x, p2, hx, s2⟩ := s1.pushSelector (sel := cs) e hn (by simp; omega) hr
  obtain ⟨u3, p3, s3⟩ := s2.pushItem (v := ret) e hn (by simp; omega) hr
  cases err with
  | none =>
    refine ⟨u3, x, ?_, hx, s3⟩
    simp [Machine.pushFrame, p1, p2, p3, bind, Except.bind, pure, Except.pure]
  | some c =>
    obtain ⟨u4, p4, s4⟩ := s3.pushItem (v := c) e hn (by simp [frameItems] at hlt ⊢; omega) hr
    refine ⟨u4, x, ?_, hx, s4⟩
    simp [Machine.pushFrame, p1, p2, p3, p4, bind, Except.bind]

/-- The items pushed, read as the frame of R143. -/
theorem frame_of_stacked {s t : State} {w : Bool} {flags ret x : Word} {cs : Half}
    {err : Option Word} {vs : List Word} (hx : x.extractLsb' 0 16 = cs)
    (h : Stacked s t w (err.toList ++ ret :: x :: flags :: vs)) :
    FrameAt t w (s.sregs.ss.desc.base + t.regs.esp) ret cs flags err := by
  cases err with
  | none =>
    refine ⟨by simp, h.items 0 ret (by simp), ?_, h.items 2 flags (by simp)⟩
    rw [read16_eq_readSlot t w, ← hx, ← slotValue_low w x]
    exact congrArg _ (h.items 1 x (by simp))
  | some c =>
    refine ⟨fun e he => ?_, h.items 1 ret (by simp), ?_, h.items 3 flags (by simp)⟩
    · obtain rfl : c = e := by simpa using he
      simpa [slotAt] using h.items 0 c (by simp)
    · rw [read16_eq_readSlot t w, ← hx, ← slotValue_low w x]
      exact congrArg _ (h.items 2 x (by simp))

/-- Eight bytes that lie outside what was stored read as before. -/
theorem read64_of_outside {s t : State} {a b : Word} {n : Nat} (h : SameMemoryOutside s t a n)
    (hb : ∀ k, k < 8 → n ≤ (b + BitVec.ofNat 32 k - a).toNat) : t.read64 b = s.read64 b := by
  have e : ∀ k, k < 8 → t.byteAt (b + BitVec.ofNat 32 k) = s.byteAt (b + BitVec.ofNat 32 k) :=
    fun k hk => h _ (hb k hk)
  have f : ∀ (c : Word) (k : Nat), c = b + BitVec.ofNat 32 k → k < 8 → t.byteAt c = s.byteAt c :=
    fun c k hc hk => hc ▸ e k hk
  simp only [State.read64, State.read32]
  rw [f b 0 (by bv_omega) (by omega), f (b + 1) 1 rfl (by omega), f (b + 2) 2 rfl (by omega),
    f (b + 3) 3 rfl (by omega), f (b + 4) 4 rfl (by omega), f (b + 4 + 1) 5 (by bv_omega) (by omega),
    f (b + 4 + 2) 6 (by bv_omega) (by omega), f (b + 4 + 3) 7 (by bv_omega) (by omega)]

/-! ### Deliveries, stage by stage -/

theorem selIsNull_false {x : Half} (h : x &&& 0xFFFC ≠ 0) : selIsNull x = false := by
  simpa [selIsNull] using h

theorem GateReady.stages {s : State} {v : Byte} {k : EventKind} {g : Gate} (h : GateReady s v k g) :
    idtGate s v k.ext = .ok g ∧ checkGate s g v k = .ok () :=
  ⟨(idtGate_ok _ _ _ _).2 ⟨by simpa [State.idtHas] using h.table, h.gate⟩,
    (checkGate_ok _ _ _ _ _).2 ⟨h.level, h.present⟩⟩

theorem HandlerReady.stage {s : State} {g : Gate} {d : SegDescriptor} (h : HandlerReady s g d)
    (ext : Word) : handlerSegment s g ext = .ok d :=
  (handlerSegment_ok _ _ _ _).2
    ⟨selIsNull_false h.notNull, h.descriptor, h.code, h.level, h.present, h.entry⟩

/-- The level in the CS of a handler (R138). -/
theorem selWithRpl_low (sel : Half) (l : BitVec 2) :
    ((sel &&& 0xFFFC) ||| l.setWidth 16).extractLsb' 0 2 = l := by
  refine BitVec.eq_of_getLsbD_eq fun i hi => ?_
  interval_cases i <;> simp

theorem frameItems_le (err : Option Word) : frameItems err ≤ 4 := by
  cases err <;> simp [frameItems]

/-- The stages of a delivery to the same level (R142). -/
theorem SameLevelReady.stages {s : State} {v : Byte} {k : EventKind} {g : Gate} {d : SegDescriptor}
    {err : Option Word} (h : SameLevelReady s v k g d err) (cs : Half) (ret : Word) :
    ∃ u x, x.extractLsb' 0 16 = cs ∧
      Stacked s u g.wide (err.toList ++ ret :: x :: s.eflags :: []) ∧
      deliver s v k err cs ret = .ok (endDelivery (enterHandler u g d s.cpl) k) := by
  obtain ⟨h1, h2⟩ := h.gate.stages
  have hsw : switchesStack s d = false := by rcases h.level with e | e <;> simp [switchesStack, e]
  have hlv : handlerLevel s d = s.cpl := by rcases h.level with e | e <;> simp [handlerLevel, e]
  obtain ⟨u, x, p, hx, st⟩ := (Stacked.refl s g.wide).pushFrame (ssExn k.ext) s.eflags cs ret err
    (n := frameItems err) (by have := frameItems_le err; omega) (by simp) h.room
  refine ⟨u, x, hx, st, (deliver_ok _ _ _ _ _ _ _).2 ⟨h.runs, g, _, h1, h2, ?_, rfl⟩⟩
  rw [if_neg h.handler.procedure]
  exact (throughGate_ok _ _ _ _ _ _ _).2
    ⟨d, (s, ssExn k.ext), u, h.handler.stage _, by simp [frameStack, hsw], p, by rw [hlv]⟩

/-- The stages of a delivery to a more privileged level (R141): the pushes start on the stack of the
TSS. -/
theorem InnerLevelReady.stages {s : State} {v : Byte} {k : EventKind} {g : Gate}
    {d ds : SegDescriptor} {err : Option Word} (h : InnerLevelReady s v k g d ds err) (cs : Half)
    (ret : Word) :
    ∃ u x y, x.extractLsb' 0 16 = cs ∧ y.extractLsb' 0 16 = s.sregs.ss.sel ∧
      Stacked ((s.setSS ⟨tssSs s d.dpl, ds⟩).setReg .esp (tssEsp s d.dpl)) u g.wide
        (err.toList ++ ret :: x :: s.eflags :: s.regs.esp :: y :: []) ∧
      deliver s v k err cs ret = .ok (endDelivery (enterHandler u g d d.dpl) k) := by
  obtain ⟨h1, h2⟩ := h.gate.stages
  have hsw : switchesStack s d = true := by simp [switchesStack, h.nonconforming, h.level]
  have hlv : handlerLevel s d = d.dpl := by simp [handlerLevel, h.nonconforming]
  have hn : frameItems err + 2 ≤ 8 := by have := frameItems_le err; omega
  have hroom : RoomFor ((s.setSS ⟨tssSs s d.dpl, ds⟩).setReg .esp (tssEsp s d.dpl)).sregs.ss.desc
      ((s.setSS ⟨tssSs s d.dpl, ds⟩).setReg .esp (tssEsp s d.dpl)).regs.esp g.wide
      (frameItems err + 2) := h.room
  obtain ⟨u1, y, p1, hy, st1⟩ := (Stacked.refl _ g.wide).pushSelector (sel := s.sregs.ss.sel)
    (ssExn (selCode (tssSs s d.dpl) k.ext)) hn (by simp) hroom
  obtain ⟨u2, p2, st2⟩ := st1.pushItem (v := s.regs.esp)
    (ssExn (selCode (tssSs s d.dpl) k.ext)) hn (by simp) hroom
  obtain ⟨u, x, p, hx, st⟩ := st2.pushFrame (ssExn (selCode (tssSs s d.dpl) k.ext)) s.eflags cs ret err
    hn (by simp; omega) hroom
  refine ⟨u, x, y, hx, hy, st, (deliver_ok _ _ _ _ _ _ _).2 ⟨h.runs, g, _, h1, h2, ?_, rfl⟩⟩
  rw [if_neg h.handler.procedure]
  refine (throughGate_ok _ _ _ _ _ _ _).2
    ⟨d, (u2, ssExn (selCode (tssSs s d.dpl) k.ext)), u, h.handler.stage _, ?_, p, by rw [hlv]⟩
  rw [frameStack, if_pos hsw, innerStack_ok]
  exact ⟨tssSs s d.dpl, tssEsp s d.dpl, ds, u1, (tssStack_ok _ _ _ _).2 ⟨h.tss, h.tssLimit, rfl⟩,
    (handlerStackSegment_ok _ _ _ _ _).2 ⟨selIsNull_false h.notNull, h.stack, h.stackRpl,
      h.stackWritable, h.stackDpl, h.stackPresent⟩, p1, p2, rfl⟩

end Sys2Proof.Machine
end

