-- ==== Sys2Proof/Laws/PerInstr.lean ====
section
/-! SUPPORT. Per instruction: the encoder writes as many bytes as WellFormed counts (30_encoding.md
R50). -/

namespace Sys2Proof.Laws

theorem Disp.bytes_length (d : Disp) : d.bytes.length = d.size := by cases d <;> rfl

theorem MemOperand.bytes_length (g : BitVec 3) (m : MemOperand) : (m.bytes g).length = m.size := by
  cases m <;> simp [MemOperand.bytes, MemOperand.size, Disp.bytes_length, bytes32] <;> omega

namespace Length

/-- The encoding of an instruction has its size. -/
def Statement (i : Instr) : Prop := i.length = i.size

theorem intN (p : List Prefix) (n : Byte) : Statement (.intN p n) := by
  simp [Statement, Instr.length, encode, Instr.prefixes, Instr.body, Instr.size]

theorem int3 (p : List Prefix) : Statement (.int3 p) := by
  simp [Statement, Instr.length, encode, Instr.prefixes, Instr.body, Instr.size]

theorem into (p : List Prefix) : Statement (.into p) := by
  simp [Statement, Instr.length, encode, Instr.prefixes, Instr.body, Instr.size]

theorem bound32 (p : List Prefix) (r : Reg) (m : MemOperand) : Statement (.bound32 p r m) := by
  simp [Statement, Instr.length, encode, Instr.prefixes, Instr.body, Instr.size,
    MemOperand.bytes_length]; omega

theorem bound16 (p : List Prefix) (r : Reg) (m : MemOperand) : Statement (.bound16 p r m) := by
  simp [Statement, Instr.length, encode, Instr.prefixes, Instr.body, Instr.size,
    MemOperand.bytes_length]; omega

theorem iretd (p : List Prefix) : Statement (.iretd p) := by
  simp [Statement, Instr.length, encode, Instr.prefixes, Instr.body, Instr.size]

theorem iret (p : List Prefix) : Statement (.iret p) := by
  simp [Statement, Instr.length, encode, Instr.prefixes, Instr.body, Instr.size]

theorem sti (p : List Prefix) : Statement (.sti p) := by
  simp [Statement, Instr.length, encode, Instr.prefixes, Instr.body, Instr.size]

theorem cli (p : List Prefix) : Statement (.cli p) := by
  simp [Statement, Instr.length, encode, Instr.prefixes, Instr.body, Instr.size]

theorem pushfd (p : List Prefix) : Statement (.pushfd p) := by
  simp [Statement, Instr.length, encode, Instr.prefixes, Instr.body, Instr.size]

theorem pushf (p : List Prefix) : Statement (.pushf p) := by
  simp [Statement, Instr.length, encode, Instr.prefixes, Instr.body, Instr.size]

theorem popfd (p : List Prefix) : Statement (.popfd p) := by
  simp [Statement, Instr.length, encode, Instr.prefixes, Instr.body, Instr.size]

theorem popf (p : List Prefix) : Statement (.popf p) := by
  simp [Statement, Instr.length, encode, Instr.prefixes, Instr.body, Instr.size]

theorem lidt (p : List Prefix) (m : MemOperand) : Statement (.lidt p m) := by
  simp [Statement, Instr.length, encode, Instr.prefixes, Instr.body, Instr.size,
    MemOperand.bytes_length]; omega

theorem sidt (p : List Prefix) (m : MemOperand) : Statement (.sidt p m) := by
  simp [Statement, Instr.length, encode, Instr.prefixes, Instr.body, Instr.size,
    MemOperand.bytes_length]; omega

theorem movSS (p : List Prefix) (src : RM16) : Statement (.movSS p src) := by
  cases src <;> simp [Statement, Instr.length, encode, Instr.prefixes, Instr.body, Instr.size,
    MemOperand.bytes_length]
  all_goals omega

theorem popSS (p : List Prefix) : Statement (.popSS p) := by
  simp [Statement, Instr.length, encode, Instr.prefixes, Instr.body, Instr.size]

theorem lss (p : List Prefix) (r : Reg) (m : MemOperand) : Statement (.lss p r m) := by
  simp [Statement, Instr.length, encode, Instr.prefixes, Instr.body, Instr.size,
    MemOperand.bytes_length]; omega

end Length

end Sys2Proof.Laws
end

