-- ==== Sys2Proof/Laws/Returns.lean ====
section
/-! SUPPORT. Returns from a handler (43_iret.md): the items IRET reads, the flags it restores and the
checks on the popped CS, in terms of Safety. -/

namespace Sys2Proof.Machine

/-- The offsets procedureReturn reads at are the items' (R73). -/
theorem item_off (w : Bool) (k : Nat) (esp : Word) (hk : k < 6) :
    esp + BitVec.ofNat 32 k * itemSize w = slotAt esp w k := by
  cases w <;> simp only [itemSize, slotAt, slotSize] <;> simp only [Bool.false_eq_true, if_true, if_false] <;> congr 1 <;>
   (interval_cases k <;> rfl)

/-- A readable item reads as the item of Safety. -/
theorem stackItem_slot {s : State} {w : Bool} {n k : Nat} (h : StackReadable s w n) (hk : k < n) :
    stackItem w s (slotAt s.regs.esp w k) = .ok (stackSlot s w k) := by
  refine (stackItem_ok _ _ _ _).2 ⟨?_, ?_⟩
  · have := h k hk; cases w <;> exact this
  · cases w <;> rfl

/-- The three items IRET reads (R73). -/
theorem returnItems_slot {s : State} {w : Bool} (h : StackReadable s w 3) :
    returnItems s w = .ok (stackSlot s w 0, (stackSlot s w 1).extractLsb' 0 16, poppedFlags s w) := by
  have e0 : s.regs.esp = slotAt s.regs.esp w 0 := by simp [slotAt]
  have e1 : s.regs.esp + itemSize w = slotAt s.regs.esp w 1 := by
    rw [← item_off w 1 _ (by omega)]; cases w <;> rfl
  have e2 : s.regs.esp + 2 * itemSize w = slotAt s.regs.esp w 2 := by
    rw [← item_off w 2 _ (by omega)]; rfl
  have h0 := stackItem_slot h (k := 0) (by omega)
  have h1 := stackItem_slot h (k := 1) (by omega)
  have h2 := stackItem_slot h (k := 2) (by omega)
  rw [← e0] at h0
  unfold returnItems
  simp only [e1, e2, h0, h1, h2, bind, Except.bind, pure, Except.pure]
  cases w <;> rfl

/-- What holding IOPL and IF back leaves, flag by flag (R68, R74). -/
theorem flag_holdPrivileged (cur img : Word) (cpl : BitVec 2) (j : Nat) (hj : j < 32) :
    flag (holdPrivileged cur img cpl) j =
      if j = 12 ∨ j = 13 then (if cpl = 0 then flag img j else flag cur j)
      else if j = 9 then (if cpl ≤ ioplOf cur then flag img j else flag cur j)
      else flag img j := by
  have hi : ∀ (f : Word) (v : BitVec 2), flag (setIopl f v) 12 = v.getLsbD 0 ∧ flag (setIopl f v) 13 = v.getLsbD 1 := by
    intro f v
    have := ioplOf_setIopl f v
    constructor
    · have := congrArg (fun x => BitVec.getLsbD x 0) this
      simpa [ioplOf, flag] using this
    · have := congrArg (fun x => BitVec.getLsbD x 1) this
      simpa [ioplOf, flag] using this
  have hc : (ioplOf cur).getLsbD 0 = flag cur 12 ∧ (ioplOf cur).getLsbD 1 = flag cur 13 := by
    constructor <;> simp [ioplOf, flag]
  unfold holdPrivileged
  by_cases h0 : cpl = 0
  · subst h0
    have : (0 : BitVec 2) ≤ ioplOf cur := by rw [BitVec.le_def]; simp
    simp only [if_true, this]
    by_cases h12 : j = 12 <;> by_cases h13 : j = 13 <;> by_cases h9 : j = 9 <;> simp [h12, h13, h9]
  · simp only [h0, if_false]
    split
    · next hle =>
      by_cases h12 : j = 12
      · subst h12; rw [(hi _ _).1, hc.1]; simp
      by_cases h13 : j = 13
      · subst h13; rw [(hi _ _).2, hc.2]; simp
      rw [flag_setIopl _ _ _ h12 h13]; simp [h12, h13]
    · next hle =>
      rw [flag_setFlag _ _ _ _ (by decide)]
      by_cases h12 : j = 12
      · subst h12; rw [(hi _ _).1, hc.1]; simp
      by_cases h13 : j = 13
      · subst h13; rw [(hi _ _).2, hc.2]; simp
      rw [flag_setIopl _ _ _ h12 h13]
      by_cases h9 : j = 9 <;> simp [h12, h13, h9]

/-- MergeFlags is bit by bit what R74 says. -/
theorem mergeFlags_iretFlags (cur img : Word) (cpl : BitVec 2) :
    IretFlags cur img cpl (mergeFlags cur img cpl) := by
  intro j hj
  show flag (mergeFlags cur img cpl) j = _
  have hh := flag_holdPrivileged cur img cpl j hj
  unfold mergeFlags
  rw [flag_fixReserved]
  by_cases h1 : j = 1
  · simp [h1]
  simp only [h1, decide_false, Bool.or_false, if_false]
  have e : ∀ x : Word, x.getLsbD j = flag x j := fun _ => rfl
  simp only [e]
  cases hd : flag definedFlags j
  · simp
  · simp only [Bool.and_true]
    by_cases h0 : cpl = 0
    · simp only [h0, if_true] at hh ⊢
      rw [hh]; simp
    · simp only [h0, if_false] at hh ⊢
      rw [flag_setFlag _ _ _ _ (by decide), hh]
      by_cases h17 : j = 17
      · subst h17; simp
      · simp [h17]

theorem rpl_low (s : State) (w : Bool) (k : Nat) :
    selRpl ((stackSlot s w k).extractLsb' 0 16) = (stackSlot s w k).extractLsb' 0 2 := by
  refine BitVec.eq_of_getLsbD_eq fun i hi => ?_
  simp [selRpl, hi]

/-- The popped CS and EIP have no fault (R80). -/
theorem ReturnReady.segment {s : State} {w : Bool} {d : SegDescriptor} (rr : ReturnReady s w d) :
    returnCodeFaults s ((stackSlot s w 1).extractLsb' 0 16) = [] ∧
      returnEntryFaults s ((stackSlot s w 1).extractLsb' 0 16) (stackSlot s w 0) = [] := by
  have hl : selRpl ((stackSlot s w 1).extractLsb' 0 16) = (stackSlot s w 1).extractLsb' 0 2 :=
    rpl_low s w 1
  have hd := rr.dpl
  constructor
  · simp only [returnCodeFaults, selIsNull_false rr.notNull, rr.descriptor, hl, Bool.false_eq_true,
      if_false]
    cases hc : d.isConforming <;>
      simp [hc] at hd <;> simp [failing_nil, rr.code, rr.rpl, rr.present, hd]
  · simp [returnEntryFaults, rr.descriptor, failing_nil, rr.entry]

/-- The image is none of a return to virtual-8086 mode (D27). -/
theorem ReturnReady.notVirtual {s : State} {w : Bool} {d : SegDescriptor}
    (rr : ReturnReady s w d) : (w && flag (poppedFlags s w) vmBit && s.cpl == 0) = false := by
  have := rr.notVirtual8086
  cases w
  · rfl
  · by_cases h0 : s.cpl = 0
    · have h1 := this rfl h0
      have : flag (poppedFlags s true) vmBit = false := by
        unfold poppedFlags flag; rw [if_pos rfl]; exact h1
      rw [this]; rfl
    · have : (s.cpl == 0) = false := by simpa using h0
      rw [this]; simp

theorem restored_low (w : Bool) (x : Word) (h : Half) :
    (restored w x h).extractLsb' 0 16 = x.extractLsb' 0 16 := by
  cases w
  · refine BitVec.eq_of_getLsbD_eq fun i hi => ?_
    rw [BitVec.getLsbD_extractLsb']
    simp only [restored, Bool.false_eq_true, if_false, hi, decide_true, Bool.true_and, Nat.zero_add]
    rw [BitVec.getLsbD_append]
    simp only [hi, if_true, BitVec.getLsbD_extractLsb', decide_true, Bool.true_and, Nat.zero_add]
  · rfl

/-- The two forms of IRET with NT = 0 (R72). -/
theorem exec_iret {s : State} {i : Instr} {w : Bool} (hr : s.Runs) (hnt : s.flagNT = false)
    (hi : iretSize i = some w) :
    exec i s = conclude { s with nmiBlocked := false } (do
     let t ← procedureReturn { s with nmiBlocked := false } w
     pure t.settle) := by
  cases i <;> simp [iretSize] at hi <;> subst hi <;>
   simp [exec, execIretd, execIret, returnFromHandler, hr.1, hr.2, hnt]

end Sys2Proof.Machine
end

