-- ==== Sys2Proof/Laws/Step.lean ====
section
/-! SUPPORT. What a taken event, an instruction and a step can change: said once, for every invariant
of the machine. -/

namespace Sys2Proof.Machine

/-- What no event and no instruction touches, and the two parts of a legal state they keep. -/
structure Kept (s t : State) : Prop where
  gdtr : t.gdtr = s.gdtr
  mode : t.mode = s.mode
  nmiPending : t.nmiPending = s.nmiPending
  nmiHeld : t.nmiHeld = s.nmiHeld
  apic : t.apic = s.apic
  params : t.params = s.params
  env : t.env = s.env
  wf : s.mem.wf = true → t.mem.wf = true
  flags : s.flagsOk → t.flagsOk

theorem Kept.refl (s : State) : Kept s s := ⟨rfl, rfl, rfl, rfl, rfl, rfl, rfl, id, id⟩

theorem Kept.trans {s t u : State} (h : Kept s t) (k : Kept t u) : Kept s u :=
  ⟨k.gdtr.trans h.gdtr, k.mode.trans h.mode, k.nmiPending.trans h.nmiPending, k.nmiHeld.trans h.nmiHeld, k.apic.trans h.apic,
    k.params.trans h.params, k.env.trans h.env, k.wf ∘ h.wf, k.flags ∘ h.flags⟩

theorem Carried.kept {s t : State} (h : Carried s t) : Kept s t :=
  ⟨h.gdtr, h.mode, h.nmiPending, h.nmiHeld, h.apic, h.params, h.env, h.wf, h.flags⟩

theorem Kept.retire (s : State) (i : Instr) : Kept s (s.retire i) :=
  ⟨rfl, rfl, rfl, rfl, rfl, rfl, rfl, id, id⟩

theorem Kept.write16 (s : State) (a : Word) (v : Half) : Kept s (s.write16 a v) :=
  ⟨rfl, rfl, rfl, rfl, rfl, rfl, rfl, write16_wf s a v, id⟩

theorem Kept.write32 (s : State) (a v : Word) : Kept s (s.write32 a v) :=
  ⟨rfl, rfl, rfl, rfl, rfl, rfl, rfl, write32_wf s a v, id⟩

/-- An event was taken: a delivery completed, or the processor entered shutdown. -/
structure Taken (s t : State) : Prop where
  kept : Kept s t
  idtr : t.idtr = s.idtr
  shutdown : t.shutdown = s.shutdown ∨ t.shutdown = true
  moved : t.deliveries = s.deliveries + 1 ∨ t.shutdown = true

/-- What a delivery changes of the hidden state (R146 step 13). -/
theorem deliver_taken {s t : State} {v : Byte} {k : EventKind} {err : Option Word} {c : Half}
    {r : Word} (h : deliver s v k err c r = .ok t) :
    Taken s t ∧ t.nmiBlocked = (s.nmiBlocked || k == .nmi) ∧ t.eventInhibit = false := by
  obtain ⟨u, hc, rfl⟩ := deliver_carried h
  refine ⟨⟨⟨hc.gdtr, hc.mode, hc.nmiPending, hc.nmiHeld, hc.apic, hc.params, hc.env, hc.wf, hc.flags⟩, hc.idtr,
    Or.inl hc.shutdown, Or.inl ?_⟩, ?_, rfl⟩
  · show u.deliveries + 1 = _; rw [hc.deliveries]
  · show (u.nmiBlocked || k == .nmi) = _; rw [hc.nmiBlocked]

theorem Taken.of_free {s t : State} {n : Nat} (h : Taken { s with freeCount := n } t) : Taken s t :=
  ⟨⟨h.kept.gdtr, h.kept.mode, h.kept.nmiPending, h.kept.nmiHeld, h.kept.apic, h.kept.params, h.kept.env, h.kept.wf,
    h.kept.flags⟩, h.idtr, h.shutdown, h.moved⟩

theorem takeDoubleFault_taken {s t : State} (h : takeDoubleFault s = .next t) :
    Taken s t ∧ t.nmiBlocked = s.nmiBlocked := by
  simp only [takeDoubleFault] at h
  split at h
  · next u hu =>
    obtain rfl : u = t := by simpa using h
    obtain ⟨ht, hn, -⟩ := deliver_taken hu
    exact ⟨ht.of_free, by rw [hn]; simp⟩
  · obtain rfl : { s.settle with shutdown := true } = t := by simpa using h
    exact ⟨⟨⟨rfl, rfl, rfl, rfl, rfl, rfl, rfl, id, id⟩, rfl, Or.inr rfl, Or.inr rfl⟩, rfl⟩
  · cases h

theorem takeNested_taken {s t : State} {v : Byte} {e : Exn} {r : Word}
    (h : takeNested s v e r = .next t) : Taken s t ∧ t.nmiBlocked = s.nmiBlocked := by
  unfold takeNested at h
  split at h
  · cases h
  · split at h
    · exact takeDoubleFault_taken h
    · split at h
      · next u hu =>
        obtain rfl : u = t := by simpa using h
        obtain ⟨ht, hn, -⟩ := deliver_taken hu
        exact ⟨ht, by rw [hn]; simp⟩
      · exact takeDoubleFault_taken h
      · cases h

/-- Taking an exception leaves the NMI block as it was. -/
theorem takeException_taken {s t : State} {e : Exn} {r : Word}
    (h : takeException s e r = .next t) : Taken s t ∧ t.nmiBlocked = s.nmiBlocked := by
  unfold takeException at h
  split at h
  · next u hu =>
    obtain rfl : u = t := by simpa using h
    obtain ⟨ht, hn, -⟩ := deliver_taken hu
    exact ⟨ht, by rw [hn]; simp⟩
  · exact takeNested_taken h
  · cases h

theorem takeAbort_taken {s t : State} {e : Exn} (h : takeAbort s e = .next t) :
    Taken s t ∧ t.nmiBlocked = s.nmiBlocked := by
  simp only [takeAbort] at h
  split at h
  · next u hu =>
    obtain rfl : u = t := by simpa using h
    obtain ⟨ht, hn, -⟩ := deliver_taken hu
    exact ⟨ht.of_free, by rw [hn]; simp⟩
  · exact takeNested_taken h
  · cases h

/-- Taking an interrupt blocks NMIs only where the interrupt is an NMI (R115). -/
theorem takeInterrupt_taken {s t : State} {v : Byte} {k : EventKind} {r : Word}
    (h : takeInterrupt s v k r = .next t) :
    Taken s t ∧ (t.nmiBlocked = s.nmiBlocked ∨ (k = .nmi ∧ t.nmiBlocked = true)) := by
  unfold takeInterrupt at h
  split at h
  · next u hu =>
    obtain rfl : u = t := by simpa using h
    obtain ⟨ht, hn, -⟩ := deliver_taken hu
    refine ⟨ht, ?_⟩
    rw [hn]
    cases k <;> simp
  · obtain ⟨ht, hn⟩ := takeException_taken h
    exact ⟨ht, Or.inl hn⟩
  · cases h

/-! ### Instructions -/

/-- What an instruction did: kept what no instruction touches; changed IDTR only as LIDT at CPL 0;
the NMI block only as IRET, which clears it; the shutdown only by entering it. -/
structure Executed (i : Instr) (s t : State) : Prop where
  kept : Kept s t
  idtr : t.idtr = s.idtr ∨ (s.cpl = 0 ∧ ∃ p m, i = .lidt p m)
  nmiBlocked : if (iretSize i).isSome then t.nmiBlocked = false else t.nmiBlocked = s.nmiBlocked
  shutdown : t.shutdown = s.shutdown ∨ t.shutdown = true

theorem Taken.executed {i : Instr} {s t : State} (h : Taken s t) (hn : t.nmiBlocked = s.nmiBlocked)
    (hi : (iretSize i).isSome = false) : Executed i s t :=
  ⟨h.kept, Or.inl h.idtr, by rw [hi]; exact hn, h.shutdown⟩

/-- What an instruction's body answered, with the fault it may raise instead. -/
theorem conclude_executed {i : Instr} {s t : State} {b : Except Stop State}
    (hi : (iretSize i).isSome = false) (h : inProtectedMode s (conclude s b) = .next t)
    (hb : ∀ u, b = .ok u → Executed i s u) : Executed i s t := by
  unfold inProtectedMode at h
  split at h
  · cases h
  · split at h
    · cases h
    · unfold conclude at h
      split at h
      · next u => obtain rfl : u = t := by simpa using h
                  exact hb _ rfl
      · obtain ⟨ht, hn⟩ := takeException_taken h
        exact ht.executed hn hi
      · cases h

theorem softInterrupt_executed {i : Instr} {s t : State} {v : Byte} {k : EventKind} {r : Word}
    (hi : (iretSize i).isSome = false) (hk : k ≠ .nmi)
    (h : inProtectedMode s (takeInterrupt s v k r) = .next t) : Executed i s t := by
  unfold inProtectedMode at h
  split at h
  · cases h
  · split at h
    · cases h
    · obtain ⟨ht, hn⟩ := takeInterrupt_taken h
      exact ht.executed (hn.resolve_right fun e => hk e.1) hi

/-- A body that only moved EIP, closed the windows and wrote what every instruction may write. -/
theorem Executed.of_fields {i : Instr} {s t : State} (hi : (iretSize i).isSome = false)
    (hk : Kept s t) (h1 : t.idtr = s.idtr) (h2 : t.nmiBlocked = s.nmiBlocked)
    (h3 : t.shutdown = s.shutdown) : Executed i s t :=
  ⟨hk, Or.inl h1, by rw [hi]; exact h2, Or.inl h3⟩

theorem popfdFlags_ok (cur img : Word) (c : BitVec 2) :
    fixReserved (popfdFlags cur img c) = popfdFlags cur img c := fixReserved_idem _

theorem popfFlags_ok (cur : Word) (img : Half) (c : BitVec 2) :
    fixReserved (popfFlags cur img c) = popfFlags cur img c := fixReserved_idem _

theorem returnFromHandler_executed {i : Instr} {s t : State} {w : Bool} {n : Word}
    (hi : (iretSize i).isSome = true) (h : returnFromHandler s w n = .next t) : Executed i s t := by
  unfold returnFromHandler at h
  have base : Kept s { s with nmiBlocked := false } := ⟨rfl, rfl, rfl, rfl, rfl, rfl, rfl, id, id⟩
  split at h
  · cases h
  · split at h
    · split at h
      · obtain ⟨ht, hn⟩ := takeException_taken h
        exact ⟨base.trans ht.kept, Or.inl ht.idtr, by rw [hi]; exact hn, ht.shutdown⟩
      · cases h
    · obtain ⟨b, hb, hc⟩ : ∃ b : Except Stop State, conclude { s with nmiBlocked := false } b = .next t ∧
          ∀ u, b = .ok u → ∃ x, Carried { s with nmiBlocked := false } x ∧ u = x.settle := by
        refine ⟨_, h, fun u hu => ?_⟩
        split at hu
        · obtain ⟨x, hx, he⟩ := (bind_ok _ _ _).1 hu
          exact ⟨x, taskReturn_carried hx, (pure_ok _ _).1 he⟩
        · obtain ⟨x, hx, he⟩ := (bind_ok _ _ _).1 hu
          exact ⟨x, procedureReturn_carried hx, (pure_ok _ _).1 he⟩
      unfold conclude at hb
      split at hb
      · next u =>
        obtain rfl : u = t := by simpa using hb
        obtain ⟨x, hx, rfl⟩ := hc _ rfl
        have hk := base.trans hx.kept
        exact ⟨⟨hk.gdtr, hk.mode, hk.nmiPending, hk.nmiHeld, hk.apic, hk.params, hk.env, hk.wf, hk.flags⟩,
          Or.inl hx.idtr, by rw [hi]; exact hx.nmiBlocked, Or.inl hx.shutdown⟩
      · obtain ⟨ht, hn⟩ := takeException_taken hb
        exact ⟨base.trans ht.kept, Or.inl ht.idtr, by rw [hi]; exact hn, ht.shutdown⟩
      · cases hb

theorem startInhibit_kept (s : State) (b : Bool) : Kept s (startInhibit s b) ∧
    (startInhibit s b).idtr = s.idtr ∧ (startInhibit s b).nmiBlocked = s.nmiBlocked ∧
    (startInhibit s b).shutdown = s.shutdown := by
  unfold startInhibit
  cases b <;> exact ⟨⟨rfl, rfl, rfl, rfl, rfl, rfl, rfl, id, id⟩, rfl, rfl, rfl⟩

theorem setFlag_if_ok {s : State} (b : Bool) (h : s.flagsOk) :
    fixReserved (setFlag s.eflags ifBit b) = setFlag s.eflags ifBit b :=
  fixReserved_setFlag _ _ _ rfl h

/-- What each instruction can change. -/
theorem exec_executed {i : Instr} {s t : State} (h : exec i s = .next t) : Executed i s t := by
  cases i with
  | intN p n => exact softInterrupt_executed rfl (by simp) h
  | int3 p => exact softInterrupt_executed rfl (by simp) h
  | into p =>
    by_cases ho : s.flagOF = true
    · simp only [exec, execInto, ho, if_true] at h
      exact softInterrupt_executed rfl (by simp) h
    · simp only [exec, execInto, ho] at h
      exact conclude_executed (b := .ok (s.retire (.into p))) rfl h fun u hu => by
        obtain rfl : s.retire (.into p) = u := by simpa using hu
        exact .of_fields rfl ⟨rfl, rfl, rfl, rfl, rfl, rfl, rfl, id, id⟩ rfl rfl rfl
  | bound32 p r m =>
    refine conclude_executed rfl h fun u hu => ?_
    simp only [bind_ok, pure_ok] at hu
    obtain ⟨_, -, _, -, _, -, rfl⟩ := hu
    exact .of_fields rfl ⟨rfl, rfl, rfl, rfl, rfl, rfl, rfl, id, id⟩ rfl rfl rfl
  | bound16 p r m =>
    refine conclude_executed rfl h fun u hu => ?_
    simp only [bind_ok, pure_ok] at hu
    obtain ⟨_, -, _, -, _, -, rfl⟩ := hu
    exact .of_fields rfl ⟨rfl, rfl, rfl, rfl, rfl, rfl, rfl, id, id⟩ rfl rfl rfl
  | iretd p => exact returnFromHandler_executed rfl h
  | iret p => exact returnFromHandler_executed rfl h
  | sti p =>
    refine conclude_executed rfl h fun u hu => ?_
    simp only [bind_ok, pure_ok] at hu
    obtain ⟨_, -, rfl⟩ := hu
    unfold enableInterrupts
    split
    · exact .of_fields rfl ⟨rfl, rfl, rfl, rfl, rfl, rfl, rfl, id, id⟩ rfl rfl rfl
    · exact .of_fields rfl ⟨rfl, rfl, rfl, rfl, rfl, rfl, rfl, id, setFlag_if_ok true⟩ rfl rfl rfl
  | cli p =>
    refine conclude_executed rfl h fun u hu => ?_
    simp only [bind_ok, pure_ok] at hu
    obtain ⟨_, -, rfl⟩ := hu
    exact .of_fields rfl ⟨rfl, rfl, rfl, rfl, rfl, rfl, rfl, id, setFlag_if_ok false⟩ rfl rfl rfl
  | pushfd p =>
    refine conclude_executed rfl h fun u hu => ?_
    simp only [bind_ok, pure_ok, push32_ok] at hu
    obtain ⟨_, ⟨-, rfl⟩, rfl⟩ := hu
    exact .of_fields rfl ⟨rfl, rfl, rfl, rfl, rfl, rfl, rfl, write32_wf _ _ _, id⟩ rfl rfl rfl
  | pushf p =>
    refine conclude_executed rfl h fun u hu => ?_
    simp only [bind_ok, pure_ok, push16_ok] at hu
    obtain ⟨_, ⟨-, rfl⟩, rfl⟩ := hu
    exact .of_fields rfl ⟨rfl, rfl, rfl, rfl, rfl, rfl, rfl, write16_wf _ _ _, id⟩ rfl rfl rfl
  | popfd p =>
    refine conclude_executed rfl h fun u hu => ?_
    simp only [bind_ok, pure_ok] at hu
    obtain ⟨_, -, rfl⟩ := hu
    exact .of_fields rfl ⟨rfl, rfl, rfl, rfl, rfl, rfl, rfl, id, fun _ => popfdFlags_ok _ _ _⟩ rfl rfl rfl
  | popf p =>
    refine conclude_executed rfl h fun u hu => ?_
    simp only [bind_ok, pure_ok] at hu
    obtain ⟨_, -, rfl⟩ := hu
    exact .of_fields rfl ⟨rfl, rfl, rfl, rfl, rfl, rfl, rfl, id, fun _ => popfFlags_ok _ _ _⟩ rfl rfl rfl
  | lidt p m =>
    refine conclude_executed rfl h fun u hu => ?_
    simp only [bind_ok, pure_ok, require_ok, beq_iff_eq] at hu
    obtain ⟨_, hc, _, -, _, -, rfl⟩ := hu
    exact ⟨⟨rfl, rfl, rfl, rfl, rfl, rfl, rfl, id, id⟩, Or.inr ⟨hc, p, m, rfl⟩, rfl, Or.inl rfl⟩
  | sidt p m =>
    refine conclude_executed rfl h fun u hu => ?_
    simp only [bind_ok, pure_ok, storeSeg16_ok, storeSeg32_ok] at hu
    obtain ⟨_, ⟨-, rfl⟩, _, ⟨-, rfl⟩, rfl⟩ := hu
    exact .of_fields rfl (((Kept.write16 s _ _).trans (.write32 _ _ _)).trans (.retire _ _))
      (by simp) (by simp) (by simp)
  | movSS p src =>
    refine conclude_executed rfl h fun u hu => ?_
    simp only [bind_ok, pure_ok] at hu
    obtain ⟨_, -, r, -, rfl⟩ := hu
    obtain ⟨hk, h1, h2, h3⟩ := startInhibit_kept ((s.retire (.movSS p src)).setSS r) s.eventInhibit
    exact .of_fields rfl ⟨hk.gdtr, hk.mode, hk.nmiPending, hk.nmiHeld, hk.apic, hk.params, hk.env,
      hk.wf, hk.flags⟩ h1 h2 h3
  | popSS p =>
    refine conclude_executed rfl h fun u hu => ?_
    simp only [bind_ok, pure_ok] at hu
    obtain ⟨_, -, r, -, rfl⟩ := hu
    obtain ⟨hk, h1, h2, h3⟩ := startInhibit_kept (((s.retire (.popSS p)).setSS r).setReg .esp
      (s.regs.esp + itemSize !hasOpSize p)) s.eventInhibit
    exact .of_fields rfl ⟨hk.gdtr, hk.mode, hk.nmiPending, hk.nmiHeld, hk.apic, hk.params, hk.env,
      hk.wf, hk.flags⟩ h1 h2 h3
  | lss p r m =>
    refine conclude_executed rfl h fun u hu => ?_
    split at hu
    · simp only [bind_ok, pure_ok] at hu
      obtain ⟨_, -, _, -, _, -, rfl⟩ := hu
      exact .of_fields rfl ⟨rfl, rfl, rfl, rfl, rfl, rfl, rfl, id, id⟩ rfl rfl rfl
    · simp only [bind_ok, pure_ok] at hu
      obtain ⟨_, -, _, -, _, -, rfl⟩ := hu
      exact .of_fields rfl ⟨rfl, rfl, rfl, rfl, rfl, rfl, rfl, id, id⟩ rfl rfl rfl

/-! ### Steps -/

theorem afterInstruction_next {b t : State} {o : Host.Outcome State Fault Refusal}
    (h : afterInstruction b o = .next t) :
    ∃ u, o = .next u ∧ (t = u ∨ takeException u dbExn u.eip = .next t) := by
  unfold afterInstruction at h
  split at h
  · next u =>
    refine ⟨u, rfl, ?_⟩
    split at h
    · exact Or.inr h
    · exact Or.inl (by simpa using h.symm)
  · cases h
  · cases h

/-- What becomes of the NMIs where the boundary delivers none. -/
theorem received_nmisKept (s : State) : NmisKept s s.received where
  blocked h := by simp [nmisRemembered, nmisHeld, h]
  unblocked h := by simp [nmisRemembered, nmisHeld, nmiAvailable, h]

theorem NmisKept.kept {s t u : State} (h : NmisKept s t) (k : Kept t u) : NmisKept s u where
  blocked hb := by rw [k.nmiPending, k.nmiHeld]; exact h.blocked hb
  unblocked hb := by rw [k.nmiPending, k.nmiHeld]; exact h.unblocked hb

/-- The fetch reads memory, CS and EIP only. -/
theorem fetchFrom_congr {s t : State} (hm : t.mem = s.mem) (hc : t.sregs.cs = s.sregs.cs) (n : Nat)
    (a : Word) : fetchFrom t n a = fetchFrom s n a := by
  induction n generalizing a with
  | zero => rfl
  | succ n ih => simp only [fetchFrom, hc, ih, byteAt_congr hm]

theorem fetchWindow_received (s : State) : s.received.fetchWindow = s.fetchWindow :=
  fetchFrom_congr rfl rfl _ _

theorem takeInvalidTruncated_taken {s t : State} (h : takeInvalidTruncated s = .next t) :
    Taken s t ∧ t.nmiBlocked = s.nmiBlocked := by
  unfold takeInvalidTruncated at h
  split at h <;> exact takeException_taken h

/-- The next instruction, or the exception its fetch or decoding raises. -/
theorem runNext_next {s t : State} (h : runNext s = .next t) :
    (∃ i u, decode s.fetchWindow = .instr i ∧ Executed i s u ∧
      (t = u ∨ (Taken u t ∧ t.nmiBlocked = u.nmiBlocked))) ∨
    (Taken s t ∧ t.nmiBlocked = s.nmiBlocked) := by
  unfold runNext at h
  split at h
  · split at h
    · next i hi =>
      obtain ⟨u, hu, ht⟩ := afterInstruction_next h
      exact Or.inl ⟨i, u, hi, exec_executed hu, ht.imp_right takeException_taken⟩
    · exact Or.inr (takeException_taken h)
    · exact Or.inr (takeException_taken h)
    · exact Or.inr (takeInvalidTruncated_taken h)
    · cases h
  · cases h

/-- The cases of a step that goes on: a hardware reset, the wait in shutdown, an NMI, another event,
the next instruction. -/
theorem step_next {s t : State} (h : step s = .next t) :
    (s.input.reset = true ∧ t = hardwareReset s.received) ∨
    (s.input.reset = false ∧ s.mode = .protectedMode ∧
      ((s.shutdown = true ∧ t = s.received) ∨
       (nmiDeliverable s = true ∧ takeNmi s = .next t) ∨
       (s.shutdown = false ∧ Taken s.received t ∧ t.nmiBlocked = s.received.nmiBlocked) ∨
       (s.shutdown = false ∧ runNext s.received = .next t))) := by
  unfold step boundary at h
  split at h
  · next hr => exact Or.inl ⟨hr, by simpa using h.symm⟩
  · next hr =>
    have hr' : s.input.reset = false := by simpa using hr
    refine Or.inr ⟨hr', ?_⟩
    split at h
    · cases h
    · next hm =>
      refine ⟨hm, ?_⟩
      unfold serveBoundary at h
      simp only at h
      split at h
      · next hs =>
        split at h
        · next hn => exact Or.inr (Or.inl ⟨hn, h⟩)
        · exact Or.inl ⟨hs, by simpa using h.symm⟩
      · next hs =>
        have hs' : s.shutdown = false := by simpa using hs
        split at h
        · obtain ⟨a, b⟩ := takeAbort_taken h
          exact Or.inr (Or.inr (Or.inl ⟨hs', a, b⟩))
        · split at h
          · obtain ⟨a, b⟩ := takeException_taken h
            exact Or.inr (Or.inr (Or.inl ⟨hs', a, b⟩))
          · split at h
            · next hn => exact Or.inr (Or.inl ⟨hn, h⟩)
            · split at h
              · have key : ∀ l, (∀ x ∈ l, x.1 ≠ EventKind.nmi) → takeMaskable s.received l = .next t →
                    l ≠ [] → Taken s.received t ∧ t.nmiBlocked = s.received.nmiBlocked := by
                  intro l hl hk hne
                  match l, hl, hk, hne with
                  | [], _, _, hne => exact absurd rfl hne
                  | [(k, v)], hl, hk, _ =>
                    obtain ⟨a, b⟩ := takeInterrupt_taken hk
                    exact ⟨a, b.resolve_right fun e => hl (k, v) (by simp) e.1⟩
                  | x :: y :: rest, hl, hk, _ =>
                    simp only [takeMaskable] at hk
                    obtain ⟨a, b⟩ := takeInterrupt_taken hk
                    refine ⟨a.of_free, b.resolve_right fun e => ?_⟩
                    refine hl ((x :: y :: rest).getD (Config.freeOrder s.received.freeCount %
                      (rest.length + 2)) x) ?_ e.1
                    have hlt : Config.freeOrder s.received.freeCount % (rest.length + 2) <
                        (x :: y :: rest).length := by
                      simp only [List.length_cons]; exact Nat.mod_lt _ (by omega)
                    rw [List.getD_eq_getElem _ _ hlt]
                    exact List.getElem_mem hlt
                next hq =>
                have hne : maskableRequests s s.input ≠ [] := by
                  intro e; simp [e] at hq
                obtain ⟨a, b⟩ := key _ (by
                  intro x hx
                  simp only [maskableRequests, List.mem_append, List.mem_map] at hx
                  rcases hx with hx | ⟨v, -, rfl⟩
                  · split at hx
                    · obtain rfl := List.mem_singleton.1 hx; simp
                    · cases hx
                  · simp) h hne
                exact Or.inr (Or.inr (Or.inl ⟨hs', a, b⟩))
              · split at h
                · obtain ⟨a, b⟩ := takeException_taken h
                  exact Or.inr (Or.inr (Or.inl ⟨hs', a, b⟩))
                · exact Or.inr (Or.inr (Or.inr ⟨hs', h⟩))

end Sys2Proof.Machine
end

