-- ==== Sys2Proof/Laws/Tasks.lean ====
section
/-! SUPPORT. What the saving of a task's context stores, what the load of one leaves (registers, flags
and segments are the TSS's), and which exceptions a task switch can raise. -/

namespace Sys2Proof.Machine

/-- A null selector names no descriptor: the first entry of the GDT is none (R20). -/
theorem readSegDescriptor_null (s : State) (sel : Half) (h : sel &&& 0xFFFC = 0) :
    s.readSegDescriptor sel = none := by
  have bit (j : Nat) (hj : 2 ≤ j) (hj' : j < 16) : sel.getLsbD j = false := by
    have := congrArg (fun b => BitVec.getLsbD b j) h
    interval_cases j <;> simpa using this
  have hi : selIndex sel = 0 := by
    apply BitVec.eq_of_getLsbD_eq
    intro j hj
    simp [selIndex, bit (3 + j) (by omega) (by omega)]
  have ht : selTi sel = false := bit 2 (by omega) (by omega)
  simp [State.readSegDescriptor, State.descriptorAddr, ht, hi]

/-- What a register loaded with a selector holds, where the selector may be null and otherwise names a
present descriptor. -/
theorem loadedSegment_loaded (s : State) (sel : Half)
    (h : sel &&& 0xFFFC ≠ 0 → ∃ d, s.readSegDescriptor sel = some d ∧ d.present = true) :
    SegmentLoaded s sel (s.loadedSegment sel) := by
  refine ⟨loadedSegment_sel s sel, fun h0 => ?_, fun h0 => ?_⟩
  · simp [State.loadedSegment, readSegDescriptor_null s sel h0, nullSegment]
  · obtain ⟨d, hd, hp⟩ := h h0
    simp [loadedSegment_some hd, hd, hp]

theorem taskLdtFaults_nil {s : State} {sel : Half} {ext : Word} (h : taskLdtFaults s sel ext = [])
    (h0 : sel &&& 0xFFFC ≠ 0) :
    selTi sel = false ∧ ∃ d, s.readSegDescriptor sel = some d ∧ d.kind = .ldt ∧ d.present = true := by
  rw [taskLdtFaults, if_neg (by simpa [selIsNull] using h0)] at h
  cases hd : s.readSegDescriptor sel with
  | none => simp [hd] at h
  | some d => simp [hd, failing_nil] at h; simp [h]

theorem taskDataFaults_nil {s : State} {cpl : BitVec 2} {ext : Word} {sel : Half}
    (h : taskDataFaults s cpl ext sel = []) (h0 : sel &&& 0xFFFC ≠ 0) :
    ∃ d, s.readSegDescriptor sel = some d ∧ d.present = true := by
  rw [taskDataFaults, if_neg (by simpa [selIsNull] using h0)] at h
  cases hd : s.readSegDescriptor sel with
  | none => simp [hd] at h
  | some d => simp [hd, failing_nil] at h; simp [h]

theorem taskCodeFaults_nil {s : State} {sel : Half} {eip ext : Word}
    (h : taskCodeFaults s sel eip ext = []) :
    ∃ d, s.readSegDescriptor sel = some d ∧ d.isCode = true ∧ d.present = true ∧
      d.inLimit eip 1 = true := by
  by_cases h0 : selIsNull sel = true
  · simp [taskCodeFaults, h0] at h
  rw [taskCodeFaults, if_neg h0] at h
  cases hd : s.readSegDescriptor sel with
  | none => simp [hd] at h
  | some d => simp [hd, failing_nil] at h; simp [h]

theorem taskStackFaults_nil {s : State} {sel : Half} {cpl : BitVec 2} {ext : Word}
    (h : taskStackFaults s sel cpl ext = []) :
    ∃ d, s.readSegDescriptor sel = some d ∧ d.isWritableData = true ∧ d.dpl = cpl ∧
      d.present = true := by
  by_cases h0 : selIsNull sel = true
  · simp [taskStackFaults, h0] at h
  rw [taskStackFaults, if_neg h0] at h
  cases hd : s.readSegDescriptor sel with
  | none => simp [hd] at h
  | some d => simp [hd, failing_nil] at h; simp [h]

theorem readSegDescriptor_congr {s t : State} (hm : t.mem = s.mem) (hg : t.gdtr = s.gdtr)
    (hl : t.ldtr = s.ldtr) (sel : Half) : t.readSegDescriptor sel = s.readSegDescriptor sel := by
  simp only [State.readSegDescriptor, State.descriptorAddr, hg, hl, read64_congr hm]

/-- A selector of the GDT names the same descriptor whatever the LDT. -/
theorem readSegDescriptor_gdt {s t : State} (hm : t.mem = s.mem) (hg : t.gdtr = s.gdtr) {sel : Half}
    (h : selTi sel = false) : t.readSegDescriptor sel = s.readSegDescriptor sel := by
  simp only [State.readSegDescriptor, State.descriptorAddr, hg, h, read64_congr hm, Bool.false_eq_true,
    if_false]

/-- A task that is loaded without a fault runs the context its TSS holds (R149, R79). -/
theorem loadTask_loaded {s t : State} {nested : Bool} {ext : Word}
    (h : loadTask s nested = .ok t) (hf : contextFaults s ext = []) :
    TaskLoaded t t s.tr.desc.base ∧ t.regs.esp = t.read32 (s.tr.desc.base + 56) := by
  obtain ⟨hv, ht⟩ := (loadTask_ok _ _ _).1 h
  obtain ⟨u, hu⟩ : ∃ u, u = loadTaskLdt s := ⟨_, rfl⟩
  rw [← hu] at ht
  simp only [contextFaults, hv, Bool.false_eq_true, if_false, List.append_eq_nil_iff, ← hu] at hf
  obtain ⟨hldt, hseg⟩ := hf
  simp only [taskSegmentFaults, List.append_eq_nil_iff, List.flatMap_cons, List.flatMap_nil] at hseg
  obtain ⟨⟨hc, hs⟩, he, hd, hf, hg, -⟩ := hseg
  have hm : t.mem = s.mem := by rw [ht, hu]; rfl
  have hum : t.mem = u.mem := by rw [ht]
  have hsr : t.sregs = taskSegments u (tssSelectors s s.tr.desc.base) := by rw [ht]
  have hgd : t.gdtr = s.gdtr := by rw [ht, hu]; rfl
  have r32 : ∀ a, t.read32 a = s.read32 a := read32_congr hm
  have r16 : ∀ a, t.read16 a = s.read16 a := read16_congr hm
  have rd : ∀ sel, t.readSegDescriptor sel = u.readSegDescriptor sel :=
    readSegDescriptor_congr hum (by rw [ht]) (by rw [ht])
  have seg : ∀ sel, SegmentLoaded u sel (u.loadedSegment sel) →
      SegmentLoaded t sel (u.loadedSegment sel) := by
    intro sel hsel
    simpa only [SegmentLoaded, rd] using hsel
  have data : ∀ {sel}, taskDataFaults u (selRpl (tssSelectors s s.tr.desc.base).cs) ext sel = [] →
      SegmentLoaded t sel (u.loadedSegment sel) :=
    fun hx => seg _ (loadedSegment_loaded _ _ (taskDataFaults_nil hx))
  obtain ⟨dc, hdc, c1, c2, c3⟩ := taskCodeFaults_nil hc
  obtain ⟨ds, hds, s1, s2, s3⟩ := taskStackFaults_nil hs
  have tcs : t.sregs.cs = ⟨(tssSelectors s s.tr.desc.base).cs, dc⟩ := by
    rw [ht]; exact loadedSegment_some hdc
  have tss : t.sregs.ss = ⟨(tssSelectors s s.tr.desc.base).ss, ds⟩ := by
    rw [ht]; exact loadedSegment_some hds
  have fl : ∀ j, j ≠ 14 →
      flag t.eflags j = flag (taskFlags s) j := by
    intro j hj
    rw [ht]
    cases nested
    · rfl
    · exact (flag_setFlag _ ntBit j true (by decide)).trans (if_neg hj)
  refine ⟨{
    eax := by rw [r32, ht]; rfl
    ecx := by rw [r32, ht]; rfl
    edx := by rw [r32, ht]; rfl
    ebx := by rw [r32, ht]; rfl
    ebp := by rw [r32, ht]; rfl
    esi := by rw [r32, ht]; rfl
    edi := by rw [r32, ht]; rfl
    eip := by rw [r32, ht]
    flags := fun j _ hj => ?_
    notVirtual8086 := (fl 17 (by decide)).trans hv
    ldtr := ?_
    es := by rw [r16, hsr]; exact data he
    cs := by rw [r16, hsr]; exact seg _ (loadedSegment_loaded _ _ fun _ => ⟨dc, hdc, c2⟩)
    ss := by rw [r16, hsr]; exact seg _ (loadedSegment_loaded _ _ fun _ => ⟨ds, hds, s3⟩)
    ds := by rw [r16, hsr]; exact data hd
    fs := by rw [r16, hsr]; exact data hf
    gs := by rw [r16, hsr]; exact data hg
    code := by rw [tcs]; exact c1
    entry := by rw [tcs, show t.eip = s.read32 (s.tr.desc.base + tssEip) by rw [ht]]; exact c3
    stack := by rw [State.cpl, tcs, tss]; exact ⟨s1, s2⟩
    taskTrap := by rw [byteAt_congr hm, ht] }, by rw [r32, ht]; rfl⟩
  · have h1 := (fl j hj).trans (flag_fixReserved _ j)
    rw [r32]
    by_cases hj1 : j = 1
    · simpa [flag, hj1] using h1
    · simpa [flag, hj1, Bool.and_comm] using h1
  · have hl : t.ldtr = s.loadedSegment (s.read16 (s.tr.desc.base + tssLdt)) := by rw [ht, hu]; rfl
    have h1 := loadedSegment_loaded s (s.read16 (s.tr.desc.base + tssLdt)) fun h0 =>
      let ⟨_, d, hd, _, hp⟩ := taskLdtFaults_nil hldt h0; ⟨d, hd, hp⟩
    rw [r16, hl]
    refine ⟨h1.1, h1.2.1, fun h0 => ?_⟩
    rw [readSegDescriptor_gdt hm hgd (taskLdtFaults_nil hldt h0).1]
    exact h1.2.2 h0

/-! ### The context saved -/

/-- Every item of the context is saved where the TSS holds it (R149). -/
theorem saveTask_saved (s : State) (f : Word) (c : Half) (r : Word) :
    TaskSaved s (saveTask s f c r) f c r (fun _ => False) := by
  constructor <;> intro _ <;>
    simp (disch := decide) only [saveTask, tssEip, tssEflags, read32_write16_at, read32_write32_at,
      read16_write16_at, read32_write32, read16_write16]

/-- Nothing but the saved context is stored. -/
theorem saveTask_outside (s : State) (f : Word) (c : Half) (r x : Word)
    (h : 62 ≤ (x - (s.tr.desc.base + 32)).toNat) : (saveTask s f c r).byteAt x = s.byteAt x := by
  simp only [saveTask, tssEip, tssEflags]
  repeat rw [byteAt_write16_outside _ _ _ _ (by bv_omega)]
  repeat rw [byteAt_write32_outside _ _ _ _ (by bv_omega)]

/-- What is stored afterwards leaves the items it does not overlap. -/
theorem TaskSaved.keep {s m t : State} {f : Word} {c : Half} {r : Word} {other : Word → Prop}
    (h : TaskSaved s m f c r (fun _ => False)) (ho : ∀ x, ¬ other x → t.byteAt x = m.byteAt x) :
    TaskSaved s t f c r other := by
  have n (a k) : Apart (fun _ => False) a k := fun _ _ h => h
  have r32 (a) (ha : Apart other a 4) : t.read32 a = m.read32 a :=
    read32_of_bytes fun k hk => ho _ (ha k hk)
  have r16 (a) (ha : Apart other a 2) : t.read16 a = m.read16 a :=
    read16_of_bytes fun k hk => ho _ (ha k hk)
  exact
    { eip := fun ha => (r32 _ ha).trans (h.eip (n _ _))
      eflags := fun ha => (r32 _ ha).trans (h.eflags (n _ _))
      eax := fun ha => (r32 _ ha).trans (h.eax (n _ _))
      ecx := fun ha => (r32 _ ha).trans (h.ecx (n _ _))
      edx := fun ha => (r32 _ ha).trans (h.edx (n _ _))
      ebx := fun ha => (r32 _ ha).trans (h.ebx (n _ _))
      esp := fun ha => (r32 _ ha).trans (h.esp (n _ _))
      ebp := fun ha => (r32 _ ha).trans (h.ebp (n _ _))
      esi := fun ha => (r32 _ ha).trans (h.esi (n _ _))
      edi := fun ha => (r32 _ ha).trans (h.edi (n _ _))
      es := fun ha => (r16 _ ha).trans (h.es (n _ _))
      cs := fun ha => (r16 _ ha).trans (h.cs (n _ _))
      ss := fun ha => (r16 _ ha).trans (h.ss (n _ _))
      ds := fun ha => (r16 _ ha).trans (h.ds (n _ _))
      fs := fun ha => (r16 _ ha).trans (h.fs (n _ _))
      gs := fun ha => (r16 _ ha).trans (h.gs (n _ _)) }

/-! ### The faults of a task switch

The lists of the model hold the exceptions of Safety. -/

theorem selIsNull_iff (sel : Half) : selIsNull sel = true ↔ sel &&& 65532#16 = 0#16 := by
  simp [selIsNull]

theorem mem_taskLdtFaults (m : State) (sel : Half) (ext : Word) (e : Exn) :
    e ∈ taskLdtFaults m sel ext ↔ TaskLdtFault m sel ext e := by
  unfold taskLdtFaults TaskLdtFault NamesNo
  by_cases h : sel &&& 65532#16 = 0#16
  · rw [if_pos ((selIsNull_iff _).2 h)]; simp [h]
  rw [if_neg (mt (selIsNull_iff _).1 h)]
  cases hd : m.readSegDescriptor sel with
  | none => simp [h, tsExn, selCode, selectorCode, tsVector]
  | some d =>
    simp only [mem_failing, List.mem_singleton, Prod.mk.injEq, ne_eq, BitVec.ofNat_eq_ofNat, h, not_false_eq_true, true_and,
      Option.some.injEq, forall_eq', eq_comm (a := false), Bool.and_eq_false_iff, Bool.not_eq_false',
      beq_eq_false_iff_ne, selTi]
    refine and_congr_left fun _ => ?_
    cases sel.getLsbD 2 <;> cases d.present <;> simp

theorem mem_taskDataFaults (m : State) (cpl : BitVec 2) (ext : Word) (sel : Half) (e : Exn) :
    e ∈ taskDataFaults m cpl ext sel ↔ TaskDataFault m cpl ext sel e := by
  unfold taskDataFaults TaskDataFault NamesNo
  by_cases h : sel &&& 65532#16 = 0#16
  · rw [if_pos ((selIsNull_iff _).2 h)]; simp [h]
  rw [if_neg (mt (selIsNull_iff _).1 h)]
  cases hd : m.readSegDescriptor sel with
  | none => simp [h, tsExn, selCode, selectorCode, tsVector]
  | some d =>
    simp only [mem_failing, List.mem_cons, List.not_mem_nil, or_false, Prod.mk.injEq, ne_eq, BitVec.ofNat_eq_ofNat, h,
      not_false_eq_true, true_and, Option.some.injEq, forall_eq', exists_eq_left', eq_comm (a := false),
      ← Bool.not_eq_true, Bool.and_eq_true, Bool.or_eq_true, decide_eq_true_eq]
    rfl

theorem mem_taskStackFaults (m : State) (sel : Half) (cpl : BitVec 2) (ext : Word) (e : Exn) :
    e ∈ taskStackFaults m sel cpl ext ↔ TaskStackFault m sel cpl ext e := by
  unfold taskStackFaults TaskStackFault NamesNo
  by_cases h : sel &&& 65532#16 = 0#16
  · rw [if_pos ((selIsNull_iff _).2 h)]; simp [h, tsExn, selCode, selectorCode, tsVector]
  rw [if_neg (mt (selIsNull_iff _).1 h)]
  cases hd : m.readSegDescriptor sel with
  | none => simp [h, tsExn, selCode, selectorCode, tsVector]
  | some d =>
    simp only [mem_failing, List.mem_cons, List.not_mem_nil, or_false, Prod.mk.injEq, ne_eq, BitVec.ofNat_eq_ofNat, h,
      not_false_eq_true, true_and, false_or, Option.some.injEq, forall_eq', exists_eq_left',
      eq_comm (a := false), ← Bool.not_eq_true, Bool.and_eq_true, beq_iff_eq, and_assoc]
    rfl

theorem mem_taskCodeFaults (m : State) (sel : Half) (eip ext : Word) (e : Exn) :
    e ∈ taskCodeFaults m sel eip ext ↔ TaskCodeFault m sel eip ext e := by
  unfold taskCodeFaults TaskCodeFault NamesNo
  by_cases h : sel &&& 65532#16 = 0#16
  · rw [if_pos ((selIsNull_iff _).2 h)]; simp [h, tsExn, selCode, selectorCode, tsVector]
  rw [if_neg (mt (selIsNull_iff _).1 h)]
  cases hd : m.readSegDescriptor sel with
  | none => simp [h, tsExn, selCode, selectorCode, tsVector]
  | some d =>
    cases hc : d.isConforming <;> simp only [hc, if_true, Bool.false_eq_true, if_false] <;>
      simp only [mem_failing, List.mem_cons, List.not_mem_nil, or_false, Prod.mk.injEq, ne_eq,
        BitVec.ofNat_eq_ofNat, h, not_false_eq_true, true_and, false_or, Option.some.injEq, forall_eq',
        exists_eq_left', eq_comm (a := false), ← Bool.not_eq_true, Bool.and_eq_true, beq_iff_eq, decide_eq_true_eq] <;>
      simp only [hc, if_true, Bool.false_eq_true, if_false] <;> rfl

theorem mem_contextFaults (m : State) (ext : Word) (e : Exn) :
    e ∈ contextFaults m ext ↔ ContextFault m ext e := by
  have hv : flag (taskFlags m) vmBit = (m.read32 (m.tr.desc.base + 36)).getLsbD 17 := by
    rw [taskFlags, flag_fixReserved]
    simp [flag, vmBit, definedFlags]
  unfold contextFaults ContextFault
  rw [hv]
  cases h : (m.read32 (m.tr.desc.base + 36)).getLsbD 17
  · simp only [Bool.false_eq_true, if_false, taskSegmentFaults, List.flatMap_cons, List.flatMap_nil,
      List.append_nil, List.mem_append, mem_taskLdtFaults, mem_taskCodeFaults, mem_taskStackFaults,
      mem_taskDataFaults, or_assoc]
    exact ⟨fun x => ⟨h, x⟩, fun x => x.2⟩
  · exact ⟨fun x => absurd x (by simp), fun x => absurd (h.symm.trans x.1) (by decide)⟩

theorem isTss32_iff (d : SegDescriptor) : d.isTss32 = true ↔ IsTss32 d := by
  unfold SegDescriptor.isTss32 IsTss32; cases d.kind <;> simp

theorem not_holdsTask (d : SegDescriptor) : d.holdsTask = false ↔ d.limit.toNat < 103 :=
  decide_eq_false_iff_not.trans Nat.not_le

theorem mem_tssFaults (s : State) (d : SegDescriptor) (busy : Bool) (vec : Byte) (sel : Half)
    (ext : Word) (e : Exn) (ht : sel.getLsbD 2 = false) (hd : s.readSegDescriptor sel = some d) :
    e ∈ tssFaults d busy ⟨vec, selCode sel ext⟩ sel ext ↔ TssFault s sel busy vec ext e := by
  unfold tssFaults TssFault
  simp only [mem_failing, List.mem_cons, List.not_mem_nil, or_false, Prod.mk.injEq, ht, hd,
    reduceCtorEq, false_and, false_or, true_and, Option.some.injEq, exists_eq_left',
    eq_comm (a := false), Bool.or_eq_false_iff, beq_eq_false_iff_ne, ne_eq, and_assoc, Bool.not_eq_false']
  rw [isTss32_iff, not_holdsTask]
  rfl

theorem mem_currentTssFaults (s : State) (ext : Word) (e : Exn) :
    e ∈ currentTssFaults s ext ↔ CurrentTssFault s ext e := by
  unfold currentTssFaults CurrentTssFault
  rw [← isTss32_iff, ← not_holdsTask]
  simp only [mem_failing, List.mem_singleton, Prod.mk.injEq, eq_comm (a := false),
    Bool.or_eq_false_iff, Bool.not_eq_false', and_assoc]
  rfl

/-- Where the TSS descriptor of a selector stands, or why there is none. -/
theorem tssAddr_some (s : State) (sel : Half) (a : Word) :
    s.tssAddr sel = some a ↔ sel.getLsbD 2 = false ∧ s.descriptorAddr sel = some a := by
  unfold State.tssAddr selTi; cases sel.getLsbD 2 <;> simp

theorem tssAddr_none (s : State) (sel : Half) :
    s.tssAddr sel = none ↔ sel.getLsbD 2 = true ∨ s.readSegDescriptor sel = none := by
  unfold State.tssAddr selTi State.readSegDescriptor; cases sel.getLsbD 2 <;> simp

/-- The faults of a switch to a TSS that a selector names. -/
theorem mem_switchFaults (s : State) (next : SegDescriptor → Word → State) (busy : Bool) (vec : Byte)
    (sel : Half) (a ext : Word) (e : Exn) (ha : s.tssAddr sel = some a) :
    e ∈ switchFaults s (next (decodeSegDescriptor (s.read64 a)) a) (decodeSegDescriptor (s.read64 a))
        busy ⟨vec, selCode sel ext⟩ sel ext ↔
      TssFault s sel busy vec ext e ∨ CurrentTssFault s ext e ∨
        ∃ a d, ReadableTss s sel a d ∧ ContextFault (next d a) ext e := by
  obtain ⟨ht, hda⟩ := (tssAddr_some _ _ _).1 ha
  have hd : s.readSegDescriptor sel = some (decodeSegDescriptor (s.read64 a)) := by
    simp [State.readSegDescriptor, hda]
  rw [switchFaults, List.mem_append, List.mem_append, mem_tssFaults s _ _ _ _ _ _ ht hd,
    mem_currentTssFaults, or_assoc]
  refine or_congr_right (or_congr_right ?_)
  generalize decodeSegDescriptor (s.read64 a) = d at *
  have key : (s.tr.desc.isTss32 && d.isTss32 && d.present && d.holdsTask) = true ↔
      ReadableTss s sel a d := by
    simp only [Bool.and_eq_true, isTss32_iff, ReadableTss, ht, hda, hd, true_and, and_assoc]
    exact and_congr_right fun _ => and_congr_right fun _ => and_congr_right fun _ =>
      decide_eq_true_iff
  constructor
  · intro h
    split at h
    · next hh => exact ⟨a, d, key.1 hh, (mem_contextFaults _ _ _).1 h⟩
    · simp at h
  · rintro ⟨a', d', hr, hc⟩
    obtain ⟨-, -, h1, h2, -⟩ := id hr
    obtain rfl : a = a' := Option.some.inj (hda.symm.trans h1)
    obtain rfl : d = d' := Option.some.inj (hd.symm.trans h2)
    rw [if_pos (key.2 hr)]
    exact (mem_contextFaults _ _ _).2 hc

/-- The faults where a selector names no TSS. -/
theorem mem_noTss (s : State) (next : SegDescriptor → Word → State) (busy : Bool) (vec : Byte)
    (sel : Half) (ext : Word) (e : Exn) (ha : s.tssAddr sel = none) :
    e ∈ (⟨vec, selCode sel ext⟩ : Exn) :: currentTssFaults s ext ↔
      TssFault s sel busy vec ext e ∨ CurrentTssFault s ext e ∨
        ∃ a d, ReadableTss s sel a d ∧ ContextFault (next d a) ext e := by
  have no : ∀ d, sel.getLsbD 2 = false → s.readSegDescriptor sel = some d → False := by
    intro d ht hd
    rcases (tssAddr_none _ _).1 ha with h | h
    · rw [h] at ht; cases ht
    · rw [h] at hd; cases hd
  rw [List.mem_cons, mem_currentTssFaults]
  constructor
  · rintro (rfl | h)
    · exact .inl (.inl ⟨(tssAddr_none _ _).1 ha, rfl⟩)
    · exact .inr (.inl h)
  · rintro ((⟨-, h⟩ | ⟨ht, d, hd, -⟩) | h | ⟨a, d, ⟨-, ht, -, hd, -⟩, -⟩)
    · exact .inl h
    · exact (no d ht hd).elim
    · exact .inr h
    · exact (no d ht hd).elim

/-- The faults of a task gate (R132, R149, R151). -/
theorem mem_gateTaskFaults (s : State) (sel : Half) (ext : Word) (c : Half) (r : Word) (e : Exn) :
    e ∈ gateTaskFaults s sel ext c r ↔ TaskGateFault s sel ext c r e := by
  unfold gateTaskFaults TaskGateFault
  cases ha : s.tssAddr sel with
  | some a => exact mem_switchFaults s (fun d a => switchedTo s sel d a c r) false 13 sel a ext e ha
  | none => exact mem_noTss s (fun d a => switchedTo s sel d a c r) false 13 sel ext e ha

/-- The faults of a task return (R79). -/
theorem mem_returnTaskFaults (s : State) (r : Word) (e : Exn) :
    e ∈ returnTaskFaults s r ↔ TaskReturnFault s r e := by
  have hl : taskLink s = s.read16 s.tr.desc.base := by simp [taskLink, tssLink]
  unfold returnTaskFaults TaskReturnFault
  rw [hl]
  by_cases h0 : s.tr.desc.limit.toNat < 1
  · rw [if_pos h0, mem_currentTssFaults]
    simp only [show ¬ 1 ≤ s.tr.desc.limit.toNat by omega, false_and, or_false]
  rw [if_neg h0]
  simp only [show 1 ≤ s.tr.desc.limit.toNat by omega, true_and]
  cases ha : s.tssAddr (s.read16 s.tr.desc.base) with
  | some a =>
    exact (mem_switchFaults s (fun d _ => returnedTo s d r) true 10 _ a 0 e ha).trans or_left_comm
  | none => exact (mem_noTss s (fun d _ => returnedTo s d r) true 10 _ 0 e ha).trans or_left_comm

end Sys2Proof.Machine
end

