-- ==== Sys2Proof/Tests/Slice0.lean ====
section
/-! SUPPORT. Tests: well-formedness, decoding, one step for each instruction, and for every statement
with hypotheses a witness that meets them. Expected values are hand calculation from the rules
named. -/

open Sys2Proof Sys2Proof.Machine

namespace Sys2Proof.Tests

/-! ### Well-formedness: an ill-formed term for each check -/

theorem test_wf_lock : (Instr.sti [.lock]).wf = false := by decide
theorem test_wf_repne : (Instr.int3 [.repne]).wf = false := by decide
theorem test_wf_rep : (Instr.popSS [.rep]).wf = false := by decide
theorem test_wf_address_size : (Instr.sidt [.addrSize] (.abs 0)).wf = false := by decide
theorem test_wf_base_esp : (Instr.lidt [] (.base .esp .d0)).wf = false := by decide
theorem test_wf_base_ebp : (Instr.lidt [] (.base .ebp .d0)).wf = false := by decide
theorem test_wf_sib_ebp : (Instr.lss [] .eax (.sib 0 .eax .ebp .d0)).wf = false := by decide
theorem test_wf_bound32 : (Instr.bound32 [.opSize] .eax (.abs 0)).wf = false := by decide
theorem test_wf_bound16 : (Instr.bound16 [] .eax (.abs 0)).wf = false := by decide
theorem test_wf_iretd : (Instr.iretd [.opSize]).wf = false := by decide
theorem test_wf_iret : (Instr.iret []).wf = false := by decide
theorem test_wf_pushfd : (Instr.pushfd [.opSize]).wf = false := by decide
theorem test_wf_pushf : (Instr.pushf []).wf = false := by decide
theorem test_wf_popfd : (Instr.popfd [.opSize]).wf = false := by decide
theorem test_wf_popf : (Instr.popf []).wf = false := by decide
theorem test_wf_length : (Instr.sti (List.replicate 15 (.seg .ds))).wf = false := by decide

/-! ### Decoding: bytes written out from R50 to R53 -/

theorem test_decode_int : decode [0xCD, 0x23] = .instr (.intN [] 35) := by decide
theorem test_decode_int3 : decode [0xCC] = .instr (.int3 []) := by decide
theorem test_decode_into : decode [0xCE] = .instr (.into []) := by decide
theorem test_decode_bound32 :
    decode [0x62, 0x4C, 0x8D, 0xFC] = .instr (.bound32 [] .ecx (.sib 2 .ecx .ebp (.d8 0xFC))) := by
  decide
theorem test_decode_bound16 :
    decode [0x66, 0x62, 0x03] = .instr (.bound16 [.opSize] .eax (.base .ebx .d0)) := by decide
theorem test_decode_iretd : decode [0xCF] = .instr (.iretd []) := by decide
theorem test_decode_iret : decode [0x66, 0xCF] = .instr (.iret [.opSize]) := by decide
theorem test_decode_sti : decode [0xFB] = .instr (.sti []) := by decide
theorem test_decode_cli : decode [0xFA] = .instr (.cli []) := by decide
theorem test_decode_pushfd : decode [0x9C] = .instr (.pushfd []) := by decide
theorem test_decode_pushf : decode [0x66, 0x9C] = .instr (.pushf [.opSize]) := by decide
theorem test_decode_popfd : decode [0x9D] = .instr (.popfd []) := by decide
theorem test_decode_popf : decode [0x66, 0x9D] = .instr (.popf [.opSize]) := by decide
theorem test_decode_lidt :
    decode [0x0F, 0x01, 0x1D, 0x00, 0x30, 0x00, 0x00] = .instr (.lidt [] (.abs 0x3000)) := by decide
theorem test_decode_sidt : decode [0x0F, 0x01, 0x08] = .instr (.sidt [] (.base .eax .d0)) := by decide
theorem test_decode_movSS : decode [0x8E, 0xD0] = .instr (.movSS [] (.reg .eax)) := by decide
theorem test_decode_popSS : decode [0x17] = .instr (.popSS []) := by decide
theorem test_decode_lss : decode [0x0F, 0xB2, 0x23] = .instr (.lss [] .esp (.base .ebx .d0)) := by
  decide
theorem test_decode_override :
    decode [0x2E, 0x0F, 0x01, 0x98, 0x78, 0x56, 0x34, 0x12] =
      .instr (.lidt [.seg .cs] (.base .eax (.d32 0x12345678))) := by decide
theorem test_decode_lock : decode [0xF0, 0xFB] = .invalidOpcode := by decide
theorem test_decode_repeat : decode [0xF3, 0xCD, 0x23] = .refused .repeatPrefix := by decide
theorem test_decode_register_form : decode [0x0F, 0x01, 0xD8] = .invalidOpcode := by decide
theorem test_decode_mov_cs : decode [0x8E, 0xC8] = .invalidOpcode := by decide
theorem test_decode_short : decode [0x0F, 0x01] = .truncated := by decide
/-- MOV to CS from memory, cut off in its displacement: both faults of R126 class 9. -/
theorem test_decode_mov_cs_short : decode [0x8E, 0x0D, 0, 0, 0] = .invalidTruncated := by decide
/-- Fourteen prefixes, LOCK among them, and an INT n without its vector. -/
theorem test_decode_lock_short :
    decode (0xF0 :: List.replicate 13 0x3E ++ [0xCD, 0x20]) = .invalidTruncated := by decide

/-- The table writes INT n with the opcode in bits 15 to 8 (log 30). -/
theorem test_table_int : decodeTableWord 16 0xCD00 = some (.intN [] 0) := by decide

/-! ### Gates (R132 to R134) -/

theorem test_gate_interrupt :
    decodeGate 0xC0008E0000081000 = some ⟨.interrupt, 8, 0xC0001000, 0, true, true⟩ := by decide
theorem test_gate_trap16 :
    decodeGate 0xC000E70000081000 = some ⟨.trap, 8, 0x1000, 3, true, false⟩ := by decide
theorem test_gate_task :
    decodeGate 0x0000050000300000 = some ⟨.task, 0x30, 0, 0, false, true⟩ := by decide
theorem test_gate_call : decodeGate 0x00008C0000080000 = none := by decide

/-! ### A small machine -/

/-- Memory cells from an address on. -/
def cells : Nat → List Byte → Memory
  | _, [] => []
  | a, b :: bs => if b = 0 then cells (a + 1) bs else (a, b) :: cells (a + 1) bs

/-- A gate to 00002000H in a code segment. -/
def gateTo (sel attr : Byte) : List Byte := [0x00, 0x20, sel, 0x00, 0x00, attr, 0x00, 0x00]

/-- Gates 2, 3, 4, 5, 8, 13, 18, 32 and 128; 3, 4 and 128 have DPL 3. -/
def idtCells : Memory :=
  cells 0x100010 (gateTo 8 0x8E ++ gateTo 8 0xEF ++ gateTo 8 0xEF ++ gateTo 8 0x8E) ++
  cells 0x100040 (gateTo 8 0x8E) ++ cells 0x100068 (gateTo 8 0x8E) ++
  cells 0x100090 (gateTo 8 0x8E) ++ cells 0x100100 (gateTo 8 0x8E) ++
  cells 0x100400 (gateTo 8 0xEE)

/-- Code and data of level 0, of level 3, a busy and an available TSS, absent data and code, and a
code segment of limit 0FFFH: selectors 08H to 48H. -/
def gdtCells : Memory :=
  cells 0x200008
    [0xFF, 0xFF, 0, 0, 0, 0x9A, 0xCF, 0, 0xFF, 0xFF, 0, 0, 0, 0x92, 0xCF, 0,
     0xFF, 0xFF, 0, 0, 0, 0xFA, 0xCF, 0, 0xFF, 0xFF, 0, 0, 0, 0xF2, 0xCF, 0,
     0x67, 0, 0, 0, 0x30, 0x8B, 0, 0, 0x67, 0, 0, 0, 0x31, 0x89, 0, 0,
     0xFF, 0xFF, 0, 0, 0, 0x12, 0xCF, 0, 0xFF, 0xFF, 0, 0, 0, 0x1A, 0xCF, 0,
     0xFF, 0x0F, 0, 0, 0, 0x9A, 0x40, 0]

/-- ESP0 = 80010000H, SS0 = 0010H. -/
def tssCells : Memory := cells 0x300004 [0, 0, 1, 0x80, 0x10]

/-- A segment that covers the whole address space. -/
def flat (k : SegKind) (dpl : BitVec 2) : SegDescriptor := ⟨k, 0, 0xFFFFFFFF, dpl, true, true⟩

def code0 : SegDescriptor := flat (.code false true) 0
def data0 : SegDescriptor := flat (.data false true) 0
def code3 : SegDescriptor := flat (.code false true) 3
def data3 : SegDescriptor := flat (.data false true) 3

/-- Level 0 at 00001000H with its stack at 00010000H, IF = 1, the IDT up to vector 128. -/
def ring0 (code stack : List Byte) : State :=
  { State.reset with
    mode := .protectedMode
    eip := 0x1000
    eflags := 0x202
    regs := ⟨0, 0, 0, 0, 0x10000, 0, 0, 0⟩
    idtr := ⟨0x100000, 0x407⟩
    gdtr := ⟨0x200000, 0x4F⟩
    tr := ⟨0x28, ⟨.tss32 true, 0x300000, 0x67, 0, true, false⟩⟩
    sregs := ⟨⟨0x10, data0⟩, ⟨8, code0⟩, ⟨0x10, data0⟩, ⟨0x10, data0⟩, ⟨0x10, data0⟩, ⟨0x10, data0⟩⟩
    mem := cells 0x1000 code ++ cells 0x10000 stack ++ idtCells ++ gdtCells ++ tssCells }

/-- The same at level 3. -/
def ring3 (code stack : List Byte) : State :=
  { ring0 code stack with
    sregs :=
      ⟨⟨0x23, data3⟩, ⟨0x1B, code3⟩, ⟨0x23, data3⟩, ⟨0x23, data3⟩, ⟨0x23, data3⟩, ⟨0x23, data3⟩⟩ }

/-- Another gate for vector 32. -/
def withGate (s : State) (bs : List Byte) : State := s.writeBytes 0x100100 bs

/-- One input of the environment. -/
def withInput (s : State) (e : EnvInput) : State := { s with env := [e] }

/-- The state an outcome holds. -/
def after (o : Host.Outcome State Fault Refusal) : State :=
  match o with
  | .next t => t
  | _ => State.reset

def isNext (o : Host.Outcome State Fault Refusal) : Bool :=
  match o with
  | .next _ => true
  | _ => false

theorem next_after {o : Host.Outcome State Fault Refusal} (h : isNext o = true) :
    o = .next (after o) := by
  cases o <;> first | rfl | exact absurd h Bool.false_ne_true

def isOk {α β : Type} (o : Except α β) : Bool :=
  match o with
  | .ok _ => true
  | _ => false

/-! ### One step for each instruction -/

/-- INT 128 at level 3 goes to level 0: five items on the stack of the TSS (R141, V24). -/
theorem test_int : (after (step (ring3 [0xCD, 0x80] []))).regs.esp = 0x8000FFEC ∧
    (after (step (ring3 [0xCD, 0x80] []))).eip = 0x2000 := by decide
/-- A gate of DPL 0 refuses INT 32 at level 3: #GP pushes a sixth item, its error code
(R139, R153). -/
theorem test_int_dpl : (after (step (ring3 [0xCD, 0x20] []))).regs.esp = 0x8000FFE8 := by decide
/-- A trap gate leaves IF (R145). -/
theorem test_int3 : (after (step (ring0 [0xCC] []))).eflags = 0x202 ∧
    (after (step (ring0 [0xCC] []))).regs.esp = 0xFFF4 := by decide
/-- A 16-bit gate pushes words: the return pointer 1002H lies lowest (R143, R59). -/
theorem test_int_gate16 :
    (after (step (withGate (ring0 [0xCD, 0x20] []) (gateTo 8 0x86)))).read16 0xFFFA = 0x1002 := by
  decide
theorem test_into : (after (step (ring0 [0xCE] []))).eip = 0x1001 := by decide
theorem test_into_overflow :
    (after (step { ring0 [0xCE] [] with eflags := 0xA02 })).eip = 0x2000 := by decide
/-- The index 5 is above the bound 4 (R64). -/
theorem test_bound32 :
    (after (step { ring0 [0x62, 0x04, 0x24] [0, 0, 0, 0, 4] with
      regs := ⟨5, 0, 0, 0, 0x10000, 0, 0, 0⟩ })).eip = 0x2000 := by decide
/-- The index -1 lies between -2 and -1; the upper half of EAX does not count (R64). -/
theorem test_bound16 :
    (after (step { ring0 [0x66, 0x62, 0x04, 0x24] [0xFE, 0xFF, 0xFF, 0xFF] with
      regs := ⟨0x1FFFF, 0, 0, 0, 0x10000, 0, 0, 0⟩ })).eip = 0x1004 := by decide
/-- A return to level 3 takes SS:ESP from the stack (R75). -/
theorem test_iretd :
    (after (step (ring0 [0xCF] [0, 0x30, 0, 0, 0x1B, 0, 0, 0, 2, 2, 0, 0, 0, 0xF0, 0xFF, 0xBF,
      0x23]))).regs.esp = 0xBFFFF000 := by decide
/-- At level 3 with IOPL = 0 the image cannot set IOPL or clear IF (R74). -/
theorem test_iretd_flags :
    (after (step (ring3 [0xCF] [0, 0x30, 0, 0, 0x1B, 0, 0, 0, 0x41, 0x30]))).eflags = 0x243 := by
  decide
theorem test_iret :
    (after (step (ring0 [0x66, 0xCF] [0, 0x30, 8, 0, 2, 0]))).regs.esp = 0x10006 := by decide
theorem test_sti : (after (step { ring0 [0xFB] [] with eflags := 2 })).eflags = 0x202 := by decide
theorem test_cli : (after (step (ring0 [0xFA] []))).eflags = 2 := by decide
/-- CLI at level 3 with IOPL = 0 raises #GP(0) at the instruction (R66, V26). -/
theorem test_cli_level : (after (step (ring3 [0xFA] []))).regs.esp = 0x8000FFE8 := by decide
theorem test_pushfd : (after (step (ring0 [0x9C] []))).read32 0xFFFC = 0x202 := by decide
theorem test_pushf : (after (step (ring0 [0x66, 0x9C] []))).regs.esp = 0xFFFE := by decide
/-- POPFD clears RF and leaves VM (R68). -/
theorem test_popfd :
    (after (step (ring0 [0x9D] [0xFF, 0xFF, 0xFF, 0xFF]))).eflags = 0x003C7FD7 := by decide
theorem test_popf : (after (step (ring0 [0x66, 0x9D] [0, 0]))).eflags = 2 := by decide
theorem test_lidt :
    (after (step (ring0 [0x0F, 0x01, 0x1C, 0x24] [0xFF, 0x07, 0, 0, 0x10, 0x12]))).idtr =
      ⟨0x12100000, 0x7FF⟩ := by decide
/-- With 66H the base has 24 bits (R70). -/
theorem test_lidt16 :
    (after (step (ring0 [0x66, 0x0F, 0x01, 0x1C, 0x24] [0xFF, 0x07, 0, 0, 0x10, 0x12]))).idtr =
      ⟨0x100000, 0x7FF⟩ := by decide
theorem test_sidt : (after (step (ring0 [0x0F, 0x01, 0x0C, 0x24] []))).read32 0x10002 = 0x100000 := by
  decide
theorem test_movSS :
    (after (step { ring0 [0x8E, 0xD0] [] with
      regs := ⟨0x10, 0, 0, 0, 0x10000, 0, 0, 0⟩ })).eventInhibit = true := by decide
theorem test_popSS : (after (step (ring0 [0x17] [0x10]))).regs.esp = 0x10004 := by decide
/-- LSS ESP reads 80010000H and the selector behind it (R84, V50). -/
theorem test_lss :
    (after (step (ring0 [0x0F, 0xB2, 0x24, 0x24] [0, 0, 1, 0x80, 0x10]))).regs.esp = 0x80010000 := by
  decide
/-- The table's words run from State.reset as the first instruction. -/
theorem test_table_word_runs :
    (after (step (State.reset.withFetchWord 8 0xFB))).eip = 0xFFF1 := by decide

/-! ### Witnesses: what meets the hypotheses of each statement

Each theorem is named after its statement and gives, for each of its clauses, a state that meets the
clause's hypotheses, at a boundary value where there is one. -/

theorem runs_ring0 (c d : List Byte) : (ring0 c d).Runs :=
  ⟨rfl, (by decide : flag 0x202 vmBit = false)⟩
theorem runs_ring3 (c d : List Byte) : (ring3 c d).Runs :=
  ⟨rfl, (by decide : flag 0x202 vmBit = false)⟩
theorem quiet_ring0 (c d : List Byte) : (ring0 c d).Quiet := ⟨rfl, rfl, rfl, rfl, rfl⟩
theorem room_data0 (a : Word) (w : Bool) (n : Nat) : RoomFor data0 a w n := fun _ _ _ => rfl
theorem room_data3 (a : Word) (w : Bool) (n : Nat) : RoomFor data3 a w n := fun _ _ _ => rfl
theorem readable_ring0 (c d : List Byte) (w : Bool) (n : Nat) : StackReadable (ring0 c d) w n :=
  fun _ _ => rfl
theorem readable_ring3 (c d : List Byte) (w : Bool) (n : Nat) : StackReadable (ring3 c d) w n :=
  fun _ _ => rfl

/-- The gate of a vector as the IDT of a state holds it. -/
def gateAt (s : State) (v : Byte) : Gate :=
  (decodeGate (s.read64 (s.idtr.base + 8 * v.setWidth 32))).getD ⟨.task, 0, 0, 0, false, false⟩

def gateCheck (s : State) (v : Byte) (k : EventKind) (g : Gate) : Bool :=
  decide (8 * v.toNat + 7 ≤ s.idtr.limit.toNat) &&
  decide (decodeGate (s.read64 (s.idtr.base + 8 * v.setWidth 32)) = some g) &&
  decide (k.soft = true → s.cpl ≤ g.dpl) && g.present

theorem gateReady_of {s : State} {v : Byte} {k : EventKind} {g : Gate}
    (h : gateCheck s v k g = true) : GateReady s v k g := by
  simp only [gateCheck, Bool.and_eq_true, decide_eq_true_eq] at h
  exact ⟨h.1.1.1, h.1.1.2, h.1.2, h.2⟩

def handlerCheck (s : State) (g : Gate) (d : SegDescriptor) : Bool :=
  decide (g.kind ≠ .task) && decide (g.sel &&& 0xFFFC ≠ 0) &&
  decide (s.readSegDescriptor g.sel = some d) && d.isCode && decide (d.dpl ≤ s.cpl) && d.present &&
  d.inLimit g.offset 1

theorem handlerReady_of {s : State} {g : Gate} {d : SegDescriptor}
    (h : handlerCheck s g d = true) : HandlerReady s g d := by
  simp only [handlerCheck, Bool.and_eq_true, decide_eq_true_eq] at h
  exact ⟨h.1.1.1.1.1.1, h.1.1.1.1.1.2, h.1.1.1.1.2, h.1.1.1.2, h.1.1.2, h.1.2, h.2⟩

theorem same_of {s : State} {v : Byte} {k : EventKind} {g : Gate} {d : SegDescriptor}
    {err : Option Word}
    (h : (!s.flagVM && gateCheck s v k g && handlerCheck s g d &&
      (d.isConforming || d.dpl == s.cpl)) = true)
    (room : RoomFor s.sregs.ss.desc s.regs.esp g.wide (frameItems err)) :
    SameLevelReady s v k g d err := by
  simp only [Bool.and_eq_true, Bool.or_eq_true, Bool.not_eq_true', beq_iff_eq] at h
  exact ⟨h.1.1.1, gateReady_of h.1.1.2, handlerReady_of h.1.2, h.2, room⟩

theorem inner_of {s : State} {v : Byte} {k : EventKind} {g : Gate} {d ds : SegDescriptor}
    {err : Option Word}
    (h : (!s.flagVM && gateCheck s v k g && handlerCheck s g d) = true)
    (c : d.isConforming = false ∧ d.dpl < s.cpl ∧ 8 * d.dpl.toNat + 11 ≤ s.tr.desc.limit.toNat ∧
      tssSs s d.dpl &&& 0xFFFC ≠ 0 ∧ s.readSegDescriptor (tssSs s d.dpl) = some ds ∧
      (tssSs s d.dpl).extractLsb' 0 2 = d.dpl ∧ ds.isWritableData = true ∧ ds.dpl = d.dpl ∧
      ds.present = true)
    (tss : ∃ b, s.tr.desc.kind = .tss32 b)
    (room : RoomFor ds (tssEsp s d.dpl) g.wide (frameItems err + 2)) :
    InnerLevelReady s v k g d ds err := by
  simp only [Bool.and_eq_true, Bool.not_eq_true'] at h
  exact ⟨h.1.1, gateReady_of h.1.2, handlerReady_of h.2, c.1, c.2.1, tss, c.2.2.1, c.2.2.2.1,
    c.2.2.2.2.1, c.2.2.2.2.2.1, c.2.2.2.2.2.2.1, c.2.2.2.2.2.2.2.1, c.2.2.2.2.2.2.2.2, room⟩

/-- An interrupt from level 0 enters a handler of level 0. -/
theorem same_ring0 (v : Byte) (k : EventKind) (err : Option Word)
    (h : (gateCheck (ring0 [] []) v k (gateAt (ring0 [] []) v) &&
      handlerCheck (ring0 [] []) (gateAt (ring0 [] []) v) code0) = true) :
    SameLevelReady (ring0 [] []) v k (gateAt (ring0 [] []) v) code0 err := by
  simp only [Bool.and_eq_true] at h
  exact ⟨rfl, gateReady_of h.1, handlerReady_of h.2, .inr rfl, fun _ _ _ => rfl⟩

/-- From level 3 it enters a handler of level 0 on the stack of the TSS. -/
theorem inner_ring3 (v : Byte) (k : EventKind) (err : Option Word)
    (h : (gateCheck (ring3 [] []) v k (gateAt (ring3 [] []) v) &&
      handlerCheck (ring3 [] []) (gateAt (ring3 [] []) v) code0) = true) :
    InnerLevelReady (ring3 [] []) v k (gateAt (ring3 [] []) v) code0 data0 err := by
  simp only [Bool.and_eq_true] at h
  exact ⟨rfl, gateReady_of h.1, handlerReady_of h.2, rfl, by decide, ⟨true, rfl⟩, by decide,
    by decide, by decide, by decide, rfl, rfl, rfl, fun _ _ _ => rfl⟩

/-! #### Encoding -/

/-- A BOUND of 15 bytes, the longest. -/
def longest : Instr :=
  .bound16 (.opSize :: List.replicate 7 (.seg .ds)) .eax (.sib 0 .eax .ecx (.d32 1))

theorem witness_DecodeEncode : longest.wf = true ∧ longest.size = 15 := by decide

theorem witness_DecodedIsEncoded : decode (encode longest ++ [0]) = .instr longest := by decide

theorem witness_IllegalEncodings :
    ((0xC0 : Byte).extractLsb' 6 2 = 3#2) ∧
    ((0xD8 : Byte).extractLsb' 6 2 = 3#2 ∧ (0xD8 : Byte).extractLsb' 3 3 = 3#3) ∧
    ((0xFF : Byte).extractLsb' 3 3 = 7#3 ∧ (0xFF : Byte).extractLsb' 6 2 = 3#2) ∧
    ((0x35 : Byte).extractLsb' 3 3 = 6#3 ∧ 5 ≤ ([0, 0, 0, 0, 0] : List Byte).length) ∧
    (6 : Byte) ∉ (ring0 [] []).params.errcodeVectors ∧ ((0xC0 : Byte).extractLsb' 3 3 = 0#3) ∧
    ((0x00 : Byte) ≠ 0x01 ∧ (0x00 : Byte) ≠ 0xB2) ∧
    (prefixOf 0x61 = none ∧
      (0x61 : Byte) ∉ ([0xCD, 0xCC, 0xCE, 0x62, 0xCF, 0xFB, 0xFA, 0x9C, 0x9D, 0x0F, 0x8E, 0x17] :
        List Byte)) ∧
    ((ring0 [0x8E, 0xC8] []).Quiet ∧ decode (ring0 [0x8E, 0xC8] []).fetchWindow = .invalidOpcode) ∧
    ((ring0 [] []).Quiet ∧ decode (ring0 [] []).fetchWindow = .refused (.opcode 0)) :=
  ⟨by decide, by decide, by decide, by decide, by decide, by decide, by decide, by decide,
    ⟨quiet_ring0 _ _, by decide⟩, ⟨quiet_ring0 _ _, by decide⟩⟩

/-- LOCK INT n with the limit of the code segment before its vector. -/
def cutState : State :=
  { ring0 [0xF0, 0xCD, 0x20] [] with
    sregs := { (ring0 [] []).sregs with cs := ⟨8, { code0 with limit := 0x1001 }⟩ } }

theorem witness_PrefixesAndLength :
    ((Instr.sti (List.replicate 13 (.seg .ds))).wf = true ∧
      (Instr.sti (List.replicate 13 (.seg .ds))).size = 14) ∧
    ((Instr.lidt [] (.abs 0)).wf = true ∧ (Instr.lidt [] (.abs 0)).size ≤ 14) ∧
    ((Instr.sti (List.replicate 15 (.seg .ds))).formOk = true ∧
      (Instr.sti (List.replicate 15 (.seg .ds))).size = 16) ∧
    ((ring0 (List.replicate 15 0x3E) []).Quiet ∧
      decode (ring0 (List.replicate 15 0x3E) []).fetchWindow = .truncated) ∧
    (let s := ring0 (0xF0 :: List.replicate 13 0x3E ++ [0xCD, 0x20]) []
     s.Quiet ∧ decode s.fetchWindow = .invalidTruncated ∧ s.fetchWindow.length = 15) ∧
    (cutState.Quiet ∧ decode cutState.fetchWindow = .invalidTruncated ∧
      cutState.fetchWindow.length < 15) ∧
    ((Instr.sti (List.replicate 14 (.seg .ds))).formOk = true ∧
      15 ≤ (Instr.sti (List.replicate 14 (.seg .ds))).size) :=
  ⟨by decide, by decide, by decide, ⟨quiet_ring0 _ _, by decide⟩,
    ⟨quiet_ring0 _ _, by decide, by decide⟩, ⟨⟨rfl, rfl, rfl, rfl, rfl⟩, by decide, by decide⟩, by decide⟩

/-! #### Reset and invariants -/

theorem witness_ResetState :
    (withInput (ring3 [] []) { EnvInput.quiet with reset := true }).input.reset = true := rfl

theorem legal_ring0_cli : (ring0 [0xFA] []).Legal := ⟨by decide, by unfold State.flagsOk; decide, by decide⟩

theorem witness_LegalKept : (ring0 [0xFA] []).Legal ∧ ∃ t, step (ring0 [0xFA] []) = .next t :=
  ⟨legal_ring0_cli, _, next_after (by decide)⟩

theorem witness_IdtrWrittenOnlyByLidt :
    (∃ t, step (ring0 [0x0F, 0x01, 0x1C, 0x24] []) = .next t ∧
      t.idtr ≠ (ring0 [0x0F, 0x01, 0x1C, 0x24] []).idtr) ∧
    (∃ t, step (withInput (ring0 [] []) { EnvInput.quiet with reset := true }) = .next t ∧
      t.idtr ≠ (ring0 [] []).idtr) :=
  ⟨⟨_, next_after (by decide), by decide⟩, ⟨_, next_after (by decide), by decide⟩⟩

theorem witness_SystemStateKept :
    ∃ t, step (ring0 [0xFA] []) = .next t ∧ (ring0 [0xFA] []).input.reset = false :=
  ⟨_, next_after (by decide), rfl⟩

theorem witness_LittleEndian : (1 : Nat) < 2 ∧ (3 : Nat) < 4 ∧ (7 : Nat) < 8 := by decide

/-! #### Steps -/

/-- At level 0 with an IDT of one byte and no double fault: an exception has no step. -/
def noIdt (code : List Byte) : State :=
  { ring0 code [] with idtr := ⟨0x100000, 0⟩, params := { State.reset.params with nestedFault := .refuse } }

/-- An IRETD with NT = 1 and TF = 1 in the second task, linked to the first, whose T flag is set. -/
def trapReturn : State :=
  let s := (saveTask (ring0 [0xCF] []) 0x202 8 0x2000).setByte 0x300064 1
  { s.write16 0x310000 0x28 with
    tr := ⟨0x30, ⟨.tss32 true, 0x310000, 0x67, 0, true, false⟩⟩, eflags := 0x4302 }

/-- The trap on task switch wins over the single step: the step ends in the first task, and the next
one enters the handler of vector 1, which is empty here, so that #GP follows (R126). -/
theorem test_task_trap_first : (after (step trapReturn)).eip = 0x2000 ∧
    (after (step trapReturn)).taskTrap = true := by decide

theorem witness_StepRunsDecoded :
    ((ring0 [0xFA] []).Quiet ∧ decode (ring0 [0xFA] []).fetchWindow = .instr (.cli []) ∧
      (ring0 [0xFA] []).flagTF = false ∧ ∃ t, exec (.cli []) (ring0 [0xFA] []) = .next t) ∧
    (∃ t, exec (.intN [] 32) (ring0 [0xCD, 0x20] []) = .next t ∧ t.deliveries ≠ 0) ∧
    (∃ t, exec (.popSS []) (ring0 [0x17] [0x10]) = .next t ∧ t.eventInhibit = true) ∧
    (trapReturn.Quiet ∧ decode trapReturn.fetchWindow = .instr (.iretd []) ∧
      trapReturn.flagTF = true ∧ ∃ t, exec (.iretd []) trapReturn = .next t ∧ t.taskTrap = true) ∧
    (∃ t, exec (.cli []) { ring0 [0xFA] [] with eflags := 0x302 } = .next t ∧
      (({ ring0 [0xFA] [] with eflags := 0x302 } : State).flagTF = true) ∧ t.deliveries = 0 ∧
      t.eventInhibit = false ∧ t.shutdown = false ∧ t.taskTrap = false) ∧
    ((noIdt [0xCC]).Quiet ∧ exec (.int3 []) (noIdt [0xCC]) = .fault (.nestedException 13 13)) ∧
    exec (.iretd []) (ring0 [0xCF] [0, 0, 0, 0, 8, 0, 0, 0, 0, 0, 2]) =
      .refused .returnToVirtual8086 :=
  ⟨⟨quiet_ring0 _ _, by decide, rfl, _, next_after (by decide)⟩,
    ⟨_, next_after (by decide), by decide⟩, ⟨_, next_after (by decide), by decide⟩,
    ⟨⟨rfl, rfl, rfl, rfl, rfl⟩, by decide, by decide, _, next_after (by decide), by decide⟩,
    ⟨_, next_after (by decide), rfl, by decide, by decide, by decide, by decide⟩,
    ⟨⟨rfl, rfl, rfl, rfl, rfl⟩, by rfl⟩, by rfl⟩

/-! #### Gates -/

theorem witness_IdtLimitCheck :
    (({ ring0 [] [] with idtr := ⟨0x100000, 0x406⟩ } : State).flagVM = false ∧
      ({ ring0 [] [] with idtr := ⟨0x100000, 0x406⟩ } : State).idtr.limit.toNat <
        8 * (128 : Byte).toNat + 7) ∧
    ((ring0 [] []).flagVM = false ∧ 8 * (128 : Byte).toNat + 7 ≤ (ring0 [] []).idtr.limit.toNat ∧
      decodeGate ((ring0 [] []).read64 ((ring0 [] []).idtr.base + 8 * (128 : Byte).setWidth 32)) =
        some ⟨.interrupt, 8, 0x2000, 3, true, true⟩) := by decide

/-- A call gate, and a type with the S bit. -/
theorem witness_NonGateRaises :
    (let s := withGate (ring0 [] []) (gateTo 8 0x8C)
     s.flagVM = false ∧ 8 * (32 : Byte).toNat + 7 ≤ s.idtr.limit.toNat ∧
      (s.read64 (s.idtr.base + 8 * (32 : Byte).setWidth 32)).extractLsb' 40 4 = 12#4) ∧
    (let s := withGate (ring0 [] []) (gateTo 8 0x9E)
     (s.read64 (s.idtr.base + 8 * (32 : Byte).setWidth 32)).getLsbD 44 = true) := by decide

theorem witness_GateDplCheck :
    (let s := ring3 [] []
     s.flagVM = false ∧ 8 * (32 : Byte).toNat + 7 ≤ s.idtr.limit.toNat ∧
      decodeGate (s.read64 (s.idtr.base + 8 * (32 : Byte).setWidth 32)) = some (gateAt s 32) ∧
      (gateAt s 32).dpl < s.cpl) ∧ (gateAt (ring3 [] []) 32).present = true := by decide

/-- A handler of level 3 for an interrupt at level 0. -/
theorem witness_HandlerPrivilegeCheck :
    (let s := withGate (ring0 [] []) (gateTo 0x18 0x8E)
     s.flagVM = false ∧ GateReady s 32 .extIntr (gateAt s 32) ∧ (gateAt s 32).kind ≠ .task ∧
      (gateAt s 32).sel &&& 0xFFFC ≠ 0 ∧ s.readSegDescriptor (gateAt s 32).sel = some code3 ∧
      code3.isCode = true ∧ s.cpl < code3.dpl) :=
  ⟨rfl, gateReady_of (by decide), by decide, by decide, by decide, rfl, by decide⟩

/-- The code segment of selector 48H: its limit is 0FFFH, the gate's offset 2000H. -/
def shortCode : SegDescriptor := ⟨.code false true, 0, 0xFFF, 0, true, true⟩

def absentCode : SegDescriptor := { code0 with present := false }

theorem witness_PresenceAndSegmentChecks :
    (let s := withGate (ring3 [] []) (gateTo 8 0x6E)
     s.flagVM = false ∧ 8 * (32 : Byte).toNat + 7 ≤ s.idtr.limit.toNat ∧
      decodeGate (s.read64 (s.idtr.base + 8 * (32 : Byte).setWidth 32)) = some (gateAt s 32) ∧
      s.cpl ≤ (gateAt s 32).dpl ∧ (gateAt s 32).present = false) ∧
    (let s := withGate (ring0 [] []) (gateTo 3 0x8E)
     GateReady s 32 .softIntN (gateAt s 32) ∧ (gateAt s 32).sel &&& 0xFFFC = 0) ∧
    (let s := withGate (ring0 [] []) (gateTo 0x50 0x8E)
     GateReady s 32 .softIntN (gateAt s 32) ∧ (gateAt s 32).sel &&& 0xFFFC ≠ 0 ∧
      s.readSegDescriptor (gateAt s 32).sel = none) ∧
    (let s := withGate (ring0 [] []) (gateTo 0x10 0x8E)
     GateReady s 32 .softIntN (gateAt s 32) ∧ s.readSegDescriptor (gateAt s 32).sel = some data0 ∧
      data0.isCode = false) ∧
    (let s := withGate (ring0 [] []) (gateTo 0x40 0x8E)
     GateReady s 32 .softIntN (gateAt s 32) ∧
      s.readSegDescriptor (gateAt s 32).sel = some absentCode ∧ absentCode.isCode = true ∧
      absentCode.dpl ≤ s.cpl ∧ absentCode.present = false) ∧
    (let s := withGate (ring0 [] []) (gateTo 0x48 0x8E)
     GateReady s 32 .softIntN (gateAt s 32) ∧
      s.readSegDescriptor (gateAt s 32).sel = some shortCode ∧ shortCode.present = true ∧
      shortCode.inLimit (gateAt s 32).offset 1 = false) :=
  ⟨by decide, ⟨gateReady_of (by decide), by decide⟩, ⟨gateReady_of (by decide), by decide, by decide⟩,
    ⟨gateReady_of (by decide), by decide, rfl⟩,
    ⟨gateReady_of (by decide), by decide, rfl, by decide, rfl⟩,
    ⟨gateReady_of (by decide), by decide, rfl, by decide⟩⟩

/-! #### Deliveries -/

theorem witness_DeliverSameLevel :
    SameLevelReady (ring0 [] []) 128 .extIntr (gateAt (ring0 [] []) 128) code0 none ∧
    SameLevelReady (ring0 [] []) 13 .exc (gateAt (ring0 [] []) 13) code0 (some 0) :=
  ⟨same_ring0 _ _ _ (by decide), same_ring0 _ _ _ (by decide)⟩

theorem witness_DeliverInnerLevel :
    InnerLevelReady (ring3 [] []) 128 .softIntN (gateAt (ring3 [] []) 128) code0 data0 none ∧
    InnerLevelReady (ring3 [] []) 13 .exc (gateAt (ring3 [] []) 13) code0 data0 (some 0) :=
  ⟨inner_ring3 _ _ _ (by decide), inner_ring3 _ _ _ (by decide)⟩

theorem witness_ExceptionEnters :
    (some (0 : Word) = if (13 : Byte) ∈ (ring0 [] []).params.errcodeVectors then some 0 else none) ∧
    (none = if (5 : Byte) ∈ (ring0 [] []).params.errcodeVectors then some (0 : Word) else none) ∧
    SameLevelReady (ring0 [] []) 13 .exc (gateAt (ring0 [] []) 13) code0 (some 0) ∧
    SameLevelReady (ring0 [] []) 5 .exc (gateAt (ring0 [] []) 5) code0 none ∧
    InnerLevelReady (ring3 [] []) 13 .exc (gateAt (ring3 [] []) 13) code0 data0 (some 0) :=
  ⟨by decide, by decide, same_ring0 _ _ _ (by decide), same_ring0 _ _ _ (by decide),
    inner_ring3 _ _ _ (by decide)⟩

theorem witness_PrivilegeDirection :
    (let s := ring3 [] []
     decodeGate (s.read64 (s.idtr.base + 8 * (32 : Byte).setWidth 32)) = some (gateAt s 32) ∧
      (gateAt s 32).kind ≠ .task ∧ isOk (deliver s 32 .extIntr none 0x1B 0x1000) = true) ∧
    (let s := ring0 [0xCF] [0, 0x30, 0, 0, 8]
     s.flagNT = false ∧ s.shutdown = false ∧
      ∃ t, exec (.iretd []) s = .next t ∧ t.shutdown = false ∧ t.deliveries = s.deliveries) :=
  ⟨by decide, rfl, rfl, _, next_after (by decide), by decide, by decide⟩

def raised (o : Except Stop State) : Option Exn :=
  match o with
  | .error (.raise e) => some e
  | _ => none

theorem raise_of {o : Except Stop State} {e : Exn} (h : raised o = some e) : o = .error (.raise e) := by
  match o with
  | .error (.raise x) => simpa [raised] using h
  | .error (.refuse _) => simp [raised] at h
  | .ok _ => simp [raised] at h

/-- Gates 6, 11 and 14 are empty: their deliveries raise #GP. -/
theorem witness_NestedFaults :
    (deliver (ring0 [] []) 11 .exc (some 0) 8 0x1000 = .error (.raise ⟨13, 91⟩)) ∧
    (deliver (ring0 [] []) 14 .exc (some 0) 8 0x1000 = .error (.raise ⟨13, 115⟩)) ∧
    (deliver (ring0 [] []) 6 .exc none 8 0x1000 = .error (.raise ⟨13, 51⟩)) ∧
    isOk (deliver (ring0 [] []) 13 .exc (some 51) 8 0x1000) = true ∧
    (ring0 [] []).params.nestedFault = .doubleFault ∧ (noIdt []).params.nestedFault = .refuse ∧
    (deliver (noIdt []) 6 .exc none 8 0x1000 = .error (.raise ⟨13, 51⟩)) ∧
    (let s := { ring0 [] [] with idtr := ⟨0x100000, 0⟩ }
     deliver s 6 .exc none 8 0x1000 = .error (.raise ⟨13, 51⟩) ∧
      deliver s 13 .exc (some 51) 8 0x1000 = .error (.raise ⟨13, 107⟩)) :=
  ⟨raise_of (by decide), raise_of (by decide), raise_of (by decide), by decide, rfl, rfl,
    raise_of (by decide), raise_of (by decide), raise_of (by decide)⟩

/-- A fault behind MOV SS whose delivery ends in shutdown: an NMI leaves it (93 G10, log 14). -/
theorem test_shutdown_inhibited :
    (let s := { ring0 [0xCC] [] with idtr := ⟨0x100000, 0⟩, eventInhibit := true }
     (after (step s)).shutdown = true ∧ (after (step s)).eventInhibit = false) := by decide

theorem witness_ShutdownLeft :
    (let s := withInput { ring0 [] [] with shutdown := true } { EnvInput.quiet with lint1 := true }
     s.shutdown = true ∧ ∃ t, step s = .next t ∧ t.shutdown = false) ∧
    (let s := withInput { ring0 [] [] with shutdown := true } { EnvInput.quiet with reset := true }
     s.shutdown = true ∧ ∃ t, step s = .next t ∧ t.shutdown = false) :=
  ⟨⟨rfl, _, next_after (by decide), by decide⟩, ⟨rfl, _, next_after (by decide), by decide⟩⟩

theorem witness_ErrorCodeFormat : (31 : Nat) < 32 := by decide

/-! #### Software interrupts -/

theorem witness_SoftwareInterruptEnters :
    ((ring0 [] []).Runs ∧ softEvent (ring0 [] []) (.intN [] 128) = some (128, .softIntN) ∧
      SameLevelReady (ring0 [] []) 128 .softIntN (gateAt (ring0 [] []) 128) code0 none) ∧
    (softEvent (ring0 [] []) (.int3 []) = some (3, .softInt3) ∧
      SameLevelReady (ring0 [] []) 3 .softInt3 (gateAt (ring0 [] []) 3) code0 none) ∧
    ((ring3 [] []).Runs ∧
      InnerLevelReady (ring3 [] []) 128 .softIntN (gateAt (ring3 [] []) 128) code0 data0 none) ∧
    (let s := { ring3 [] [] with eflags := 0xA02 }
     s.Runs ∧ softEvent s (.into []) = some (4, .softInto) ∧
      InnerLevelReady s 4 .softInto (gateAt s 4) code0 data0 none) :=
  ⟨⟨runs_ring0 _ _, rfl, same_ring0 _ _ _ (by decide)⟩, ⟨rfl, same_ring0 _ _ _ (by decide)⟩,
    ⟨runs_ring3 _ _, inner_ring3 _ _ _ (by decide)⟩, ⟨⟨rfl, rfl⟩, by decide,
      inner_of (by decide) (by decide) ⟨true, rfl⟩ (room_data0 _ _ _)⟩⟩

theorem witness_SoftwareInterruptFaults :
    (let s := { ring0 [] [] with idtr := ⟨0x100000, 0x406⟩ }
     s.Runs ∧ softEvent s (.intN [] 128) = some (128, .softIntN) ∧
      s.idtr.limit.toNat < 8 * (128 : Byte).toNat + 7) ∧
    (let s := ring3 [] []
     s.Runs ∧ 8 * (32 : Byte).toNat + 7 ≤ s.idtr.limit.toNat ∧
      decodeGate (s.read64 (s.idtr.base + 8 * (32 : Byte).setWidth 32)) = some (gateAt s 32) ∧
      (gateAt s 32).dpl < s.cpl) :=
  ⟨⟨⟨rfl, rfl⟩, rfl, by decide⟩, ⟨runs_ring3 _ _, by decide, by decide, by decide⟩⟩

/-- With a gate of DPL 3 for vector 2 at level 3, and with the gate of DPL 0. -/
theorem witness_Int2IsNoNmi :
    ((ring0 [] []).Runs ∧ (∃ t, exec (.intN [] 2) (ring0 [] []) = .next t) ∧
      SameLevelReady (ring0 [] []) 2 .softIntN (gateAt (ring0 [] []) 2) code0 none) ∧
    (let s := (ring3 [] []).writeBytes 0x100010 (gateTo 8 0xEE)
     s.Runs ∧ InnerLevelReady s 2 .softIntN (gateAt s 2) code0 data0 none) ∧
    (let s := ring3 [] []
     s.Runs ∧ 8 * 2 + 7 ≤ s.idtr.limit.toNat ∧
      decodeGate (s.read64 (s.idtr.base + 16)) = some (gateAt s 2) ∧ (gateAt s 2).dpl < s.cpl) :=
  ⟨⟨runs_ring0 _ _, ⟨_, next_after (by decide)⟩, same_ring0 _ _ _ (by decide)⟩,
    ⟨⟨rfl, rfl⟩, inner_of (by decide) (by decide) ⟨true, rfl⟩ (room_data0 _ _ _)⟩,
    ⟨runs_ring3 _ _, by decide, by decide, by decide⟩⟩

theorem witness_IntoWithoutOverflow : (ring0 [] []).Runs ∧ (ring0 [] []).flagOF = false := ⟨⟨rfl, rfl⟩, rfl⟩

/-- The bounds 0 and 4 at 00010000H, the indexes 4, 5 and -1. -/
def boundState (eax : Word) (hi : Byte) : State :=
  { ring0 [] [0, 0, hi, 0, 4] with regs := ⟨eax, 0, 0, 0, 0x10000, 0, 0, 0⟩ }

theorem witness_BoundChecksIndex :
    (let s := boundState 4 0
     let m : MemOperand := .abs 0x10000
     s.Runs ∧ OperandPermitted s [] m 0 4 false ∧ OperandPermitted s [] m 4 4 false ∧
      (s.read32 (operandLinear s [] m)).toInt ≤ (s.getReg .eax).toInt ∧
      (s.getReg .eax).toInt ≤ (s.read32 (operandLinear s [] m + 4)).toInt) ∧
    (let s := boundState 5 0
     (s.read32 (operandLinear s [] (.abs 0x10000) + 4)).toInt < (s.getReg .eax).toInt) ∧
    (let s := boundState 0xFFFFFFFF 0
     (s.getReg .eax).toInt < (s.read32 (operandLinear s [] (.abs 0x10000))).toInt) ∧
    (let s := boundState 4 4
     let m : MemOperand := .abs 0x10000
     OperandPermitted s [] m 0 2 false ∧ OperandPermitted s [] m 2 2 false ∧
      ((s.getReg .eax).extractLsb' 0 16).toInt ≤ (s.read16 (operandLinear s [] m + 2)).toInt) ∧
    (let s := boundState 5 4
     (s.read16 (operandLinear s [] (.abs 0x10000) + 2)).toInt <
      ((s.getReg .eax).extractLsb' 0 16).toInt) :=
  ⟨⟨⟨rfl, rfl⟩, rfl, rfl, by decide, by decide⟩, by decide, by decide, ⟨rfl, rfl, by decide⟩,
    by decide⟩

/-! #### Flags and IDTR -/

theorem witness_StiSetsIf :
    ((ring0 [] []).Runs ∧ (ring0 [] []).cpl ≤ (ring0 [] []).iopl ∧ (ring0 [] []).flagIF = true) ∧
    (let s := { ring3 [] [] with eflags := 0x2002 }
     s.Runs ∧ s.iopl < s.cpl) ∧
    (let s := { ring3 [] [] with eflags := 0x3002 }
     s.cpl ≤ s.iopl) :=
  ⟨⟨runs_ring0 _ _, by decide, by decide⟩, ⟨⟨rfl, by decide⟩, by decide⟩, by decide⟩

theorem witness_CliClearsIf :
    ((ring0 [] []).Runs ∧ (ring0 [] []).cpl ≤ (ring0 [] []).iopl) ∧
    (let s := { ring3 [] [] with eflags := 0x2202 }
     s.Runs ∧ s.iopl < s.cpl) :=
  ⟨⟨runs_ring0 _ _, by decide⟩, ⟨⟨rfl, by decide⟩, by decide⟩⟩

/-- A stack segment of limit 3, and ESP in it. -/
def tightStack (esp : Word) (stack : List Byte) : State :=
  { ring0 [] [] with
    regs := ⟨0, 0, 0, 0, esp, 0, 0, 0⟩
    sregs := { (ring0 [] []).sregs with ss := ⟨0x10, { data0 with limit := 3 }⟩ }
    mem := cells 0 stack }

theorem witness_PushFlagsStoresEflags :
    ((tightStack 4 []).Runs ∧ RoomFor (tightStack 4 []).sregs.ss.desc 4 true 1) ∧
    (RoomFor (tightStack 4 []).sregs.ss.desc 2 false 1) ∧
    (¬ RoomFor (tightStack 4 []).sregs.ss.desc 5 true 1) ∧
    (¬ RoomFor (tightStack 4 []).sregs.ss.desc 5 false 1) := by
  refine ⟨⟨⟨rfl, by decide⟩, fun k h1 h2 => ?_⟩, fun k h1 h2 => ?_, fun h => ?_, fun h => ?_⟩
  · obtain rfl : k = 1 := by omega
    decide
  · obtain rfl : k = 1 := by omega
    decide
  · exact absurd (h 1 (by decide) (by decide)) (by decide)
  · exact absurd (h 1 (by decide) (by decide)) (by decide)

theorem readable_one {s : State} {w : Bool}
    (h : s.sregs.ss.desc.permits (slotAt s.regs.esp w 0) (slotSize w) false = true) :
    StackReadable s w 1 := fun k hk => by
  obtain rfl : k = 0 := by omega
  exact h

theorem witness_PopFlagsLoadsEflags :
    ((tightStack 0 []).Runs ∧ StackReadable (tightStack 0 []) true 1) ∧
    StackReadable (tightStack 2 []) false 1 :=
  ⟨⟨⟨rfl, by decide⟩, readable_one (by decide)⟩, readable_one (by decide)⟩

theorem witness_LidtLoadsIdtr :
    ((ring0 [] []).Runs ∧ (ring0 [] []).cpl = 0 ∧
      OperandPermitted (ring0 [] []) [] (.abs 0x10000) 0 2 false ∧
      OperandPermitted (ring0 [] []) [] (.abs 0x10000) 2 4 false) ∧
    ((ring3 [] []).Runs ∧ (ring3 [] []).cpl ≠ 0) ∧
    ((tightStack 0 []).cpl = 0 ∧ OperandPermitted (tightStack 0 []) [.seg .ss] (.abs 0) 0 2 false ∧
      ¬ OperandPermitted (tightStack 0 []) [.seg .ss] (.abs 0) 2 4 false) :=
  ⟨⟨runs_ring0 _ _, by decide, rfl, rfl⟩, ⟨runs_ring3 _ _, by decide⟩,
    ⟨by decide, by unfold OperandPermitted; decide, by unfold OperandPermitted; decide⟩⟩

theorem witness_SidtStoresIdtr :
    (ring3 [] []).Runs ∧ OperandPermitted (ring3 [] []) [] (.abs 0x10000) 0 2 true ∧
      OperandPermitted (ring3 [] []) [] (.abs 0x10000) 2 4 true := ⟨runs_ring3 _ _, rfl, rfl⟩

/-! #### Loads of SS -/

theorem selector_ok (c d : List Byte) (h : (ring0 c d).readSegDescriptor 0x10 = some data0) :
    StackSelectorOk (ring0 c d) 0x10 data0 :=
  ⟨by decide, h, (by decide : (0x10 : Half).extractLsb' 0 2 = (8 : Half).extractLsb' 0 2), rfl,
    (by decide : (0 : BitVec 2) = (8 : Half).extractLsb' 0 2), rfl⟩

theorem witness_MovSSLoadsSS :
    (ring0 [] []).Runs ∧ StackSelectorOk (ring0 [] []) 0x10 data0 ∧
    SourceIs (ring0 [] [0x10]) [] (.mem (.abs 0x10000)) 0x10 ∧
    StackSelectorOk (ring0 [] [0x10]) 0x10 data0 ∧
    SourceIs (ring0 [] []) [] (.reg .eax) 0 :=
  ⟨runs_ring0 _ _, selector_ok _ _ (by decide), ⟨rfl, by decide⟩, selector_ok _ _ (by decide),
    (by decide : (0 : Half) = (0 : Word).extractLsb' 0 16)⟩

theorem witness_PopSSLoadsSS :
    (ring0 [] [0x10]).Runs ∧ StackReadable (ring0 [] [0x10]) true 1 ∧
    (stackSlot (ring0 [] [0x10]) true 0).extractLsb' 0 16 = 0x10 ∧
    StackReadable (ring0 [] [0x10]) false 1 ∧
    (stackSlot (ring0 [] [0x10]) false 0).extractLsb' 0 16 = 0x10 ∧
    StackSelectorOk (ring0 [] [0x10]) 0x10 data0 :=
  ⟨runs_ring0 _ _, readable_ring0 _ _ _ _, by decide, readable_ring0 _ _ _ _, by decide,
    selector_ok _ _ (by decide)⟩

theorem witness_LssLoadsPair :
    (let s := ring0 [] [0, 0, 1, 0x80, 0x10]
     s.Runs ∧ OperandPermitted s [] (.abs 0x10000) 0 4 false ∧
      OperandPermitted s [] (.abs 0x10000) 4 2 false ∧
      s.read16 (operandLinear s [] (.abs 0x10000) + 4) = 0x10 ∧ StackSelectorOk s 0x10 data0) ∧
    (let s := ring0 [] [0, 0, 0x10]
     OperandPermitted s [.opSize] (.abs 0x10000) 0 2 false ∧
      OperandPermitted s [.opSize] (.abs 0x10000) 2 2 false ∧
      s.read16 (operandLinear s [.opSize] (.abs 0x10000) + 2) = 0x10 ∧
      StackSelectorOk s 0x10 data0) :=
  ⟨⟨⟨rfl, by decide⟩, rfl, rfl, by decide, selector_ok _ _ (by decide)⟩,
    ⟨rfl, rfl, by decide, selector_ok _ _ (by decide)⟩⟩

def absentData : SegDescriptor := { data0 with present := false }

/-- A null selector of RPL 3, a selector beyond the GDT, a wrong RPL, a code segment, a DPL of 3, and
a segment that is not present, which with a wrong RPL can raise either exception. -/
theorem witness_StackSelectorFaults :
    (ring0 [] []).Runs ∧ StackSelectorFault (ring0 [] []) 3 0 ⟨13, 0⟩ ∧
    StackSelectorFault (ring0 [] []) 0x50 0 ⟨13, 0x50⟩ ∧
    StackSelectorFault (ring0 [] []) 0x11 0 ⟨13, 0x10⟩ ∧
    StackSelectorFault (ring0 [] []) 8 0 ⟨13, 8⟩ ∧
    StackSelectorFault (ring0 [] []) 0x20 0 ⟨13, 0x20⟩ ∧
    StackSelectorFault (ring0 [] []) 0x38 0 ⟨12, 0x38⟩ ∧
    (StackSelectorFault (ring0 [] []) 0x39 0 ⟨12, 0x38⟩ ∧
      StackSelectorFault (ring0 [] []) 0x39 0 ⟨13, 0x38⟩) ∧
    (ring0 [] []).cpl = 0 ∧
    (∀ sel : Half, SourceIs { ring0 [] [] with regs := ⟨sel.setWidth 32, 0, 0, 0, 0, 0, 0, 0⟩ } []
      (.reg .eax) ((sel.setWidth 32 : Word).extractLsb' 0 16)) ∧
    (StackReadable (ring0 [] [0x38]) true 1 ∧
      (stackSlot (ring0 [] [0x38]) true 0).extractLsb' 0 16 = 0x38) ∧
    (let s := ring0 [] [0, 0, 0, 0, 0x38]
     OperandPermitted s [] (.abs 0x10000) 0 4 false ∧ OperandPermitted s [] (.abs 0x10000) 4 2 false ∧
      s.read16 (operandLinear s [] (.abs 0x10000) + 4) = 0x38) ∧
    (let s := ring0 [] [0, 0, 0x38]
     OperandPermitted s [.opSize] (.abs 0x10000) 0 2 false ∧
      OperandPermitted s [.opSize] (.abs 0x10000) 2 2 false ∧
      s.read16 (operandLinear s [.opSize] (.abs 0x10000) + 2) = 0x38) :=
  ⟨runs_ring0 _ _, .inl (by decide), .inr (.inl (by decide)),
    .inr (.inr ⟨by decide, data0, by decide, .inl (by decide)⟩),
    .inr (.inr ⟨by decide, code0, by decide, .inl (by decide)⟩),
    .inr (.inr ⟨by decide, data3, by decide, .inl (by decide)⟩),
    .inr (.inr ⟨by decide, absentData, by decide, .inr (by decide)⟩),
    ⟨.inr (.inr ⟨by decide, absentData, by decide, .inr (by decide)⟩),
      .inr (.inr ⟨by decide, absentData, by decide, .inl (by decide)⟩)⟩, by decide, fun _ => rfl,
    ⟨readable_ring0 _ _ _ _, by decide⟩, ⟨rfl, rfl, by decide⟩, ⟨rfl, rfl, by decide⟩⟩

/-- A data segment of limit 3: the last byte of each access is the first one beyond it. -/
def tightData : State :=
  { ring0 [] [] with
    sregs := { (ring0 [] []).sregs with ds := ⟨0x10, { data0 with limit := 3 }⟩ } }

theorem witness_OperandFaults :
    tightData.Runs ∧
    (OperandPermitted tightData [] (.abs 0) 0 4 false ∧
      ¬ OperandPermitted tightData [] (.abs 0) 4 4 false) ∧
    (OperandPermitted tightData [] (.abs 2) 0 2 false ∧
      ¬ OperandPermitted tightData [] (.abs 2) 2 2 false) ∧
    (OperandPermitted tightData [] (.abs 2) 0 2 true ∧
      ¬ OperandPermitted tightData [] (.abs 2) 2 4 true) ∧
    ¬ OperandPermitted tightData [] (.abs 3) 0 2 false ∧
    ¬ OperandPermitted tightData [] (.abs 0) 4 2 false ∧
    (OperandPermitted tightData [.opSize] (.abs 2) 0 2 false ∧
      ¬ OperandPermitted tightData [.opSize] (.abs 2) 2 2 false) ∧
    (tightStack 1 []).Runs ∧ ¬ StackReadable (tightStack 1 []) true 1 ∧
    ¬ StackReadable (tightStack 3 []) false 1 :=
  ⟨⟨rfl, by decide⟩, by unfold OperandPermitted; decide, by unfold OperandPermitted; decide,
    by unfold OperandPermitted; decide, by unfold OperandPermitted; decide,
    by unfold OperandPermitted; decide, by unfold OperandPermitted; decide, ⟨rfl, by decide⟩,
    fun h => absurd (h 0 (by decide)) (by decide), fun h => absurd (h 0 (by decide)) (by decide)⟩

/-! #### Returns -/

/-- A frame for a return to level 0, and one for a return to level 3. -/
def sameFrame : List Byte := [0, 0x30, 0, 0, 8, 0, 0, 0, 2, 2]
def outerFrame : List Byte := [0, 0x30, 0, 0, 0x1B, 0, 0, 0, 2, 2, 0, 0, 0, 0xF0, 0xFF, 0xBF, 0x23]

theorem ready_same : ReturnReady (ring0 [] sameFrame) true code0 :=
  ⟨by decide, by decide, rfl, by decide, by decide, rfl, rfl, fun _ _ => by decide⟩

theorem witness_IretSameLevel :
    ((ring0 [] sameFrame).Runs ∧ (ring0 [] sameFrame).flagNT = false ∧
      iretSize (.iretd []) = some true ∧ StackReadable (ring0 [] sameFrame) true 3 ∧
      ReturnReady (ring0 [] sameFrame) true code0 ∧
      (stackSlot (ring0 [] sameFrame) true 1).extractLsb' 0 2 = (ring0 [] sameFrame).cpl) ∧
    (let s := ring0 [] [0, 0x30, 8, 0, 2, 2]
     iretSize (.iret [.opSize]) = some false ∧ StackReadable s false 3 ∧ ReturnReady s false code0 ∧
      (stackSlot s false 1).extractLsb' 0 2 = s.cpl) :=
  ⟨⟨runs_ring0 _ _, by decide, rfl, readable_ring0 _ _ _ _, ready_same, by decide⟩,
    ⟨rfl, readable_ring0 _ _ _ _,
      ⟨by decide, by decide, rfl, by decide, by decide, rfl, rfl, fun h => nomatch h⟩, by decide⟩⟩

theorem witness_IretOuterLevel :
    (let s := ring0 [] outerFrame
     s.Runs ∧ s.flagNT = false ∧ StackReadable s true 5 ∧ ReturnReady s true code3 ∧
      s.cpl < (stackSlot s true 1).extractLsb' 0 2 ∧
      (stackSlot s true 4).extractLsb' 0 16 &&& 0xFFFC ≠ 0#16 ∧
      s.readSegDescriptor ((stackSlot s true 4).extractLsb' 0 16) = some data3 ∧
      (stackSlot s true 4).extractLsb' 0 2 = (stackSlot s true 1).extractLsb' 0 2 ∧
      data3.isWritableData = true ∧ data3.dpl = (stackSlot s true 1).extractLsb' 0 2 ∧
      data3.present = true) :=
  ⟨⟨rfl, by decide⟩, by decide, fun _ _ => rfl,
    ⟨by decide, by decide, rfl, by decide, by decide, rfl, rfl, fun _ _ => by decide⟩, by decide,
    by decide, by decide, by decide, rfl, by decide, rfl⟩

theorem witness_IretRestoresFlags :
    let s := ring3 [0xCF] [0, 0x30, 0, 0, 0x1B, 0, 0, 0, 0x41, 0x30]
    iretSize (.iretd []) = some true ∧ s.flagNT = false ∧ s.shutdown = false ∧
      ∃ t, exec (.iretd []) s = .next t ∧ t.shutdown = false ∧ t.deliveries = s.deliveries :=
  ⟨rfl, by decide, rfl, _, next_after (by decide), by decide, by decide⟩

/-- The state whose stack holds a return to a selector. -/
def returnTo (sel : Byte) : State := ring0 [] [0, 0x30, 0, 0, sel]

/-- A return to level 3 with SS = `ss`, on a stack segment of a limit. -/
def outerTo (ss : Byte) (limit : Word) : State :=
  let s := ring0 [] [0, 0x30, 0, 0, 0x1B, 0, 0, 0, 2, 2, 0, 0, 0, 0xF0, 0xFF, 0xBF, ss]
  { s with sregs := { s.sregs with ss := ⟨0x10, { data0 with limit := limit }⟩ } }

/-- Unreadable items, VM = 1, the five faults of CS, an EIP beyond the limit (with CS absent too), the
items of SS:ESP beyond the limit of the stack, and a null SS. -/
theorem witness_IretChecks :
    ((tightStack 0 []).Runs ∧ (tightStack 0 []).flagNT = false ∧ iretSize (.iretd []) = some true ∧
      ¬ StackReadable (tightStack 0 []) true 3) ∧
    (let s := ring0 [] [0, 0, 0, 0, 8, 0, 0, 0, 0, 0, 2]
     StackReadable s true 3 ∧ s.cpl = 0 ∧ (stackSlot s true 2).getLsbD 17 = true) ∧
    ((returnTo 3).Runs ∧ (returnTo 3).flagNT = false ∧ StackReadable (returnTo 3) true 3 ∧
      (stackSlot (returnTo 3) true 2).getLsbD 17 = false ∧
      CodeReturnFault (returnTo 3) (poppedCs (returnTo 3) true) ⟨13, 0⟩) ∧
    CodeReturnFault (returnTo 0x50) (poppedCs (returnTo 0x50) true) ⟨13, 0x50⟩ ∧
    CodeReturnFault (returnTo 0x10) (poppedCs (returnTo 0x10) true) ⟨13, 0x10⟩ ∧
    CodeReturnFault (returnTo 0x18) (poppedCs (returnTo 0x18) true) ⟨13, 0x18⟩ ∧
    CodeReturnFault (returnTo 0x40) (poppedCs (returnTo 0x40) true) ⟨11, 0x40⟩ ∧
    ((∀ e, ¬ CodeReturnFault (returnTo 0x48) (poppedCs (returnTo 0x48) true) e) ∧
      EntryReturnFault (returnTo 0x48) true ⟨13, 0⟩) ∧
    (StackReadable (outerTo 0x23 0x1000F) true 3 ∧
      OuterReturnFault (outerTo 0x23 0x1000F) true ⟨12, 0⟩) ∧
    (StackReadable (outerTo 0 0x10013) true 5 ∧ OuterReturnFault (outerTo 0 0x10013) true ⟨13, 0⟩) :=
  have five : StackReadable (outerTo 0 0x10013) true 5 := fun k hk => by
    interval_cases k <;> decide
  ⟨⟨⟨rfl, by decide⟩, by decide, rfl, fun h => absurd (h 1 (by decide)) (by decide)⟩,
    ⟨fun _ _ => rfl, by decide, by decide⟩,
    ⟨⟨rfl, by decide⟩, by decide, fun _ _ => rfl, by decide, .inl (by decide)⟩,
    .inr (.inl (by decide)), .inr (.inr ⟨by decide, data0, by decide, .inl (by decide)⟩),
    .inr (.inr ⟨by decide, code3, by decide, .inl (by decide)⟩),
    .inr (.inr ⟨by decide, absentCode, by decide, .inr (by decide)⟩),
    ⟨fun e h => by
      have hr : (returnTo 0x48).readSegDescriptor (poppedCs (returnTo 0x48) true) =
        some shortCode := by decide
      rcases h with h | h | ⟨-, d, hd, h⟩
      · exact absurd h.1 (by decide)
      · exact absurd (hr.symm.trans h.2.1) (by simp)
      · obtain rfl : shortCode = d := Option.some.inj (hr.symm.trans hd)
        rcases h with ⟨h, -⟩ | ⟨h, -⟩
        · exact absurd h (by decide)
        · exact absurd h (by decide),
      ⟨shortCode, by decide, by decide⟩, rfl⟩,
    ⟨fun k hk => by interval_cases k <;> decide,
      by decide, .inl ⟨fun h => absurd (h 4 (by decide)) (by decide), rfl⟩⟩,
    ⟨five, by decide, .inr ⟨five, .inl (by decide)⟩⟩⟩

/-- An IRETD with NMIs blocked: one that returns, and one that faults. -/
theorem witness_NmiUnblockedByIretOnly :
    (let s := { ring0 [0xCF] sameFrame with nmiBlocked := true }
     s.nmiBlocked = true ∧ ∃ t, step s = .next t ∧ t.nmiBlocked = false) ∧
    (let s := { ring0 [0xCF] [] with nmiBlocked := true }
     ∃ t, exec (.iretd []) s = .next t ∧ t.deliveries ≠ s.deliveries) ∧
    (let s := withInput { ring0 [] [] with nmiBlocked := true } { EnvInput.quiet with reset := true }
     ∃ t, step s = .next t ∧ t.nmiBlocked = false) :=
  ⟨⟨rfl, _, next_after (by decide), by decide⟩, ⟨_, next_after (by decide), by decide⟩,
    ⟨_, next_after (by decide), by decide⟩⟩

/-- A selector into the GDT of these tests. -/
theorem descriptor_gdt {t : State} {sel : Half} (a : Word) (hg : t.gdtr = ⟨0x200000, 0x4F⟩)
    (h : selTi sel = false) (h0 : selIndex sel ≠ 0) (hi : 8 * (selIndex sel).toNat + 7 ≤ 0x4F)
    (ha : 0x200000 + BitVec.ofNat 32 (8 * (selIndex sel).toNat) = a) :
    t.readSegDescriptor sel = some (decodeSegDescriptor (t.read64 a)) := by
  unfold State.readSegDescriptor State.descriptorAddr
  rw [h, hg]
  simp only [Bool.false_eq_true, if_false, h0]
  rw [if_pos (show _ ≤ (0x4F : Half).toNat from hi), ha]
  rfl

/-- A delivery to the same level leaves the GDT. -/
theorem witness_InterruptAndReturnSameLevel :
    let s := ring0 [] []
    s.Runs ∧ s.flagsOk ∧ SameLevelReady s 32 .extIntr (gateAt s 32) code0 none ∧
    (gateAt s 32).wide = true ∧
    (∃ t, deliver s 32 .extIntr none s.sregs.cs.sel s.eip = .ok t ∧
      t.readSegDescriptor s.sregs.cs.sel = some s.sregs.cs.desc) ∧
    s.sregs.cs.sel &&& 0xFFFC ≠ 0 ∧ code0.isCode = true ∧ code0.present = true ∧
    code0.isConforming = false ∧ code0.dpl = s.cpl ∧ code0.inLimit s.eip 1 = true ∧
    s.cpl ≤ s.iopl := by
  have ready := same_ring0 32 .extIntr none (by decide)
  have wide : (gateAt (ring0 [] []) 32).wide = true := by decide
  refine ⟨runs_ring0 _ _, by unfold State.flagsOk; decide, ready, wide, ?_, by decide, rfl, rfl, rfl,
    by decide, rfl, by decide⟩
  obtain ⟨u, x, -, st, hd⟩ := ready.stages 8 0x1000
  obtain ⟨t, ht⟩ : ∃ t, t = endDelivery (enterHandler u (gateAt (ring0 [] []) 32) code0
    (ring0 [] []).cpl) .extIntr := ⟨_, rfl⟩
  have hg : t.gdtr = ⟨0x200000, 0x4F⟩ := by obtain ⟨m, n, rfl⟩ := st.state; rw [ht]; rfl
  have n12 : slotSize (gateAt (ring0 [] []) 32).wide * 3 = 12 := by decide
  have hm := st.memory
  have l3 : ((none : Option Word).toList ++ 0x1000 :: x :: (ring0 [] []).eflags :: []).length = 3 := rfl
  rw [st.esp, l3, n12, show (ring0 [] []).sregs.ss.desc.base + ((ring0 [] []).regs.esp - BitVec.ofNat 32 12) =
      0xFFF4 by decide] at hm
  have hm : SameMemoryOutside (ring0 [] []) t 0xFFF4 12 := fun z hz =>
    (byteAt_congr (s := t) (t := u) (by rw [ht, endDelivery_mem, enterHandler_mem]) z).trans (hm z hz)
  refine ⟨t, ht ▸ hd, ?_⟩
  rw [descriptor_gdt 0x200008 hg (by decide) (by decide) (by decide) (by decide),
    read64_of_outside hm (by decide)]
  decide

theorem witness_InterruptAndReturnInner :
    let s := ring3 [] []
    s.Runs ∧ s.flagsOk ∧ InnerLevelReady s 32 .extIntr (gateAt s 32) code0 data0 none ∧
    (gateAt s 32).wide = true ∧ code0.dpl = 0 ∧
    (∃ t, deliver s 32 .extIntr none s.sregs.cs.sel s.eip = .ok t ∧
      t.readSegDescriptor s.sregs.cs.sel = some s.sregs.cs.desc ∧
      t.readSegDescriptor s.sregs.ss.sel = some s.sregs.ss.desc) ∧
    s.sregs.cs.sel &&& 0xFFFC ≠ 0 ∧ code3.isCode = true ∧ code3.present = true ∧
    code3.isConforming = false ∧ code3.dpl = s.cpl ∧ code3.inLimit s.eip 1 = true ∧
    StackSelectorOk s s.sregs.ss.sel s.sregs.ss.desc ∧
    (∀ r : SegRegister, r = s.sregs.es ∨ r = s.sregs.ds ∨ r = s.sregs.fs ∨ r = s.sregs.gs →
      ¬(r.desc.present = true ∧ r.desc.dpl < s.cpl)) := by
  have ready := inner_ring3 32 .extIntr none (by decide)
  have wide : (gateAt (ring3 [] []) 32).wide = true := by decide
  refine ⟨runs_ring3 _ _, by unfold State.flagsOk; decide, ready, wide, rfl, ?_, by decide, rfl, rfl,
    rfl, by decide, rfl, ⟨by decide, by decide, by decide, rfl, by decide, rfl⟩, ?_⟩
  · obtain ⟨u, x, y, -, -, st, hd⟩ := ready.stages 0x1B 0x1000
    obtain ⟨t, ht⟩ : ∃ t, t = endDelivery (enterHandler u (gateAt (ring3 [] []) 32) code0
      code0.dpl) .extIntr := ⟨_, rfl⟩
    have hg : t.gdtr = ⟨0x200000, 0x4F⟩ := by obtain ⟨m, n, rfl⟩ := st.state; rw [ht]; rfl
    have n20 : slotSize (gateAt (ring3 [] []) 32).wide * 5 = 20 := by decide
    have hm := st.memory
    have l5 : ((none : Option Word).toList ++ 0x1000 :: x :: (ring3 [] []).eflags ::
      (ring3 [] []).regs.esp :: y :: []).length = 5 := rfl
    rw [st.esp, l5, n20,
      show ((((ring3 [] []).setSS ⟨tssSs (ring3 [] []) code0.dpl, data0⟩).setReg .esp
        (tssEsp (ring3 [] []) code0.dpl)).sregs.ss.desc.base +
        ((((ring3 [] []).setSS ⟨tssSs (ring3 [] []) code0.dpl, data0⟩).setReg .esp
        (tssEsp (ring3 [] []) code0.dpl)).regs.esp - BitVec.ofNat 32 20)) = 0x8000FFEC by decide] at hm
    have hm : SameMemoryOutside (ring3 [] []) t 0x8000FFEC 20 := fun z hz =>
      (byteAt_congr (s := t) (t := u) (by rw [ht, endDelivery_mem, enterHandler_mem]) z).trans (hm z hz)
    refine ⟨t, ht ▸ hd, ?_, ?_⟩
    · rw [descriptor_gdt 0x200018 hg (by decide) (by decide) (by decide) (by decide),
        read64_of_outside hm (by decide)]
      decide
    · rw [descriptor_gdt 0x200020 hg (by decide) (by decide) (by decide) (by decide),
        read64_of_outside hm (by decide)]
      decide
  · intro r h
    have e : r = ⟨0x23, data3⟩ := by rcases h with rfl | rfl | rfl | rfl <;> rfl
    subst e
    decide

/-! #### Handler tasks -/

def busyTss : SegDescriptor := ⟨.tss32 true, 0x300000, 0x67, 0, true, false⟩
def freeTss : SegDescriptor := ⟨.tss32 false, 0x310000, 0x67, 0, true, false⟩

/-- The state whose second TSS holds a context of level 0. -/
def taskState : State :=
  let s := withGate (ring0 [] []) (gateTo 0x30 0x85)
  { saveTask { s with tr := ⟨0x30, freeTss⟩ } 0x202 8 0x2000 with tr := s.tr }

theorem witness_TaskSwitchEnters :
    let g : Gate := ⟨.task, 0x30, 0, 0, true, true⟩
    decodeGate (taskState.read64 (taskState.idtr.base + 8 * (32 : Byte).setWidth 32)) = some g ∧
    taskState.descriptorAddr g.sel = some 0x200030 ∧
    taskState.readSegDescriptor g.sel = some freeTss ∧
    isOk (deliver taskState 32 .extIntr none 8 0x1000) = true ∧
    isOk (deliver taskState 32 .exc (some 0) 8 0x1000) = true ∧
    2 ≤ (((0x200030 : Word) + 5) - freeTss.base).toNat := by decide

/-- In the second task with NT = 1, linked to the first. -/
def nestedState : State :=
  let s := saveTask (ring0 [] []) 0x202 8 0x2000
  { s.write16 0x310000 0x28 with tr := ⟨0x30, { freeTss with kind := .tss32 true }⟩, eflags := 0x4202 }

theorem witness_TaskReturnFollowsLink :
    nestedState.flagNT = true ∧ nestedState.shutdown = false ∧
      ∃ t, exec (.iretd []) nestedState = .next t ∧ t.shutdown = false ∧
        t.deliveries = nestedState.deliveries :=
  ⟨by decide, rfl, _, next_after (by decide), by decide, by decide⟩

/-- A task gate to a busy TSS with a context that is in order, and a return whose link names a TSS that
is not busy. -/
theorem witness_TaskSwitchFaults :
    (let s := withGate (ring0 [] []) (gateTo 0x28 0x85)
     let busy : Exn := ⟨13, selectorCode 0x28 1⟩
     s.flagVM = false ∧ GateReady s 32 .extIntr (gateAt s 32) ∧ (gateAt s 32).kind = .task ∧
      (gateAt s 32).sel = 0x28 ∧ s.readSegDescriptor 0x28 = some busyTss ∧
      (∀ e, TaskGateFault s 0x28 1 8 0x1000 e ↔ e = busy)) ∧
    (let s := nestedState.write16 0x310000 0x30
     s.Runs ∧ s.flagNT = true ∧ IsTss32 s.tr.desc ∧
      ∀ e, TaskReturnFault { s with nmiBlocked := false } (s.eip + 1) e ↔ e = ⟨10, selectorCode 0x30 0⟩) := by
  refine ⟨⟨by decide, gateReady_of (by decide), by decide, by decide, by decide, fun e => ?_⟩,
    ⟨rfl, by decide⟩, by decide, ⟨true, rfl⟩, fun e => ?_⟩
  · rw [← mem_gateTaskFaults, show gateTaskFaults _ _ _ _ _ = [⟨13, selectorCode 0x28 1⟩] by decide,
      List.mem_singleton]
  · rw [← mem_returnTaskFaults, show returnTaskFaults _ _ = [⟨10, selectorCode 0x30 0⟩] by decide,
      List.mem_singleton]

/-- A busy TSS that is not present either: two faults of one class, and one of them is raised. -/
theorem test_busy_and_absent :
    gateTaskFaults ((withGate (ring0 [] []) (gateTo 0x28 0x85)).setByte 0x20002D 0x0B) 0x28 1 8 0x1000 =
      [⟨13, 0x29⟩, ⟨11, 0x29⟩] := by decide

/-- The switch of `witness_TaskSwitchEnters`, with and without an error code. -/
theorem witness_TaskContextSaved :
    decodeGate (taskState.read64 (taskState.idtr.base + 8 * (32 : Byte).setWidth 32)) =
      some ⟨.task, 0x30, 0, 0, true, true⟩ ∧
    taskState.descriptorAddr 0x30 = some 0x200030 ∧ taskState.readSegDescriptor 0x30 = some freeTss ∧
    isOk (deliver taskState 32 .extIntr none 8 0x1000) = true ∧
    isOk (deliver taskState 32 .exc (some 0) 8 0x1000) = true := by decide

/-- A task gate whose TSS selector is null raises #GP(EXT), whatever entry 0 of the GDT holds (R20). -/
theorem test_task_gate_null :
    raised (deliver (withGate ((ring0 [] []).writeBytes 0x200000 [0x67, 0, 0, 0, 0x31, 0x89])
      (gateTo 0 0x85)) 32 .extIntr none 8 0x1000) = some ⟨13, 1⟩ := by decide

/-! #### Boundaries -/

def nmiNow : EnvInput := { EnvInput.quiet with lint1 := true }
def intrNow : EnvInput := { EnvInput.quiet with lint0 := true, busVector := 32 }

theorem noHigher (s : State) (e : EnvInput) (h : e.reset = false ∧ e.machineCheck = false)
    (h' : s.taskTrap = false ∧ s.shutdown = false) : (withInput s e).NoHigherEvent :=
  ⟨h.1, h.2, h'.1, h'.2⟩

theorem witness_NmiDelivered :
    let s := withInput { ring0 [] [] with eflags := 2 } nmiNow
    s.NoHigherEvent ∧ 0 < nmiAvailable s s.input ∧ s.nmiBlocked = false ∧ s.eventInhibit = false ∧
      isOk (deliver { s.received with nmiHeld := nmiAvailable s s.input - 1 } 2 .nmi none
        s.sregs.cs.sel s.eip) = true :=
  ⟨noHigher _ _ ⟨rfl, rfl⟩ ⟨rfl, rfl⟩, by decide, rfl, rfl, by decide⟩

theorem witness_BlockedNmiLatched :
    let s := withInput { ring0 [0xFA] [] with nmiBlocked := true, nmiPending := 1 } nmiNow
    s.nmiBlocked = true ∧ s.input.reset = false ∧ ∃ t, step s = .next t :=
  ⟨rfl, rfl, _, next_after (by decide)⟩

theorem witness_OnlyNmiBlocks :
    let s := withInput (ring3 [] []) nmiNow
    s.nmiBlocked = false ∧ ∃ t, step s = .next t ∧ t.nmiBlocked = true :=
  ⟨rfl, _, next_after (by decide), by decide⟩

/-- An NMI that loses to a machine check is held, even where NMI_LATCH_DEPTH is 0, and a held NMI is
delivered at the next boundary that can deliver it (R125). -/
theorem test_held_nmi :
    (let t := after (step (withInput
        { ring0 [] [] with params := { State.reset.params with nmiLatchDepth := 0 } }
        { nmiNow with machineCheck := true }))
     t.nmiHeld = 1 ∧ t.nmiBlocked = false) ∧
    (let t := after (step { ring0 [] [] with nmiHeld := 2 })
     t.nmiHeld = 1 ∧ t.nmiBlocked = true ∧ t.deliveries = 1) := by decide

/-- An enabled local APIC, and messages to it. -/
def withMessages (l : List Byte) : State :=
  withInput { ring0 [0xFA] [] with apic := ⟨.enabled, .masked, .masked, false⟩ }
    { EnvInput.quiet with apicMessages := l }

/-- INTR with IF = 0 and IF = 1, one message, and two. -/
theorem witness_MaskableInterrupts :
    (let s := withInput { ring0 [] [] with eflags := 2 } intrNow
     s.NoHigherEvent ∧ nmiDeliverable s = false ∧ s.flagIF = false ∧
      s.input.codeBreakpoint = false) ∧
    (let s := withInput (ring0 [] []) intrNow
     s.NoHigherEvent ∧ nmiDeliverable s = false ∧ s.flagIF = true ∧ s.eventInhibit = false ∧
      s.stiWindow = false ∧ maskableRequests s s.input = [(.extIntr, 32)] ∧
      isOk (deliver s.received 32 .extIntr none s.sregs.cs.sel s.eip) = true) ∧
    (let s := withMessages [32]
     s.NoHigherEvent ∧ nmiDeliverable s = false ∧ s.flagIF = true ∧ s.eventInhibit = false ∧
      s.stiWindow = false ∧ maskableRequests s s.input = [(.extApic, 32)] ∧
      isOk (deliver s.received 32 .extApic none s.sregs.cs.sel s.eip) = true) ∧
    maskableRequests (withMessages [15, 128, 32]) (withMessages [15, 128, 32]).input =
      [(.extApic, 128), (.extApic, 32)] :=
  ⟨⟨noHigher _ _ ⟨rfl, rfl⟩ ⟨rfl, rfl⟩, by decide, by decide, rfl⟩,
    ⟨noHigher _ _ ⟨rfl, rfl⟩ ⟨rfl, rfl⟩, by decide, by decide, rfl, rfl, by decide, by decide⟩,
    ⟨noHigher _ _ ⟨rfl, rfl⟩ ⟨rfl, rfl⟩, by decide, by decide, rfl, rfl, by decide, by decide⟩,
    by decide⟩

theorem witness_InhibitionHoldsEvents :
    let s := withInput { ring0 [0xFA] [] with eventInhibit := true } nmiNow
    s.mode = .protectedMode ∧ s.eventInhibit = true ∧ s.shutdown = false ∧ s.input.reset = false ∧
      s.input.machineCheck = false ∧ ∃ t, step s = .next t :=
  ⟨rfl, rfl, rfl, rfl, rfl, _, next_after (by decide)⟩

theorem witness_BreakpointAndResumeFlag :
    (let s := withInput (ring0 [0xFA] []) { EnvInput.quiet with codeBreakpoint := true }
     s.NoHigherEvent ∧ nmiDeliverable s = false ∧ maskableRequests s s.input = [] ∧
      s.input.codeBreakpoint = true ∧ s.eventInhibit = false ∧ s.flagRF = false) ∧
    (let s := withInput { ring0 [0xFA] [] with eflags := 0x10002 }
      { EnvInput.quiet with codeBreakpoint := true }
     s.NoHigherEvent ∧ s.flagRF = true) :=
  ⟨⟨noHigher _ _ ⟨rfl, rfl⟩ ⟨rfl, rfl⟩, by decide, by decide, rfl, rfl, by decide⟩,
    ⟨noHigher _ _ ⟨rfl, rfl⟩ ⟨rfl, rfl⟩, by decide⟩⟩

/-- The vector 15 as a message and by a pin, and a boundary at which nothing else happens. -/
theorem witness_ApicIllegalVector :
    ((withMessages [16, 15]).input.reset = false ∧
      (15 : Byte) ∈ apicVectors (withMessages [16, 15]) (withMessages [16, 15]).input ∧
      ∃ t, step (withMessages [16, 15]) = .next t) ∧
    (let s := withInput { ring0 [0xFA] [] with apic := ⟨.enabled, .fixed 15, .masked, false⟩ }
      { EnvInput.quiet with lint0 := true }
     (15 : Byte) ∈ apicVectors s s.input ∧ ∃ t, step s = .next t) ∧
    (let s := withMessages [0, 15]
     s.NoHigherEvent ∧ nmiDeliverable s = false ∧ intrAsserted s s.input = false ∧
      s.input.codeBreakpoint = false ∧ ∀ v ∈ apicVectors s s.input, v.toNat < 16) :=
  ⟨⟨rfl, by decide, _, next_after (by decide)⟩, ⟨by decide, _, next_after (by decide)⟩,
    noHigher _ _ ⟨rfl, rfl⟩ ⟨rfl, rfl⟩, by decide, by decide, rfl, by decide⟩

theorem witness_MachineCheckDelivered :
    let s := withInput (ring0 [] []) { EnvInput.quiet with machineCheck := true }
    s.mode = .protectedMode ∧ s.input.reset = false ∧ s.shutdown = false ∧
      s.input.machineCheck = true ∧ 18 ∉ s.params.errcodeVectors ∧
      isOk (deliver { s.received with freeCount := s.freeCount + 1 } 18 .exc none
        (Config.freeAbortCs s.freeCount) (Config.freeAbortEip s.freeCount)) = true :=
  ⟨rfl, rfl, rfl, rfl, by decide, by decide⟩

/-- A trap that is due, alone and with a machine check. -/
theorem witness_TaskSwitchTrap :
    (let s := { ring0 [] [] with taskTrap := true }
     s.mode = .protectedMode ∧ s.input.reset = false ∧ s.shutdown = false ∧ s.taskTrap = true ∧
      s.input.machineCheck = false ∧ s.eventInhibit = false) ∧
    (let s := withInput { ring0 [] [] with taskTrap := true }
      { EnvInput.quiet with machineCheck := true }
     s.input.machineCheck = true ∧
      decodeGate (s.read64 (s.idtr.base + 8 * (18 : Byte).setWidth 32)) = some (gateAt s 18) ∧ (gateAt s 18).kind ≠ .task ∧
      isOk (deliver { s.received with freeCount := s.freeCount + 1 } 18 .exc
        (Exn.pushed ⟨18, 0⟩ s.params) 8 0) = true) :=
  ⟨⟨rfl, rfl, rfl, rfl, rfl, rfl⟩, by decide⟩

end Sys2Proof.Tests
end

section
/-! Settled: what no step but a hardware reset writes (00_scope.md R2, 10_state.md R20, R28). -/

namespace Sys2Proof.Machine

/-- The registers and settings that only a hardware reset can write, and the inputs still to come.
Weaker than `Kept`: the NMIs held may have changed, as they do where one of them is delivered. -/
structure SystemKept (s t : State) : Prop where
  gdtr : t.gdtr = s.gdtr
  mode : t.mode = s.mode
  apic : t.apic = s.apic
  params : t.params = s.params
  env : t.env = s.env

theorem SystemKept.refl (s : State) : SystemKept s s := ⟨rfl, rfl, rfl, rfl, rfl⟩

theorem Kept.systemKept {s t : State} (h : Kept s t) : SystemKept s t :=
  ⟨h.gdtr, h.mode, h.apic, h.params, h.env⟩

/-- The next instruction, with the single-step trap that may follow it. -/
theorem runNext_kept {s t : State} (h : runNext s = .next t) : Kept s t := by
  rcases runNext_next h with ⟨i, u, -, hu, rfl | ⟨ht, -⟩⟩ | ⟨ht, -⟩
  · exact hu.kept
  · exact hu.kept.trans ht.kept
  · exact ht.kept

/-- The NMI is taken on a state that differs from the received one in the NMIs held and the shutdown
only. -/
theorem takeNmi_systemKept {s t : State} (h : takeNmi s = .next t) : SystemKept s.received t := by
  obtain ⟨ht, -⟩ := takeInterrupt_taken h
  obtain ⟨hgdtr, hmode, hapic, hparams, henv⟩ := ht.kept.systemKept
  exact ⟨hgdtr, hmode, hapic, hparams, henv⟩

/-- Beside a hardware reset, only the receiving of the inputs touches the system state. -/
theorem step_systemKept {s t : State} (h : step s = .next t) :
    (s.input.reset = true ∧ t = hardwareReset s.received) ∨
      (s.input.reset = false ∧ SystemKept s.received t) := by
  rcases step_next h with hreset | ⟨hquiet, -, hcase⟩
  · exact .inl hreset
  · refine .inr ⟨hquiet, ?_⟩
    rcases hcase with ⟨-, rfl⟩ | ⟨-, hnmi⟩ | ⟨-, hevent, -⟩ | ⟨-, hrun⟩
    · exact .refl _
    · exact takeNmi_systemKept hnmi
    · exact hevent.kept.systemKept
    · exact (runNext_kept hrun).systemKept

/-- Settles O10: a reset keeps the parameters, the presence of the APIC and the inputs to come; any
other step keeps the whole system state that receiving the inputs left. -/
theorem systemStateKept : Obligations.SystemStateKept := by
  intro s t h
  rcases step_systemKept h with ⟨hreset, rfl⟩ | ⟨-, hkept⟩
  · exact ⟨rfl, rfl, rfl, fun hno => by simp [hreset] at hno⟩
  · have hlint0 : t.apic.lint0 = s.apic.lint0 := by rw [hkept.apic]; rfl
    have hlint1 : t.apic.lint1 = s.apic.lint1 := by rw [hkept.apic]; rfl
    exact ⟨hkept.params, hkept.env, by rw [hkept.apic]; rfl,
      fun _ => ⟨hkept.mode, hkept.gdtr, hlint0, hlint1⟩⟩

end Sys2Proof.Machine
end

section
/-! Settled: the hardware reset and what it leaves (10_state.md R30, 70_reset_and_hazards.md R165). -/

namespace Sys2Proof.Machine

/-- A hardware reset pre-empts everything else at its boundary, the refusal of real-address mode
included (R165). -/
theorem step_reset {s : State} (h : s.input.reset = true) :
    step s = .next (hardwareReset s.received) := by
  rw [step, boundary, if_pos h]

/-- Settles O6: memory is the field the reset copies from the state before it, and the other values
named are the fields of `State.reset`. -/
theorem resetState : Obligations.ResetState := by
  refine ⟨fun s hreset => ⟨hardwareReset s.received, step_reset hreset, ?_⟩,
    rfl, rfl, rfl, rfl, rfl, rfl⟩
  have hmem : SameMemory s (hardwareReset s.received) := fun a => byteAt_congr rfl a
  exact ⟨rfl, rfl, rfl, rfl, rfl, rfl, rfl, hmem⟩

/-- The EFLAGS of a reset have the fixed bits: bit 1 is 1 and the others are 0 (R11, R30). -/
theorem reset_flagsOk : State.reset.flagsOk := by
  unfold State.flagsOk
  decide

/-- Settles O7, part by part: no cell is listed, the EFLAGS are R30's, no NMI is remembered. -/
theorem resetLegal : Obligations.ResetLegal where
  memory := reset_mem_wf
  flags := reset_flagsOk
  nmis := Nat.zero_le _

end Sys2Proof.Machine
end

section
/-! Settled: the invariant of legal states (10_state.md R11, 60_exceptions.md R118). Receiving the
inputs of a boundary establishes the bound on the remembered NMIs; nothing after it touches their
number, and every write of memory and EFLAGS keeps its form. -/

namespace Sys2Proof.Machine

/-- NMI_LATCH_DEPTH bounds the NMIs remembered at a boundary, however many there were before (R118). -/
theorem nmisRemembered_le (s : State) (e : EnvInput) :
    nmisRemembered s e ≤ s.params.nmiLatchDepth := by
  unfold nmisRemembered
  split
  · exact Nat.min_le_right _ _
  · exact Nat.zero_le _

theorem State.Legal.received {s : State} (h : s.Legal) : s.received.Legal where
  memory := h.memory
  flags := h.flags
  nmis := nmisRemembered_le s s.input

/-- Events and instructions keep each part of a legal state. -/
theorem State.Legal.of_kept {s t : State} (h : s.Legal) (k : Kept s t) : t.Legal where
  memory := k.wf h.memory
  flags := k.flags h.flags
  nmis := by rw [k.nmiPending, k.params]; exact h.nmis

/-- A reset takes memory from the state before it and the rest from `State.reset`. -/
theorem hardwareReset_legal {s : State} (h : s.Legal) : (hardwareReset s).Legal where
  memory := h.memory
  flags := reset_flagsOk
  nmis := Nat.zero_le _

/-- The state an NMI is taken on differs from the received one in the NMIs held and the shutdown,
which no part of legality speaks of. -/
theorem takeNmi_legal {s t : State} (hs : s.received.Legal) (h : takeNmi s = .next t) : t.Legal := by
  obtain ⟨ht, -⟩ := takeInterrupt_taken h
  refine State.Legal.of_kept ?_ ht.kept
  exact ⟨hs.memory, hs.flags, hs.nmis⟩

/-- Settles O8, by the cases of a step: each of them starts from the received state, which is legal. -/
theorem legalKept : Obligations.LegalKept := by
  intro s t hs h
  rcases step_next h with ⟨-, rfl⟩ | ⟨-, -, hcase⟩
  · exact hardwareReset_legal hs.received
  · rcases hcase with ⟨-, rfl⟩ | ⟨-, hnmi⟩ | ⟨-, hevent, -⟩ | ⟨-, hrun⟩
    · exact hs.received
    · exact takeNmi_legal hs.received hnmi
    · exact hs.received.of_kept hevent.kept
    · exact hs.received.of_kept (runNext_kept hrun)

end Sys2Proof.Machine
end

section
/-! Settled: what writes IDTR (10_state.md R19, 42_idtr.md R70). -/

namespace Sys2Proof.Machine

theorem takeNmi_idtr {s t : State} (h : takeNmi s = .next t) : t.idtr = s.idtr := by
  obtain ⟨ht, -⟩ := takeInterrupt_taken h
  exact ht.idtr

/-- Neither a fault of the fetch nor a single-step trap behind the instruction writes IDTR, so only the
instruction itself can have. -/
theorem runNext_idtr {s t : State} (h : runNext s = .next t) :
    t.idtr = s.idtr ∨ s.cpl = 0 ∧ ∃ p m, decode s.fetchWindow = .instr (.lidt p m) := by
  rcases runNext_next h with ⟨i, u, hdecode, hu, htrap⟩ | ⟨hfault, -⟩
  · have hkeep : t.idtr = u.idtr := by
      rcases htrap with rfl | ⟨ht, -⟩
      · rfl
      · exact ht.idtr
    rcases hu.idtr with hsame | ⟨hcpl, p, m, rfl⟩
    · exact .inl (hkeep.trans hsame)
    · exact .inr ⟨hcpl, p, m, hdecode⟩
  · exact .inl hfault.idtr

/-- Settles O9: of the cases of a step only a hardware reset and the next instruction can leave another
IDTR. -/
theorem idtrWrittenOnlyByLidt : Obligations.IdtrWrittenOnlyByLidt := by
  intro s t h hne
  rcases step_next h with ⟨hreset, -⟩ | ⟨-, -, hcase⟩
  · exact .inl hreset
  · right
    rcases hcase with ⟨-, rfl⟩ | ⟨-, hnmi⟩ | ⟨-, hevent, -⟩ | ⟨-, hrun⟩
    · exact absurd rfl hne
    · exact absurd (takeNmi_idtr hnmi) hne
    · exact absurd hevent.idtr hne
    · obtain ⟨hcpl, p, m, hdecode⟩ := (runNext_idtr hrun).resolve_left hne
      exact ⟨hcpl, p, m, by rwa [fetchWindow_received] at hdecode⟩

end Sys2Proof.Machine
end

section
/-! Settled: the order of the bytes in memory (20_memory.md R42). -/

namespace Sys2Proof.Machine

/-- Below a lowest byte, the byte at place `k + 1` is the byte at place `k` of what stands above it. -/
theorem extract_byte_succ_append {n : Nat} (hi : BitVec n) (b : Byte) (k : Nat) :
    (hi ++ b).extractLsb' (8 * (k + 1)) 8 = hi.extractLsb' (8 * k) 8 := by
  rw [BitVec.extractLsb'_append_eq_of_le (by omega), Nat.mul_succ, Nat.add_sub_cancel]

/-- Each byte a two-byte read joins stands at its own place. -/
theorem extract_byte_read16 (s : State) (a : Word) :
    ∀ k < 2, (s.read16 a).extractLsb' (8 * k) 8 = s.byteAt (a + BitVec.ofNat 32 k)
  | 0, _ => by
    rw [BitVec.add_zero]
    exact BitVec.extractLsb'_append_eq_right
  | 1, _ => BitVec.extractLsb'_append_eq_left

/-- Byte `k` of a doubleword is reached by leaving out the `k` bytes joined below it. -/
theorem extract_byte_word32 (b0 b1 b2 b3 : Byte) :
    (word32 b0 b1 b2 b3).extractLsb' 0 8 = b0 ∧ (word32 b0 b1 b2 b3).extractLsb' 8 8 = b1 ∧
      (word32 b0 b1 b2 b3).extractLsb' 16 8 = b2 ∧ (word32 b0 b1 b2 b3).extractLsb' 24 8 = b3 :=
  ⟨BitVec.extractLsb'_append_eq_right,
    (extract_byte_succ_append _ b0 0).trans BitVec.extractLsb'_append_eq_right,
    (extract_byte_succ_append _ b0 1).trans <|
      (extract_byte_succ_append _ b1 0).trans BitVec.extractLsb'_append_eq_right,
    (extract_byte_succ_append _ b0 2).trans <|
      (extract_byte_succ_append _ b1 1).trans BitVec.extractLsb'_append_eq_left⟩

/-- A four-byte read joins its bytes in the order of their addresses. -/
theorem extract_byte_read32 (s : State) (a : Word) (k : Nat) (hk : k < 4) :
    (s.read32 a).extractLsb' (8 * k) 8 = s.byteAt (a + BitVec.ofNat 32 k) := by
  obtain ⟨h0, h1, h2, h3⟩ :=
    extract_byte_word32 (s.byteAt a) (s.byteAt (a + 1)) (s.byteAt (a + 2)) (s.byteAt (a + 3))
  rw [State.read32]
  match k, hk with
  | 0, _ => rwa [BitVec.add_zero]
  | 1, _ => exact h1
  | 2, _ => exact h2
  | 3, _ => exact h3

/-- An eight-byte read is two four-byte reads, the one four bytes above in the high half. -/
theorem extract_byte_read64 (s : State) (a : Word) (k : Nat) (hk : k < 8) :
    (s.read64 a).extractLsb' (8 * k) 8 = s.byteAt (a + BitVec.ofNat 32 k) := by
  rw [State.read64]
  rcases lt_or_ge k 4 with hlow | hhigh
  · rw [BitVec.extractLsb'_append_eq_of_add_le (by omega), extract_byte_read32 s a k hlow]
  · have hplace : 8 * k - 32 = 8 * (k - 4) := by omega
    have haddr : a + 4 + BitVec.ofNat 32 (k - 4) = a + BitVec.ofNat 32 k := by bv_omega
    rw [BitVec.extractLsb'_append_eq_of_le (by omega), hplace,
      extract_byte_read32 s (a + 4) (k - 4) (by omega), haddr]

/-- Settles O11: the reads byte by byte, and for each store its read-back and its frame. -/
theorem littleEndian : Obligations.LittleEndian := fun s a =>
  ⟨extract_byte_read16 s a, extract_byte_read32 s a, extract_byte_read64 s a,
    fun v => ⟨read16_write16 s a v, fun x hx => byteAt_write16_outside s a x v hx⟩,
    fun v => ⟨read32_write32 s a v, fun x hx => byteAt_write32_outside s a x v hx⟩⟩

end Sys2Proof.Machine
end

section
/-! Support: the parts of an instruction's bytes, each read back as it is written (30_encoding.md R50 to
R52): fields, registers, displacements, memory operands, prefixes. -/

namespace Sys2Proof

/-! ### Fields and registers -/

@[simp] theorem modField_packFields (h : BitVec 2) (m l : BitVec 3) :
    modField (packFields h m l) = h := by
  rw [modField, packFields, BitVec.extractLsb'_append_eq_of_le (by omega)]
  exact BitVec.extractLsb'_append_eq_left

@[simp] theorem regField_packFields (h : BitVec 2) (m l : BitVec 3) :
    regField (packFields h m l) = m := by
  rw [regField, packFields, BitVec.extractLsb'_append_eq_of_le (by omega)]
  exact BitVec.extractLsb'_append_eq_right

@[simp] theorem rmField_packFields (h : BitVec 2) (m l : BitVec 3) :
    rmField (packFields h m l) = l :=
  BitVec.extractLsb'_append_eq_right

theorem packFields_fields (b : Byte) : packFields (modField b) (regField b) (rmField b) = b := by
  have hhigh : modField b ++ regField b = b.extractLsb' 3 (2 + 3) :=
    BitVec.extractLsb'_append_extractLsb'_eq_extractLsb' rfl
  rw [packFields, hhigh]
  exact (BitVec.extractLsb'_append_extractLsb'_eq_extractLsb' rfl).trans BitVec.extractLsb'_eq_self

/-- A byte is its three fields. -/
theorem packFields_eq_iff (h : BitVec 2) (m l : BitVec 3) (b : Byte) :
    packFields h m l = b ↔ modField b = h ∧ regField b = m ∧ rmField b = l := by
  constructor
  · rintro rfl
    simp
  · rintro ⟨rfl, rfl, rfl⟩
    exact packFields_fields b

@[simp] theorem Reg.ofCode_code (r : Reg) : Reg.ofCode r.code = r := by cases r <;> rfl

@[simp] theorem Reg.code_ofCode (c : BitVec 3) : (Reg.ofCode c).code = c := by
  revert c
  decide

theorem Reg.code_injective : Function.Injective Reg.code :=
  Function.LeftInverse.injective Reg.ofCode_code

theorem Reg.code_eq_four_iff (r : Reg) : r.code = 4 ↔ r = .esp := Reg.code_injective.eq_iff' rfl

theorem Reg.code_eq_five_iff (r : Reg) : r.code = 5 ↔ r = .ebp := Reg.code_injective.eq_iff' rfl

/-! ### Displacements and memory operands -/

theorem word32_eq_iff (b0 b1 b2 b3 : Byte) (w : Word) :
    word32 b0 b1 b2 b3 = w ↔ bytes32 w = [b0, b1, b2, b3] := by
  constructor
  · rintro rfl
    obtain ⟨h0, h1, h2, h3⟩ := Machine.extract_byte_word32 b0 b1 b2 b3
    rw [bytes32, h0, h1, h2, h3]
  · simp only [bytes32, List.cons.injEq, and_true]
    rintro ⟨rfl, rfl, rfl, rfl⟩
    have hhigh : w.extractLsb' 24 8 ++ w.extractLsb' 16 8 = w.extractLsb' 16 (8 + 8) :=
      BitVec.extractLsb'_append_extractLsb'_eq_extractLsb' rfl
    have hupper : w.extractLsb' 16 (8 + 8) ++ w.extractLsb' 8 8 = w.extractLsb' 8 (8 + 8 + 8) :=
      BitVec.extractLsb'_append_extractLsb'_eq_extractLsb' rfl
    rw [word32, hhigh, hupper]
    exact (BitVec.extractLsb'_append_extractLsb'_eq_extractLsb' rfl).trans BitVec.extractLsb'_eq_self

theorem parse32_eq_some_iff (bs : List Byte) (w : Word) :
    parse32 bs = some w ↔ bytes32 w <+: bs := by
  match bs with
  | b0 :: b1 :: b2 :: b3 :: rest =>
    rw [parse32, Option.some_inj, word32_eq_iff]
    simp [bytes32, List.cons_prefix_cons]
  | [] | [_] | [_, _] | [_, _, _] => simp [parse32, bytes32, List.cons_prefix_cons]

/-- Mod 3 selects a register and no displacement. -/
theorem parseDisp_eq_some_iff {mod : BitVec 2} (hmod : mod ≠ 3) (bs : List Byte) (d : Disp) :
    parseDisp mod bs = some d ↔ d.mod = mod ∧ d.bytes <+: bs := by
  have hcases : mod = 0 ∨ mod = 1 ∨ mod = 2 := by bv_omega
  rcases hcases with rfl | rfl | rfl
  · cases d <;> simp [parseDisp, Disp.mod, Disp.bytes]
  · cases bs <;> cases d <;> simp [parseDisp, Disp.mod, Disp.bytes, eq_comm (a := (_ : Byte))]
  · cases d <;> simp [parseDisp, Disp.mod, Disp.bytes, parse32_eq_some_iff]

theorem Disp.mod_eq_zero_iff (d : Disp) : d.mod = 0 ↔ d = .d0 := by cases d <;> simp [Disp.mod]

/-- The base registers that need no other form, by their numbers: rm 4 announces a SIB byte, and rm 5
with mod 0 a displacement alone (R52). -/
theorem MemOperand.wf_base_iff (r : Reg) (d : Disp) :
    (MemOperand.base r d).wf = true ↔ r.code ≠ 4 ∧ ¬ (d.mod = 0 ∧ r.code = 5) := by
  rw [ne_eq, Reg.code_eq_four_iff, Reg.code_eq_five_iff, Disp.mod_eq_zero_iff]
  simp [MemOperand.wf, or_iff_not_imp_left]

/-- With mod 0, SIB.base 5 stands for a displacement alone (R52). -/
theorem MemOperand.wf_sib_iff (s : BitVec 2) (i r : Reg) (d : Disp) :
    (MemOperand.sib s i r d).wf = true ↔ ¬ (d.mod = 0 ∧ r.code = 5) := by
  rw [Reg.code_eq_five_iff, Disp.mod_eq_zero_iff]
  simp [MemOperand.wf, or_iff_not_imp_left]

/-- The operand the parser reads is well formed, and its bytes are those that were read. -/
theorem parseMem_sound {b : Byte} (hmod : modField b ≠ 3) {bs : List Byte} {m : MemOperand}
    (h : parseMem b bs = some m) : m.wf = true ∧ m.bytes (regField b) <+: b :: bs := by
  unfold parseMem at h
  split at h
  next hsib =>
    match bs with
    | [] => simp at h
    | sib :: rest =>
      simp only at h
      split at h
      · next habs =>
        obtain ⟨w, hw, rfl⟩ := Option.map_eq_some_iff.1 h
        rw [parse32_eq_some_iff] at hw
        simp [MemOperand.wf, MemOperand.bytes, packFields_eq_iff, hsib, habs, hw]
      · next hbase =>
        obtain ⟨d, hd, rfl⟩ := Option.map_eq_some_iff.1 h
        obtain ⟨hdmod, hbytes⟩ := (parseDisp_eq_some_iff hmod rest d).1 hd
        rw [MemOperand.wf_sib_iff, hdmod, Reg.code_ofCode]
        exact ⟨hbase, by simp [MemOperand.bytes, packFields_eq_iff, hsib, hdmod, hbytes]⟩
  next hrm =>
    split at h
    · next habs =>
      obtain ⟨w, hw, rfl⟩ := Option.map_eq_some_iff.1 h
      rw [parse32_eq_some_iff] at hw
      simp [MemOperand.wf, MemOperand.bytes, packFields_eq_iff, habs, hw]
    · next hbase =>
      obtain ⟨d, hd, rfl⟩ := Option.map_eq_some_iff.1 h
      obtain ⟨hdmod, hbytes⟩ := (parseDisp_eq_some_iff hmod bs d).1 hd
      rw [MemOperand.wf_base_iff, hdmod, Reg.code_ofCode]
      exact ⟨⟨hrm, hbase⟩, by simp [MemOperand.bytes, packFields_eq_iff, hdmod, hbytes]⟩

/-- Every well-formed operand is read back from its bytes, whatever follows them. -/
theorem parseMem_complete {b : Byte} (hmod : modField b ≠ 3) {bs : List Byte} {m : MemOperand}
    (hwf : m.wf = true) (h : m.bytes (regField b) <+: b :: bs) : parseMem b bs = some m := by
  cases m with
  | base r d =>
    rw [MemOperand.wf_base_iff] at hwf
    rw [MemOperand.bytes, List.cons_prefix_cons, packFields_eq_iff] at h
    obtain ⟨⟨hd, -, hr⟩, hbytes⟩ := h
    have hdisp := (parseDisp_eq_some_iff hmod bs d).2 ⟨hd.symm, hbytes⟩
    rw [← hd, ← hr] at hwf
    unfold parseMem
    rw [if_neg hwf.1, if_neg hwf.2, hdisp, hr, Reg.ofCode_code]
    rfl
  | abs w =>
    rw [MemOperand.bytes, List.cons_prefix_cons, packFields_eq_iff] at h
    obtain ⟨⟨hd, -, hrm⟩, hbytes⟩ := h
    have hw := (parse32_eq_some_iff bs w).2 hbytes
    simp [parseMem, hd, hrm, hw]
  | sib s i r d =>
    rw [MemOperand.wf_sib_iff] at hwf
    rw [MemOperand.bytes, List.cons_prefix_cons, packFields_eq_iff] at h
    obtain ⟨⟨hd, -, hrm⟩, rest, rfl⟩ := h
    have hdisp := (parseDisp_eq_some_iff hmod (d.bytes ++ rest) d).2 ⟨hd.symm, List.prefix_append _ _⟩
    rw [← hd] at hwf
    simpa [parseMem, hrm, hdisp] using hwf
  | sibAbs s i w =>
    rw [MemOperand.bytes, List.cons_prefix_cons, packFields_eq_iff] at h
    obtain ⟨⟨hd, -, hrm⟩, rest, rfl⟩ := h
    have hw := (parse32_eq_some_iff (bytes32 w ++ rest) w).2 (List.prefix_append _ _)
    simp [parseMem, hd, hrm, hw]

/-- The bytes of an operand begin with a ModRM byte that selects memory and keeps the reg field. -/
theorem MemOperand.bytes_eq_cons (g : BitVec 3) (m : MemOperand) :
    ∃ b bs, m.bytes g = b :: bs ∧ modField b ≠ 3 ∧ regField b = g := by
  have hmod (d : Disp) : d.mod ≠ 3 := by cases d <;> simp [Disp.mod]
  cases m with
  | base r d => exact ⟨_, _, rfl, by rw [modField_packFields]; exact hmod d, by simp⟩
  | abs w => exact ⟨_, _, rfl, by simp, by simp⟩
  | sib s i r d => exact ⟨_, _, rfl, by rw [modField_packFields]; exact hmod d, by simp⟩
  | sibAbs s i w => exact ⟨_, _, rfl, by simp, by simp⟩

/-- An operand cut off before its end is not read: what was read from its first bytes would be read from
all of them, and so be the operand itself. -/
theorem parseMem_take {g : BitVec 3} {m : MemOperand} (hwf : m.wf = true) {b : Byte} {bs : List Byte}
    (hm : m.bytes g = b :: bs) (hmod : modField b ≠ 3) (hreg : regField b = g) {n : Nat}
    (hn : n < bs.length) : parseMem b (bs.take n) = none := by
  subst hreg
  refine Option.eq_none_iff_forall_ne_some.2 fun m' hm' => ?_
  obtain ⟨hwf', hcut⟩ := parseMem_sound hmod hm'
  have hfull : m'.bytes (regField b) <+: b :: bs :=
    hcut.trans (List.cons_prefix_cons.2 ⟨rfl, List.take_prefix n bs⟩)
  have hself : m.bytes (regField b) <+: b :: bs := hm ▸ List.prefix_rfl
  have hread := parseMem_complete hmod hwf hself
  obtain rfl : m = m' := Option.some.inj (hread.symm.trans (parseMem_complete hmod hwf' hfull))
  have hlength := hcut.length_le
  rw [hm, List.length_cons, List.length_cons, List.length_take] at hlength
  omega

theorem parse32_isSome {bs : List Byte} (h : 4 ≤ bs.length) : (parse32 bs).isSome = true := by
  match bs, h with
  | _ :: _ :: _ :: _ :: _, _ => rfl

theorem parseDisp_isSome (mod : BitVec 2) {bs : List Byte} (h : 4 ≤ bs.length) :
    (parseDisp mod bs).isSome = true := by
  unfold parseDisp
  split_ifs
  · rfl
  · match bs, h with
    | _ :: _, _ => rfl
  · rw [Option.isSome_map]
    exact parse32_isSome h

/-- No operand has more than a SIB byte and a doubleword behind its ModRM byte. -/
theorem parseMem_isSome (b : Byte) {bs : List Byte} (h : 5 ≤ bs.length) :
    (parseMem b bs).isSome = true := by
  match bs, h with
  | sib :: rest, h =>
    have hrest : 4 ≤ rest.length := Nat.le_of_succ_le_succ h
    have hall : 4 ≤ (sib :: rest).length := Nat.le_of_succ_le h
    unfold parseMem
    split
    · simp only
      split <;> rw [Option.isSome_map]
      · exact parse32_isSome hrest
      · exact parseDisp_isSome _ hrest
    · split <;> rw [Option.isSome_map]
      · exact parse32_isSome hall
      · exact parseDisp_isSome _ hall

/-! ### Prefixes -/

@[simp] theorem prefixOf_byte (p : Prefix) : prefixOf p.byte = some p := by
  cases p with
  | seg s => cases s <;> rfl
  | _ => rfl

/-- One line of the table of `prefixOf`, or one of the lines after it. -/
theorem byte_of_ite {b c : Byte} {p q : Prefix} {o : Option Prefix}
    (h : (if b = c then some q else o) = some p) (hq : q.byte = c) (ho : o = some p → p.byte = b) :
    p.byte = b := by
  split at h
  · next hb => cases h; exact hq.trans hb.symm
  · exact ho h

theorem byte_of_prefixOf {b : Byte} {p : Prefix} (h : prefixOf b = some p) : p.byte = b := by
  unfold prefixOf at h
  iterate 11 refine byte_of_ite h rfl fun h => ?_
  cases h

/-- Splitting off the prefixes loses no byte. -/
theorem map_byte_splitPrefixes (bs : List Byte) :
    (splitPrefixes bs).1.map Prefix.byte ++ (splitPrefixes bs).2 = bs := by
  induction bs with
  | nil => rfl
  | cons b bs ih =>
    rw [splitPrefixes]
    cases h : prefixOf b with
    | none => rfl
    | some p => simpa [byte_of_prefixOf h] using ih

/-- The prefixes end at the first byte that is none. -/
theorem splitPrefixes_map_byte_append (p : List Prefix) {bs : List Byte}
    (h : splitPrefixes bs = ([], bs)) : splitPrefixes (p.map Prefix.byte ++ bs) = (p, bs) := by
  induction p with
  | nil => exact h
  | cons q p ih => simp [splitPrefixes, ih]

theorem splitPrefixes_cons_of_none {b : Byte} (h : prefixOf b = none) (bs : List Byte) :
    splitPrefixes (b :: bs) = ([], b :: bs) := by
  rw [splitPrefixes, h]

end Sys2Proof
end

section
/-! Support: the decoder reads an instruction from its bytes and from no others (30_encoding.md R50 to
R53), and what it makes of an instruction cut off before its end. -/

namespace Sys2Proof

/-! ### Instructions -/

/-- What `Instr.formOk` asks beside the absence of LOCK and of the repeat prefixes: 66H where the row
needs it and not where its twin excludes it, no 67H before a memory operand, and a well-formed operand
(R51 to R53). -/
def Instr.fits : Instr → Bool
  | .bound32 p _ m => !p.contains .addrSize && !hasOpSize p && m.wf
  | .bound16 p _ m => !p.contains .addrSize && hasOpSize p && m.wf
  | .iretd p | .pushfd p | .popfd p => !hasOpSize p
  | .iret p | .pushf p | .popf p => hasOpSize p
  | .lidt p m | .sidt p m | .movSS p (.mem m) | .lss p _ m => !p.contains .addrSize && m.wf
  | .intN _ _ | .int3 _ | .into _ | .sti _ | .cli _ | .movSS _ (.reg _) | .popSS _ => true

/-- The memory operand of an instruction (R52). -/
def Instr.operand : Instr → Option MemOperand
  | .bound32 _ _ m | .bound16 _ _ m | .lidt _ m | .sidt _ m | .movSS _ (.mem m) | .lss _ _ m => some m
  | _ => none

theorem Instr.operand_of_fits {i : Instr} {m : MemOperand} (hm : i.operand = some m)
    (h : i.fits = true) : i.prefixes.contains .addrSize = false ∧ m.wf = true := by
  cases i with
  | bound32 _ _ _ | bound16 _ _ _ =>
    cases hm
    simp only [fits, Bool.and_eq_true, Bool.not_eq_true'] at h
    obtain ⟨⟨hp, -⟩, hwf⟩ := h
    exact ⟨hp, hwf⟩
  | movSS p src =>
    cases src with
    | reg _ => cases hm
    | mem _ => cases hm; simpa [fits, prefixes] using h
  | lidt _ _ | sidt _ _ | lss _ _ _ => cases hm; simpa [fits, prefixes] using h
  | _ => cases hm

theorem Instr.formOk_iff (i : Instr) :
    i.formOk = true ↔ prefixesOk i.prefixes = true ∧ i.fits = true := by
  cases i with
  | movSS p src => cases src <;> simp [formOk, fits, prefixes, memPrefixesOk, prefixesOk, and_assoc]
  | _ => simp [formOk, fits, prefixes, memPrefixesOk, prefixesOk, and_assoc]

theorem Instr.wf_iff (i : Instr) :
    i.wf = true ↔ prefixesOk i.prefixes = true ∧ i.fits = true ∧ i.size ≤ 15 := by
  rw [wf, Bool.and_eq_true, formOk_iff, decide_eq_true_iff, and_assoc]

theorem encode_length (i : Instr) : (encode i).length = i.size := by
  cases i with
  | intN p n => exact Laws.Length.intN p n
  | int3 p => exact Laws.Length.int3 p
  | into p => exact Laws.Length.into p
  | bound32 p r m => exact Laws.Length.bound32 p r m
  | bound16 p r m => exact Laws.Length.bound16 p r m
  | iretd p => exact Laws.Length.iretd p
  | iret p => exact Laws.Length.iret p
  | sti p => exact Laws.Length.sti p
  | cli p => exact Laws.Length.cli p
  | pushfd p => exact Laws.Length.pushfd p
  | pushf p => exact Laws.Length.pushf p
  | popfd p => exact Laws.Length.popfd p
  | popf p => exact Laws.Length.popf p
  | lidt p m => exact Laws.Length.lidt p m
  | sidt p m => exact Laws.Length.sidt p m
  | movSS p src => exact Laws.Length.movSS p src
  | popSS p => exact Laws.Length.popSS p
  | lss p r m => exact Laws.Length.lss p r m

theorem Instr.size_eq (i : Instr) : i.size = i.prefixes.length + i.body.length := by
  rw [← encode_length, encode, List.length_append, List.length_map]

/-- Behind the prefixes stands an opcode byte, which is none of them. -/
theorem Instr.body_eq_cons (i : Instr) : ∃ op tl, i.body = op :: tl ∧ prefixOf op = none := by
  cases i with
  | movSS p src => cases src <;> exact ⟨_, _, rfl, rfl⟩
  | _ => exact ⟨_, _, rfl, rfl⟩

/-- The prefixes and the rest of the 15 bytes that count, where an instruction stands in front. -/
theorem splitPrefixes_encode (i : Instr) (rest : List Byte) :
    splitPrefixes ((encode i ++ rest).take 15) =
      (i.prefixes.take 15, (i.body ++ rest).take (15 - i.prefixes.length)) := by
  obtain ⟨op, tl, hbody, hop⟩ := i.body_eq_cons
  rw [encode, List.append_assoc, List.take_append, ← List.map_take, List.length_map, hbody]
  refine splitPrefixes_map_byte_append _ ?_
  cases 15 - i.prefixes.length with
  | zero => rfl
  | succ n => exact splitPrefixes_cons_of_none hop _

/-! ### Forms with a memory operand -/

/-- A decoder of the bytes behind an opcode that reads, with the reg field `g`, a memory operand. -/
def ReadsOperand (p : List Prefix) (g : BitVec 3) (f : List Byte → Decoded) (k : MemOperand → Instr) :
    Prop :=
  ∀ b bs, modField b ≠ 3 → regField b = g → f (b :: bs) = memForm p b bs k

theorem decode62_reads (p : List Prefix) (r : Reg) :
    ReadsOperand p r.code (decode62 p)
      fun m => if hasOpSize p then .bound16 p r m else .bound32 p r m := by
  intro b bs _ hreg
  rw [decode62, hreg, Reg.ofCode_code]

theorem decode0F01_reads_lidt (p : List Prefix) : ReadsOperand p 3 (decode0F01 p) (.lidt p) := by
  intro b bs _ hreg
  rw [decode0F01, if_pos hreg]

theorem decode0F01_reads_sidt (p : List Prefix) : ReadsOperand p 1 (decode0F01 p) (.sidt p) := by
  intro b bs _ hreg
  rw [decode0F01, if_neg (by rw [hreg]; decide), if_pos hreg]

theorem decode8E_reads (p : List Prefix) :
    ReadsOperand p 2 (decode8E p) fun m => .movSS p (.mem m) := by
  intro b bs hmod hreg
  rw [decode8E, if_pos hreg, if_neg hmod]

theorem decode0FB2_reads (p : List Prefix) (r : Reg) :
    ReadsOperand p r.code (decode0FB2 p) (.lss p r) := by
  intro b bs _ hreg
  rw [decode0FB2, hreg, Reg.ofCode_code]

/-- What the decoder makes of a form that goes on past the bytes given. -/
def IsCut (p : List Prefix) (d : Decoded) : Prop := d = .truncated ∨ d = cutShort p

section
variable {p : List Prefix} {g : BitVec 3} {f : List Byte → Decoded} {k : MemOperand → Instr}

theorem ReadsOperand.whole (hf : ReadsOperand p g f k) (hp : p.contains .addrSize = false)
    {m : MemOperand} (hwf : m.wf = true) (rest : List Byte) : f (m.bytes g ++ rest) = .instr (k m) := by
  obtain ⟨b, bs, hm, hmod, rfl⟩ := m.bytes_eq_cons g
  have hread : parseMem b (bs ++ rest) = some m :=
    parseMem_complete hmod hwf (hm ▸ List.prefix_append (b :: bs) rest)
  rw [hm, List.cons_append, hf b _ hmod rfl, memForm, if_neg hmod, hp, hread]
  rfl

/-- 67H before a memory operand (R51). -/
theorem ReadsOperand.address16 (hf : ReadsOperand p g f k) (hp : p.contains .addrSize = true)
    (m : MemOperand) (rest : List Byte) : f (m.bytes g ++ rest) = .refused .addressSize16 := by
  obtain ⟨b, bs, hm, hmod, hreg⟩ := m.bytes_eq_cons g
  rw [hm, List.cons_append, hf b _ hmod hreg, memForm, if_neg hmod, if_pos hp]

theorem ReadsOperand.cut (hf : ReadsOperand p g f k) (hnil : IsCut p (f []))
    (hp : p.contains .addrSize = false) {m : MemOperand} (hwf : m.wf = true) {n : Nat}
    (hn : n < (m.bytes g).length) : IsCut p (f ((m.bytes g).take n)) := by
  obtain ⟨b, bs, hm, hmod, hreg⟩ := m.bytes_eq_cons g
  rw [hm] at hn ⊢
  cases n with
  | zero => exact hnil
  | succ n =>
    have hnone := parseMem_take hwf hm hmod hreg (Nat.lt_of_succ_lt_succ hn)
    right
    rw [List.take_succ_cons, hf b _ hmod hreg, memForm, if_neg hmod, hp, hnone]
    rfl

end

/-! ### Every instruction is read from its bytes -/

theorem decodeOpcode_body {i : Instr} (h : i.fits = true) (rest : List Byte) :
    decodeOpcode i.prefixes (i.body ++ rest) = .instr i := by
  cases i with
  | bound32 p r m =>
    simp only [Instr.fits, Bool.and_eq_true, Bool.not_eq_true'] at h
    obtain ⟨⟨hp, hsize⟩, hwf⟩ := h
    have hread := (decode62_reads p r).whole hp hwf rest
    rwa [hsize] at hread
  | bound16 p r m =>
    simp only [Instr.fits, Bool.and_eq_true, Bool.not_eq_true'] at h
    obtain ⟨⟨hp, hsize⟩, hwf⟩ := h
    have hread := (decode62_reads p r).whole hp hwf rest
    rwa [hsize] at hread
  | iretd p | pushfd p | popfd p | iret p | pushf p | popf p =>
    simp only [Instr.fits, Bool.not_eq_true'] at h
    simp [decodeOpcode, Instr.prefixes, Instr.body, h]
  | lidt p m =>
    obtain ⟨hp, hwf⟩ := Instr.operand_of_fits rfl h
    exact (decode0F01_reads_lidt p).whole hp hwf rest
  | sidt p m =>
    obtain ⟨hp, hwf⟩ := Instr.operand_of_fits rfl h
    exact (decode0F01_reads_sidt p).whole hp hwf rest
  | movSS p src =>
    cases src with
    | reg r => simp [decodeOpcode, decode8E, Instr.prefixes, Instr.body]
    | mem m =>
      obtain ⟨hp, hwf⟩ := Instr.operand_of_fits rfl h
      exact (decode8E_reads p).whole hp hwf rest
  | lss p r m =>
    obtain ⟨hp, hwf⟩ := Instr.operand_of_fits rfl h
    exact (decode0FB2_reads p r).whole hp hwf rest
  | _ => rfl

/-- The decoder reads past the bytes given where an instruction is cut off. -/
theorem decodeOpcode_take_body {i : Instr} (h : i.fits = true) {n : Nat} (hn : n < i.body.length) :
    IsCut i.prefixes (decodeOpcode i.prefixes (i.body.take n)) := by
  cases n with
  | zero => exact .inl rfl
  | succ n =>
    cases i with
    | intN p v =>
      obtain rfl : n = 0 := by simpa [Instr.body] using hn
      exact .inr rfl
    | bound32 p r m =>
      obtain ⟨hp, hwf⟩ := Instr.operand_of_fits rfl h
      exact (decode62_reads p r).cut (.inr rfl) hp hwf (Nat.lt_of_succ_lt_succ hn)
    | bound16 p r m =>
      obtain ⟨hp, hwf⟩ := Instr.operand_of_fits rfl h
      exact (decode62_reads p r).cut (.inr rfl) hp hwf (Nat.lt_of_succ_lt_succ hn)
    | lidt p m =>
      obtain ⟨hp, hwf⟩ := Instr.operand_of_fits rfl h
      cases n with
      | zero => exact .inl rfl
      | succ n =>
        exact (decode0F01_reads_lidt p).cut (.inl rfl) hp hwf
          (Nat.lt_of_succ_lt_succ (Nat.lt_of_succ_lt_succ hn))
    | sidt p m =>
      obtain ⟨hp, hwf⟩ := Instr.operand_of_fits rfl h
      cases n with
      | zero => exact .inl rfl
      | succ n =>
        exact (decode0F01_reads_sidt p).cut (.inl rfl) hp hwf
          (Nat.lt_of_succ_lt_succ (Nat.lt_of_succ_lt_succ hn))
    | movSS p src =>
      cases src with
      | reg r =>
        obtain rfl : n = 0 := by simpa [Instr.body] using hn
        exact .inl rfl
      | mem m =>
        obtain ⟨hp, hwf⟩ := Instr.operand_of_fits rfl h
        exact (decode8E_reads p).cut (.inl rfl) hp hwf (Nat.lt_of_succ_lt_succ hn)
    | lss p r m =>
      obtain ⟨hp, hwf⟩ := Instr.operand_of_fits rfl h
      cases n with
      | zero => exact .inl rfl
      | succ n =>
        exact (decode0FB2_reads p r).cut (.inr rfl) hp hwf
          (Nat.lt_of_succ_lt_succ (Nat.lt_of_succ_lt_succ hn))
    | _ => simp [Instr.body] at hn

/-! ### Every instruction read is well formed, and is the bytes it was read from -/

/-- An instruction that stands, with the prefixes `p`, at the front of the bytes behind them. -/
structure Stands (p : List Prefix) (bs : List Byte) (i : Instr) : Prop where
  prefixes : i.prefixes = p
  fits : i.fits = true
  body : i.body <+: bs

theorem cutShort_ne_instr (p : List Prefix) (i : Instr) : cutShort p ≠ .instr i := by
  unfold cutShort
  split <;> simp

theorem memForm_eq_instr {p : List Prefix} {b : Byte} {bs : List Byte} {k : MemOperand → Instr}
    {i : Instr} (h : memForm p b bs k = .instr i) :
    p.contains .addrSize = false ∧ ∃ m, m.wf = true ∧ m.bytes (regField b) <+: b :: bs ∧ i = k m := by
  unfold memForm at h
  split at h
  · cases h
  · next hmod =>
    split at h
    · cases h
    · next hp =>
      split at h
      · next m hm =>
        cases h
        obtain ⟨hwf, hbytes⟩ := parseMem_sound hmod hm
        exact ⟨Bool.eq_false_iff.2 hp, m, hwf, hbytes, rfl⟩
      · exact absurd h (cutShort_ne_instr p i)

theorem decode62_sound {p : List Prefix} {bs : List Byte} {i : Instr} (h : decode62 p bs = .instr i) :
    Stands p (0x62 :: bs) i := by
  cases bs with
  | nil => exact absurd h (cutShort_ne_instr p i)
  | cons b bs =>
    obtain ⟨hp, m, hwf, hbytes, rfl⟩ := memForm_eq_instr h
    cases hsize : hasOpSize p <;>
      exact ⟨rfl, by simpa [Instr.fits, hsize, hwf] using hp, by simpa [Instr.body] using hbytes⟩

theorem decode0F01_sound {p : List Prefix} {bs : List Byte} {i : Instr}
    (h : decode0F01 p bs = .instr i) : Stands p (0x0F :: 0x01 :: bs) i := by
  cases bs with
  | nil => cases h
  | cons b bs =>
    rw [decode0F01] at h
    split at h
    · next hreg =>
      obtain ⟨hp, m, hwf, hbytes, rfl⟩ := memForm_eq_instr h
      rw [hreg] at hbytes
      exact ⟨rfl, by simpa [Instr.fits, hwf] using hp, by simpa [Instr.body] using hbytes⟩
    · split at h
      · next hreg =>
        obtain ⟨hp, m, hwf, hbytes, rfl⟩ := memForm_eq_instr h
        rw [hreg] at hbytes
        exact ⟨rfl, by simpa [Instr.fits, hwf] using hp, by simpa [Instr.body] using hbytes⟩
      · cases h

theorem decode0FB2_sound {p : List Prefix} {bs : List Byte} {i : Instr}
    (h : decode0FB2 p bs = .instr i) : Stands p (0x0F :: 0xB2 :: bs) i := by
  cases bs with
  | nil => exact absurd h (cutShort_ne_instr p i)
  | cons b bs =>
    obtain ⟨hp, m, hwf, hbytes, rfl⟩ := memForm_eq_instr h
    exact ⟨rfl, by simpa [Instr.fits, hwf] using hp, by simpa [Instr.body] using hbytes⟩

theorem decode0F_sound {p : List Prefix} {bs : List Byte} {i : Instr} (h : decode0F p bs = .instr i) :
    Stands p (0x0F :: bs) i := by
  cases bs with
  | nil => cases h
  | cons op bs =>
    rw [decode0F] at h
    split at h
    · next hop => subst hop; exact decode0F01_sound h
    · split at h
      · next hop => subst hop; exact decode0FB2_sound h
      · cases h

theorem invalidForm_ne_instr (p : List Prefix) (b : Byte) (bs : List Byte) (i : Instr) :
    invalidForm p b bs ≠ .instr i := by
  unfold invalidForm
  split <;> simp

theorem decode8E_sound {p : List Prefix} {bs : List Byte} {i : Instr} (h : decode8E p bs = .instr i) :
    Stands p (0x8E :: bs) i := by
  cases bs with
  | nil => cases h
  | cons b bs =>
    rw [decode8E] at h
    split at h
    · next hreg =>
      split at h
      · next hmod =>
        cases h
        exact ⟨rfl, rfl, by simp [Instr.body, List.cons_prefix_cons, packFields_eq_iff, hreg, hmod]⟩
      · obtain ⟨hp, m, hwf, hbytes, rfl⟩ := memForm_eq_instr h
        rw [hreg] at hbytes
        exact ⟨rfl, by simpa [Instr.fits, hwf] using hp, by simpa [Instr.body] using hbytes⟩
    · split at h
      · exact absurd h (invalidForm_ne_instr _ _ _ _)
      · cases h

theorem decodeCD_sound {p : List Prefix} {bs : List Byte} {i : Instr} (h : decodeCD p bs = .instr i) :
    Stands p (0xCD :: bs) i := by
  cases bs with
  | nil => exact absurd h (cutShort_ne_instr p i)
  | cons n bs =>
    cases h
    exact ⟨rfl, rfl, by simp [Instr.body]⟩

/-- A byte of the opcode map, or one of the bytes after it in the map. -/
theorem stands_of_ite {p : List Prefix} {c op : Byte} {bs : List Byte} {d e : Decoded} {i : Instr}
    (h : (if op = c then d else e) = .instr i) (hd : d = .instr i → Stands p (c :: bs) i)
    (he : e = .instr i → Stands p (op :: bs) i) : Stands p (op :: bs) i := by
  split at h
  · next hop => exact hop ▸ hd h
  · exact he h

/-- A row of one byte. -/
theorem stands_of_byte {p : List Prefix} {c : Byte} {i j : Instr} (h : Decoded.instr j = .instr i)
    (hp : j.prefixes = p) (hfits : j.fits = true) (hbody : j.body = [c]) (bs : List Byte) :
    Stands p (c :: bs) i := by
  cases h
  exact ⟨hp, hfits, hbody ▸ List.prefix_append [c] bs⟩

/-- Two rows of one byte, which 66H tells apart (R53). -/
theorem stands_of_pair {p : List Prefix} {c : Byte} {i j16 j32 : Instr}
    (h : Decoded.instr (if hasOpSize p then j16 else j32) = .instr i)
    (hp : j16.prefixes = p ∧ j32.prefixes = p) (h16 : j16.fits = hasOpSize p)
    (h32 : j32.fits = !hasOpSize p) (hbody : j16.body = [c] ∧ j32.body = [c]) (bs : List Byte) :
    Stands p (c :: bs) i := by
  split at h
  · next hsize => exact stands_of_byte h hp.1 (h16.trans hsize) hbody.1 bs
  · next hsize => exact stands_of_byte h hp.2 (by rw [h32, Bool.eq_false_iff.2 hsize]; rfl) hbody.2 bs

/-- Row by row along the opcode map (R53). -/
theorem decodeOpcode_sound {p : List Prefix} {bs : List Byte} {i : Instr}
    (h : decodeOpcode p bs = .instr i) : Stands p bs i := by
  cases bs with
  | nil => cases h
  | cons op bs =>
    rw [decodeOpcode] at h
    refine stands_of_ite h decodeCD_sound fun h => ?_
    refine stands_of_ite h (fun h => stands_of_byte h rfl rfl rfl bs) fun h => ?_
    refine stands_of_ite h (fun h => stands_of_byte h rfl rfl rfl bs) fun h => ?_
    refine stands_of_ite h decode62_sound fun h => ?_
    refine stands_of_ite h (fun h => stands_of_pair h ⟨rfl, rfl⟩ rfl rfl ⟨rfl, rfl⟩ bs) fun h => ?_
    refine stands_of_ite h (fun h => stands_of_byte h rfl rfl rfl bs) fun h => ?_
    refine stands_of_ite h (fun h => stands_of_byte h rfl rfl rfl bs) fun h => ?_
    refine stands_of_ite h (fun h => stands_of_pair h ⟨rfl, rfl⟩ rfl rfl ⟨rfl, rfl⟩ bs) fun h => ?_
    refine stands_of_ite h (fun h => stands_of_pair h ⟨rfl, rfl⟩ rfl rfl ⟨rfl, rfl⟩ bs) fun h => ?_
    refine stands_of_ite h decode0F_sound fun h => ?_
    refine stands_of_ite h decode8E_sound fun h => ?_
    refine stands_of_ite h (fun h => stands_of_byte h rfl rfl rfl bs) fun h => ?_
    cases h

/-! ### The whole decoder -/

theorem decode_of_splitPrefixes {bs tl : List Byte} {p : List Prefix}
    (h : splitPrefixes (bs.take 15) = (p, tl)) :
    decode bs = if (decodeOpcode p tl).isOutside then decodeOpcode p tl
      else underPrefixes p (decodeOpcode p tl) := by
  rw [decode, h]

/-- Plain prefixes are those without LOCK, REPNE and REP. -/
theorem prefixesOk_iff (p : List Prefix) :
    prefixesOk p = true ↔
      p.contains .lock = false ∧ p.contains .repne = false ∧ p.contains .rep = false := by
  induction p with
  | nil => decide
  | cons q p ih =>
    rw [prefixesOk, List.all_cons, ← prefixesOk, Bool.and_eq_true, ih]
    cases q <;> simp [Prefix.isPlain]

theorem underPrefixes_of_prefixesOk {p : List Prefix} (h : prefixesOk p = true) (d : Decoded) :
    underPrefixes p d = d := by
  obtain ⟨hlock, hrepne, hrep⟩ := (prefixesOk_iff p).1 h
  unfold underPrefixes
  rw [hlock, hrepne, hrep]
  cases d <;> rfl

theorem underPrefixes_eq_instr {p : List Prefix} {d : Decoded} {i : Instr}
    (h : underPrefixes p d = .instr i) : d = .instr i ∧ prefixesOk p = true := by
  rw [prefixesOk_iff]
  unfold underPrefixes at h
  split at h
  · cases h
  · cases h
  · split at h
    · cases h
    · next hrepeat =>
      split at h
      · cases h
      · next hlock =>
        rw [Bool.or_eq_true, not_or] at hrepeat
        exact ⟨h, by simpa using hlock, by simpa using hrepeat.2, by simpa using hrepeat.1⟩

theorem IsCut.cases {p : List Prefix} {d : Decoded} (h : IsCut p d) :
    d = .truncated ∨ d = .invalidTruncated := by
  rcases h with rfl | rfl
  · exact .inl rfl
  · unfold cutShort
    split
    · exact .inr rfl
    · exact .inl rfl

/-- Without LOCK no invalid opcode is seen in what is cut off. -/
theorem IsCut.truncated {p : List Prefix} {d : Decoded} (h : IsCut p d)
    (hlock : p.contains .lock = false) : d = .truncated := by
  rcases h with rfl | rfl
  · rfl
  · rw [cutShort, hlock]
    rfl

/-- What is cut off stays so under any prefixes. -/
theorem IsCut.underPrefixes {p q : List Prefix} {d : Decoded} (h : IsCut p d) :
    (if d.isOutside then d else underPrefixes q d) = d := by
  rcases h.cases with rfl | rfl <;> rfl

/-- What the decoder accepts is well formed, and its encoding stands in front. -/
theorem decode_sound {bs : List Byte} {i : Instr} (h : decode bs = .instr i) :
    i.wf = true ∧ encode i <+: bs := by
  obtain ⟨p, tl, hsplit⟩ : ∃ p tl, splitPrefixes (bs.take 15) = (p, tl) := ⟨_, _, rfl⟩
  have hbytes := map_byte_splitPrefixes (bs.take 15)
  rw [decode_of_splitPrefixes hsplit] at h
  rw [hsplit] at hbytes
  have hread : decodeOpcode p tl = .instr i ∧ prefixesOk p = true := by
    split at h
    · next hout => rw [h] at hout; cases hout
    · exact underPrefixes_eq_instr h
  obtain ⟨rfl, hfits, hbody⟩ := decodeOpcode_sound hread.1
  have hprefix : encode i <+: bs.take 15 := by
    rw [← hbytes, encode]
    exact (List.prefix_append_right_inj _).2 hbody
  have hsize : i.size ≤ 15 := by
    rw [← encode_length]
    exact hprefix.length_le.trans (List.length_take_le 15 bs)
  exact ⟨(Instr.wf_iff i).2 ⟨hread.2, hfits, hsize⟩, hprefix.trans (List.take_prefix 15 bs)⟩

/-- An instruction of at most 15 bytes stands whole in the bytes that count. -/
theorem splitPrefixes_encode_of_le {i : Instr} (hsize : i.size ≤ 15) (rest : List Byte) :
    splitPrefixes ((encode i ++ rest).take 15) = (i.prefixes, i.body ++ rest.take (15 - i.size)) := by
  have hlength := i.size_eq
  rw [splitPrefixes_encode, List.take_of_length_le (by omega), List.take_append (l₁ := i.body),
    List.take_of_length_le (l := i.body) (by omega), hlength, Nat.sub_sub]

/-- It is read whatever follows it; LOCK and the repeat prefixes are judged after that. -/
theorem decode_encode_of_fits {i : Instr} (hfits : i.fits = true) (hsize : i.size ≤ 15)
    (rest : List Byte) : decode (encode i ++ rest) = underPrefixes i.prefixes (.instr i) := by
  rw [decode_of_splitPrefixes (splitPrefixes_encode_of_le hsize rest), decodeOpcode_body hfits]
  rfl

theorem decode_encode {i : Instr} (h : i.wf = true) (rest : List Byte) :
    decode (encode i ++ rest) = .instr i := by
  obtain ⟨hp, hfits, hsize⟩ := (Instr.wf_iff i).1 h
  rw [decode_encode_of_fits hfits hsize, underPrefixes_of_prefixesOk hp]

/-- An instruction of more than 15 bytes goes on past those that count. -/
theorem decode_encode_of_long {i : Instr} (hfits : i.fits = true) (hsize : 15 < i.size)
    (rest : List Byte) : IsCut i.prefixes (decode (encode i ++ rest)) := by
  have hlength := i.size_eq
  have hsplit := splitPrefixes_encode i rest
  rw [decode_of_splitPrefixes hsplit]
  by_cases hp : i.prefixes.length < 15
  · have hcut := decodeOpcode_take_body hfits (n := 15 - i.prefixes.length) (by omega)
    rw [List.take_of_length_le (l := i.prefixes) (by omega),
      List.take_append_of_le_length (by omega), hcut.underPrefixes]
    exact hcut
  · have hnone : (i.body ++ rest).take (15 - i.prefixes.length) = [] := by
      rw [Nat.sub_eq_zero_of_le (by omega), List.take_zero]
    rw [hnone]
    exact .inl rfl

end Sys2Proof
end

section
/-! Support: a boundary at which nothing but the next instruction happens, and what it makes of bytes
without an instruction (60_exceptions.md R148). -/

namespace Sys2Proof.Machine

/-! ### The fetch at a quiet boundary -/

@[simp] theorem apicVectors_quiet (s : State) : apicVectors s EnvInput.quiet = [] := by
  unfold apicVectors
  split
  · cases s.apic.lint0 <;> cases s.apic.lint1 <;> rfl
  · rfl

@[simp] theorem nmiArrivals_quiet (s : State) : nmiArrivals s EnvInput.quiet = 0 := by
  simp [nmiArrivals, EnvInput.quiet]

@[simp] theorem maskableRequests_quiet (s : State) : maskableRequests s EnvInput.quiet = [] := by
  simp [maskableRequests, intrAsserted, show EnvInput.quiet.lint0 = false from rfl,
    show EnvInput.quiet.lint1 = false from rfl]

/-- Receiving no input, with nothing pending or held, only uses that input up. -/
theorem State.Quiet.received {s : State} (h : s.Quiet) : s.received = { s with env := s.env.tail } := by
  obtain ⟨hinput, hnmi, hheld, htrap, -⟩ := h
  simp [State.received, nmisRemembered, nmisHeld, nmiAvailable, hinput, hnmi, hheld, htrap]

/-- Nothing but the next instruction happens at a quiet boundary. -/
theorem State.Quiet.step_eq {s : State} (h : s.Quiet) (hmode : s.mode = .protectedMode) :
    step s = runNext { s with env := s.env.tail } := by
  rw [← h.received]
  obtain ⟨hinput, hnmi, hheld, htrap, hrun⟩ := h
  have hnonmi : nmiDeliverable s = false := by simp [nmiDeliverable, nmiAvailable, hinput, hnmi, hheld]
  have hbreak : breakpointDue s EnvInput.quiet = false := by simp [breakpointDue, EnvInput.quiet]
  have hreset : s.input.reset = false := by rw [hinput]; rfl
  have hcheck : EnvInput.quiet.machineCheck = false := rfl
  rw [step, boundary, hreset, hmode]
  simp [serveBoundary, hinput, hrun, hcheck, htrap, hnonmi, hbreak]

/-! ### What a quiet step makes of bytes without an instruction (R148 step 4) -/

theorem fetchWindow_tail (s : State) : State.fetchWindow { s with env := s.env.tail } = s.fetchWindow :=
  fetchFrom_congr rfl rfl _ _

theorem takeInvalidTruncated_limit {s : State} (h : s.fetchWindow.length < 15) :
    takeInvalidTruncated s = takeException s (gpExn 0) s.eip :=
  if_pos h

/-- At 15 bytes either of the two faults is raised (R126 class 9). -/
theorem takeInvalidTruncated_full {s : State} (h : s.fetchWindow.length = 15) :
    takeInvalidTruncated s = takeException s (gpExn 0) s.eip ∨
      takeInvalidTruncated s = takeException s udExn s.eip := by
  have hfault := chooseFault_mem s.deliveries udExn [gpExn 0]
  rw [takeInvalidTruncated, if_neg (by omega)]
  simp only [List.mem_cons, List.not_mem_nil, or_false] at hfault
  rcases hfault with hud | hgp
  · exact .inr (by rw [hud])
  · exact .inl (by rw [hgp])

section
variable {s : State} (hq : s.Quiet) (hmode : s.mode = .protectedMode)
  (hbig : s.sregs.cs.desc.big = true)
include hq hmode hbig

theorem State.Quiet.step_invalidOpcode (h : decode s.fetchWindow = .invalidOpcode) :
    step s = takeException { s with env := s.env.tail } udExn s.eip := by
  rw [hq.step_eq hmode, runNext, if_pos hbig, fetchWindow_tail, h]

theorem State.Quiet.step_truncated (h : decode s.fetchWindow = .truncated) :
    step s = takeException { s with env := s.env.tail } (gpExn 0) s.eip := by
  rw [hq.step_eq hmode, runNext, if_pos hbig, fetchWindow_tail, h]

theorem State.Quiet.step_invalidTruncated (h : decode s.fetchWindow = .invalidTruncated) :
    step s = takeInvalidTruncated { s with env := s.env.tail } := by
  rw [hq.step_eq hmode, runNext, if_pos hbig, fetchWindow_tail, h]

theorem State.Quiet.step_refused {r : DecodeRefusal} (h : decode s.fetchWindow = .refused r) :
    step s = .refused (.outsideOpcodeMap r) := by
  rw [hq.step_eq hmode, runNext, if_pos hbig, fetchWindow_tail, h]

end

end Sys2Proof.Machine
end

section
/-! Settled: decoder and encoder agree (30_encoding.md R50 to R53). -/

namespace Sys2Proof

/-- Settles O1: the prefixes, the opcode and the operand are each read back from their bytes. -/
theorem decodeEncode : Obligations.DecodeEncode := fun _ rest h => decode_encode h rest

/-- Settles O2: along the branches of the decoder that end in an instruction. -/
theorem decodedIsEncoded : Obligations.DecodedIsEncoded := fun _ _ h => decode_sound h

/-- Settles O3: the bytes of each line are the encoding of the instruction beside them, with nothing
behind it. -/
theorem wordsDecode : Obligations.WordsDecode := by
  have hword {bs : List Byte} {i : Instr} (hwf : i.wf = true) (hbs : encode i = bs) :
      decode bs = .instr i := by
    rw [← hbs, ← List.append_nil (encode i), decode_encode hwf]
  exact ⟨hword rfl rfl, hword rfl rfl, hword rfl rfl, hword rfl rfl, hword rfl rfl, hword rfl rfl,
    hword rfl rfl, hword rfl rfl, hword rfl rfl, hword rfl rfl, hword rfl rfl, hword rfl rfl,
    hword rfl rfl, hword rfl rfl, hword rfl rfl, hword rfl rfl⟩

end Sys2Proof
end

section
/-! Settled: reserved and illegal encodings (30_encoding.md R56). -/

namespace Sys2Proof

/-! ### Opcodes without prefixes -/

/-- Behind an opcode that stands first, 14 bytes count. -/
theorem decode_of_opcode {op : Byte} (h : prefixOf op = none) (rest : List Byte) :
    decode (op :: rest) = decodeOpcode [] (op :: rest.take 14) := by
  have hsplit : splitPrefixes ((op :: rest).take 15) = ([], op :: rest.take 14) :=
    splitPrefixes_cons_of_none h (rest.take 14)
  rw [decode_of_splitPrefixes hsplit, underPrefixes_of_prefixesOk rfl, ite_self]

theorem memForm_register {b : Byte} (h : modField b = 3) (p : List Prefix) (bs : List Byte)
    (k : MemOperand → Instr) : memForm p b bs k = .invalidOpcode :=
  if_pos h

theorem decode0F01_register {b : Byte} (hmod : modField b = 3)
    (hreg : regField b = 3 ∨ regField b = 1) (p : List Prefix) (bs : List Byte) :
    decode0F01 p (b :: bs) = .invalidOpcode := by
  unfold decode0F01
  rcases hreg with hreg | hreg <;> simp [hreg, memForm_register hmod]

theorem decode8E_other {b : Byte}
    (hreg : regField b = 0 ∨ regField b = 3 ∨ regField b = 4 ∨ regField b = 5) (p : List Prefix)
    (bs : List Byte) : decode8E p (b :: bs) = .refused (.movSegment (regField b)) := by
  unfold decode8E
  rcases hreg with hreg | hreg | hreg | hreg <;> simp [hreg]

theorem decodeOpcode_other {op : Byte}
    (h : op ∉ ([0xCD, 0xCC, 0xCE, 0x62, 0xCF, 0xFB, 0xFA, 0x9C, 0x9D, 0x0F, 0x8E, 0x17] : List Byte))
    (p : List Prefix) (bs : List Byte) : decodeOpcode p (op :: bs) = .refused (.opcode op) := by
  simp only [List.mem_cons, List.not_mem_nil, or_false, not_or] at h
  simp only [decodeOpcode, h, if_false]

theorem decode8E_invalid {b : Byte} (h : regField b = 1 ∨ regField b = 6 ∨ regField b = 7)
    (p : List Prefix) (bs : List Byte) : decode8E p (b :: bs) = invalidForm p b bs := by
  have hss : regField b ≠ 2 := by
    rcases h with h | h | h <;> rw [h] <;> decide
  rw [decode8E, if_neg hss, if_pos h]

theorem invalidForm_whole {b : Byte} {bs : List Byte} (h : modField b = 3 ∨ 5 ≤ bs.length)
    (p : List Prefix) : invalidForm p b bs = .invalidOpcode := by
  rcases h with h | h
  · simp [invalidForm, h]
  · simp [invalidForm, parseMem_isSome b h]

theorem invalidForm_cases (p : List Prefix) (b : Byte) (bs : List Byte) :
    invalidForm p b bs = .invalidOpcode ∨ invalidForm p b bs = .invalidTruncated := by
  unfold invalidForm
  exact ite_eq_or_eq _ _ _

theorem decode_opcode62 (b : Byte) (rest : List Byte) :
    decode (0x62 :: b :: rest) = decode62 [] (b :: rest.take 13) :=
  decode_of_opcode rfl _

theorem decode_opcode8E (b : Byte) (rest : List Byte) :
    decode (0x8E :: b :: rest) = decode8E [] (b :: rest.take 13) :=
  decode_of_opcode rfl _

theorem decode_opcode0F (b : Byte) (rest : List Byte) :
    decode (0x0F :: b :: rest) = decode0F [] (b :: rest.take 13) :=
  decode_of_opcode rfl _

/-- Settles O4: none of these byte strings has prefixes, so the opcode map alone answers; a quiet step
then does what the answer says. -/
theorem illegalEncodings : Obligations.IllegalEncodings := by
  refine ⟨?_, ?_, ?_, ?_, ?_, ?_, rfl, ?_, ?_⟩
  · intro b rest hmod
    refine ⟨?_, ?_, ?_⟩
    · rw [decode_opcode62]
      exact memForm_register hmod _ _ _
    · rw [decode_opcode0F]
      exact memForm_register hmod _ _ _
    · intro hreg
      rw [decode_opcode0F]
      exact decode0F01_register hmod hreg _ _
  · intro b rest hreg
    rw [decode_opcode8E, decode8E_invalid hreg]
    refine ⟨fun hwhole => invalidForm_whole (hwhole.imp_right fun hlength => ?_) _,
      invalidForm_cases _ _ _⟩
    rw [List.length_take]
    omega
  · intro b rest hreg
    rw [decode_opcode8E]
    exact decode8E_other hreg _ _
  · intro b rest h3 h1
    rw [decode_opcode0F]
    exact (if_neg h3).trans (if_neg h1)
  · intro b rest h01 hB2
    rw [decode_opcode0F]
    exact (if_neg h01).trans (if_neg hB2)
  · intro b rest hb hmap
    rw [decode_of_opcode hb]
    exact decodeOpcode_other hmap _ _
  · intro s h
    exact if_neg fun hcode => h (List.contains_iff_mem.1 hcode)
  · intro s hq hmode hbig
    exact ⟨hq.step_invalidOpcode hmode hbig, fun r => hq.step_refused hmode hbig⟩

end Sys2Proof
end

section
/-! Settled: LOCK, the repeat prefixes, 67H and instructions over 15 bytes (30_encoding.md R50, R51). -/

namespace Sys2Proof

open Machine

/-! ### An instruction with one of the prefixes put before its own -/

/-- The same instruction behind one byte more. -/
def Instr.prepend (q : Prefix) : Instr → Instr
  | .intN p n => .intN (q :: p) n
  | .int3 p => .int3 (q :: p)
  | .into p => .into (q :: p)
  | .bound32 p r m => .bound32 (q :: p) r m
  | .bound16 p r m => .bound16 (q :: p) r m
  | .iretd p => .iretd (q :: p)
  | .iret p => .iret (q :: p)
  | .sti p => .sti (q :: p)
  | .cli p => .cli (q :: p)
  | .pushfd p => .pushfd (q :: p)
  | .pushf p => .pushf (q :: p)
  | .popfd p => .popfd (q :: p)
  | .popf p => .popf (q :: p)
  | .lidt p m => .lidt (q :: p) m
  | .sidt p m => .sidt (q :: p) m
  | .movSS p src => .movSS (q :: p) src
  | .popSS p => .popSS (q :: p)
  | .lss p r m => .lss (q :: p) r m

@[simp] theorem Instr.prepend_prefixes (q : Prefix) (i : Instr) :
    (i.prepend q).prefixes = q :: i.prefixes := by
  cases i <;> rfl

@[simp] theorem Instr.prepend_body (q : Prefix) (i : Instr) : (i.prepend q).body = i.body := by
  cases i with
  | movSS p src => cases src <;> rfl
  | _ => rfl

theorem encode_prepend (q : Prefix) (i : Instr) (rest : List Byte) :
    encode (i.prepend q) ++ rest = q.byte :: (encode i ++ rest) := by
  simp [encode]

theorem Instr.prepend_size (q : Prefix) (i : Instr) : (i.prepend q).size = i.size + 1 := by
  rw [size_eq, size_eq, prepend_prefixes, prepend_body, List.length_cons]
  omega

/-- Only 66H and 67H take part in the choice of the form. -/
theorem Instr.prepend_fits {q : Prefix} (hop : q ≠ .opSize) (haddr : q ≠ .addrSize) (i : Instr) :
    (i.prepend q).fits = i.fits := by
  have hsize (p : List Prefix) : hasOpSize (q :: p) = hasOpSize p := by
    simp [hasOpSize, hop.symm]
  cases i with
  | movSS p src => cases src <;> simp [prepend, fits, haddr.symm]
  | _ => simp [prepend, fits, hsize, haddr.symm]

/-- LOCK and the repeat prefixes before an instruction of the map. -/
theorem decode_prefix_encode {q : Prefix} (hop : q ≠ .opSize) (haddr : q ≠ .addrSize) {i : Instr}
    (hfits : i.fits = true) (hsize : i.size ≤ 14) (rest : List Byte) :
    decode (q.byte :: (encode i ++ rest)) =
      underPrefixes (q :: i.prefixes) (.instr (i.prepend q)) := by
  have hfits' : (i.prepend q).fits = true := by rw [i.prepend_fits hop haddr, hfits]
  have hsize' : (i.prepend q).size ≤ 15 := by rw [i.prepend_size]; omega
  rw [← encode_prepend, decode_encode_of_fits hfits' hsize', i.prepend_prefixes]

theorem underPrefixes_lock_instr {p : List Prefix} (h : prefixesOk p = true) (i : Instr) :
    underPrefixes (.lock :: p) (.instr i) = .invalidOpcode := by
  obtain ⟨-, hrepne, hrep⟩ := (prefixesOk_iff p).1 h
  rw [← Bool.not_eq_true, List.contains_iff_mem] at hrepne hrep
  simp [underPrefixes, hrepne, hrep]

theorem underPrefixes_repeat_instr {q : Prefix} (hq : q = .repne ∨ q = .rep) (p : List Prefix)
    (i : Instr) : underPrefixes (q :: p) (.instr i) = .refused .repeatPrefix := by
  rcases hq with rfl | rfl <;> simp [underPrefixes]

/-- 67H stands before the opcode of an instruction with a memory operand. -/
theorem decodeOpcode_body_address16 {q : List Prefix} (hq : q.contains .addrSize = true) {i : Instr}
    {m : MemOperand} (h : i.operand = some m) (rest : List Byte) :
    decodeOpcode q (i.body ++ rest) = .refused .addressSize16 := by
  cases i with
  | bound32 p r m => exact (decode62_reads q r).address16 hq m rest
  | bound16 p r m => exact (decode62_reads q r).address16 hq m rest
  | lidt p m => exact (decode0F01_reads_lidt q).address16 hq m rest
  | sidt p m => exact (decode0F01_reads_sidt q).address16 hq m rest
  | movSS p src =>
    cases src with
    | reg r => cases h
    | mem m => exact (decode8E_reads q).address16 hq m rest
  | lss p r m => exact (decode0FB2_reads q r).address16 hq m rest
  | _ => cases h

theorem decode_address16_encode {i : Instr} {m : MemOperand} (hm : i.operand = some m)
    (hp : prefixesOk i.prefixes = true) (hsize : i.size ≤ 14) (rest : List Byte) :
    decode (0x67 :: (encode i ++ rest)) = .refused .addressSize16 := by
  have hsize' : (i.prepend .addrSize).size ≤ 15 := by rw [i.prepend_size]; omega
  have hsplit := splitPrefixes_encode_of_le hsize' rest
  rw [i.prepend_prefixes, i.prepend_body, encode_prepend] at hsplit
  have hprefixes : prefixesOk (.addrSize :: i.prefixes) = true := hp
  have hread := decodeOpcode_body_address16 (q := .addrSize :: i.prefixes) (by simp) hm
  refine (decode_of_splitPrefixes hsplit).trans ?_
  rw [hread, underPrefixes_of_prefixesOk hprefixes]
  rfl

/-- Settles O5, clause by clause: LOCK or a repeat byte in front, 67H before the operand, a form too
long, the fetch of one, and LOCK before a form that it makes too long. -/
theorem prefixesAndLength : Obligations.PrefixesAndLength := by
  refine ⟨?_, ?_, ?_, ?_, ?_⟩
  · intro i rest hwf hsize
    obtain ⟨hp, hfits, -⟩ := (Instr.wf_iff i).1 hwf
    have hread {q : Prefix} (hop : q ≠ .opSize) (haddr : q ≠ .addrSize) :=
      decode_prefix_encode hop haddr hfits hsize rest
    refine ⟨?_, ?_, ?_⟩
    · exact (hread (q := .lock) (by decide) (by decide)).trans (underPrefixes_lock_instr hp _)
    · exact (hread (q := .repne) (by decide) (by decide)).trans
        (underPrefixes_repeat_instr (.inl rfl) _ _)
    · exact (hread (q := .rep) (by decide) (by decide)).trans
        (underPrefixes_repeat_instr (.inr rfl) _ _)
  · intro p r m i rest hform hwf hsize
    obtain ⟨hp, -⟩ := (Instr.wf_iff i).1 hwf
    have hm : i.operand = some m := by
      rcases hform with rfl | rfl | rfl | rfl | rfl | rfl <;> rfl
    exact decode_address16_encode hm hp hsize rest
  · intro i rest hform hsize
    obtain ⟨hp, hfits⟩ := (Instr.formOk_iff i).1 hform
    exact (decode_encode_of_long hfits hsize rest).truncated ((prefixesOk_iff _).1 hp).1
  · intro s hq hmode hbig
    refine ⟨hq.step_truncated hmode hbig, fun h => ⟨fun hlimit => ?_, fun hfull => ?_⟩⟩
    · rw [← fetchWindow_tail] at hlimit
      exact (hq.step_invalidTruncated hmode hbig h).trans (takeInvalidTruncated_limit hlimit)
    · rw [← fetchWindow_tail] at hfull
      rw [hq.step_invalidTruncated hmode hbig h]
      exact takeInvalidTruncated_full hfull
  · intro i rest hform hsize
    obtain ⟨-, hfits⟩ := (Instr.formOk_iff i).1 hform
    have hfits' : (i.prepend .lock).fits = true := by
      rw [i.prepend_fits (by decide) (by decide), hfits]
    have hcut := decode_encode_of_long hfits' (by rw [i.prepend_size]; omega) rest
    rw [encode_prepend] at hcut
    exact hcut.cases

end Sys2Proof
end

section
/-! Support: what a completed delivery through an interrupt or trap gate leaves (60_exceptions.md R140
to R145). The stages of a delivery say which items were pushed on which stack; here they are read as
the handler's entry and the frame of the statements. -/

namespace Sys2Proof.Machine

/-! ### The handler's entry -/

/-- A state with another stack: SS:ESP, memory and the free counter, which is all that the pushes of a
frame can have changed. -/
def State.onStack (s : State) (ss : SegRegister) (esp : Word) (m : Memory) (n : Nat) : State :=
  { s with
    regs := { s.regs with esp := esp }
    sregs := { s.sregs with ss := ss }
    mem := m
    freeCount := n }

/-- What the handler starts with does not depend on where its frame went (R136, R138, R144, R145). -/
theorem handlerEntered_onStack (s : State) (ss : SegRegister) (esp : Word) (m : Memory) (n : Nat)
    (k : EventKind) (g : Gate) (d : SegDescriptor) (level : BitVec 2) :
    HandlerEntered s (endDelivery (enterHandler (s.onStack ss esp m n) g d level) k) k g d level where
  eip := rfl
  cs := rfl
  cpl := selWithRpl_low g.sel level
  flags j _ := by
    have hflag := flag_handlerFlags s.eflags (g.kind == .interrupt) j
    simp only [flag, beq_iff_eq, and_comm (a := g.kind = .interrupt)] at hflag
    have hsets : (j = tfBit ∨ j = vmBit ∨ j = rfBit ∨ j = ntBit) ↔
        (j = 8 ∨ j = 14 ∨ j = 16 ∨ j = 17) := by simp only [tfBit, vmBit, rfBit, ntBit]; omega
    simp only [hsets] at hflag
    exact hflag
  regs q hq := by
    cases q with
    | esp => exact absurd rfl hq
    | _ => rfl
  es := rfl
  ds := rfl
  fs := rfl
  gs := rfl
  idtr := rfl
  windows := ⟨rfl, rfl⟩
  nmiBlocked := rfl
  deliveries := rfl
  system := ⟨rfl, rfl, rfl, rfl, rfl, rfl, rfl, rfl, rfl, rfl, rfl⟩

/-! ### The frame -/

theorem readSlot_congr {t u : State} (h : t.mem = u.mem) (w : Bool) (a : Word) :
    readSlot t w a = readSlot u w a := by
  rw [readSlot, readSlot, read32_congr h, read16_congr h]

/-- A frame stands in memory, whatever becomes of the registers. -/
theorem FrameAt.congr {t u : State} {w : Bool} {a ret flags : Word} {cs : Half} {err : Option Word}
    (hu : FrameAt u w a ret cs flags err) (h : t.mem = u.mem) : FrameAt t w a ret cs flags err where
  error e he := (readSlot_congr h w a).trans (hu.error e he)
  eip := (readSlot_congr h w _).trans hu.eip
  cs := (read16_congr h _).trans hu.cs
  flags := (readSlot_congr h w _).trans hu.flags

/-- The items of a frame pushed on top of others (R142, R153). -/
theorem length_frame (err : Option Word) (ret cs flags : Word) (vs : List Word) :
    (err.toList ++ ret :: cs :: flags :: vs).length = frameItems err + vs.length := by
  cases err <;> simp [frameItems] <;> omega

/-- Behind the items of a frame stand those pushed before it. -/
theorem getElem?_frame (err : Option Word) (ret cs flags : Word) (vs : List Word) (i : Nat) :
    (err.toList ++ ret :: cs :: flags :: vs)[frameItems err + i]? = vs[i]? := by
  cases err <;> simp [frameItems, Nat.add_comm _ i]

/-! ### The two kinds of entry -/

/-- A delivery to the same level completes on the current stack (R140, R142, R143). -/
theorem SameLevelReady.deliver_entry {s : State} {v : Byte} {k : EventKind} {g : Gate}
    {d : SegDescriptor} {err : Option Word} (h : SameLevelReady s v k g d err) (cs : Half)
    (ret : Word) :
    ∃ t, deliver s v k err cs ret = .ok t ∧ SameLevelEntry s t k g d err cs ret := by
  obtain ⟨u, x, hx, st, hdeliver⟩ := h.stages cs ret
  have hlen := length_frame err ret x s.eflags []
  have hesp := st.esp
  have hmem := st.memory
  have hss : u.sregs.ss = _ := congrArg SegRegs.ss st.ss
  rw [hlen] at hesp hmem
  obtain ⟨m, n, hu⟩ := st.state
  refine ⟨_, hdeliver, ?_, hss, hesp, (frame_of_stacked hx st).congr rfl, hmem⟩
  rw [hu]
  exact handlerEntered_onStack s s.sregs.ss _ m n k g d s.cpl

/-- A delivery to a more privileged level completes on the stack the TSS names, with the interrupted
SS and ESP above the frame (R141, R143). -/
theorem InnerLevelReady.deliver_entry {s : State} {v : Byte} {k : EventKind} {g : Gate}
    {d ds : SegDescriptor} {err : Option Word} (h : InnerLevelReady s v k g d ds err) (cs : Half)
    (ret : Word) :
    ∃ t, deliver s v k err cs ret = .ok t ∧ InnerLevelEntry s t k g d ds err cs ret := by
  obtain ⟨u, x, y, hx, hy, st, hdeliver⟩ := h.stages cs ret
  have hlen := length_frame err ret x s.eflags [s.regs.esp, y]
  have hitem := getElem?_frame err ret x s.eflags [s.regs.esp, y]
  have hesp := st.esp
  have hmem := st.memory
  have hss : u.sregs.ss = _ := congrArg SegRegs.ss st.ss
  rw [hlen] at hesp hmem
  have holdEsp := st.items _ s.regs.esp (hitem 0)
  have holdSs : u.read16 (slotAt (ds.base + u.regs.esp) g.wide (frameItems err + 1)) =
      s.sregs.ss.sel := by
    rw [read16_eq_readSlot u g.wide, ← hy, ← slotValue_low g.wide y]
    exact congrArg _ (st.items _ y (hitem 1))
  obtain ⟨m, n, hu⟩ := st.state
  refine ⟨_, hdeliver, ?_, hss, hesp, (frame_of_stacked hx st).congr rfl,
    holdEsp, holdSs, hmem⟩
  rw [hu]
  exact handlerEntered_onStack s ⟨tssSs s d.dpl, ds⟩ _ m n k g d d.dpl

end Sys2Proof.Machine
end

section
/-! Support: the checks of a vector's gate that fail, and the exception a delivery raises for each
(60_exceptions.md R129, R139). -/

namespace Sys2Proof.Machine

/-- An entry beyond the limit of the IDT (R129). -/
theorem idtGate_beyond {s : State} {v : Byte} (h : s.idtr.limit.toNat < 8 * v.toNat + 7) (ext : Word) :
    idtGate s v ext = .error (.raise (gpExn (idtCode v ext))) := by
  have hhas : s.idtHas v = false := decide_eq_false (by omega)
  rw [idtGate, hhas, require_false, error_bind]

/-- A software event from a level above the gate's DPL (R139). -/
theorem checkGate_level {s : State} {g : Gate} {k : EventKind} (hk : k.soft = true)
    (h : g.dpl < s.cpl) (v : Byte) : checkGate s g v k = .error (.raise (gpExn (idtCode v 0))) := by
  have hcheck : (!k.soft || decide (s.cpl ≤ g.dpl)) = false := by
    rw [hk, decide_eq_false (BitVec.not_le.2 h)]
    rfl
  rw [checkGate, hcheck, require_false, error_bind]

section
variable {s : State} {v : Byte} {k : EventKind} {g : Gate} {x : Stop} (hvm : s.flagVM = false)
  (err : Option Word) (cs : Half) (ret : Word)
include hvm

theorem deliver_of_idtGate_error (h : idtGate s v k.ext = .error x) :
    deliver s v k err cs ret = .error x := by
  rw [deliver, hvm, Bool.not_false, inScope_true, ok_bind, h, error_bind]

theorem deliver_of_checkGate_error (hg : idtGate s v k.ext = .ok g)
    (h : checkGate s g v k = .error x) : deliver s v k err cs ret = .error x := by
  rw [deliver, hvm, Bool.not_false, inScope_true, ok_bind, hg, ok_bind, h, error_bind]

end

end Sys2Proof.Machine
end

section
/-! Settled: INT n, INT 3 and INTO (40_software_interrupts.md R59 to R63). -/

namespace Sys2Proof.Machine

/-! ### The event an instruction starts -/

theorem softEvent_soft {s : State} {i : Instr} {v : Byte} {k : EventKind}
    (h : softEvent s i = some (v, k)) : k.soft = true := by
  unfold softEvent at h
  split at h
  · cases h; rfl
  · cases h; rfl
  · split at h <;> cases h; rfl
  · cases h

/-- An event an instruction starts itself leaves EXT clear in the error codes of its delivery (R155). -/
theorem EventKind.ext_of_soft {k : EventKind} (h : k.soft = true) : k.ext = 0 := if_pos h

/-- INT n, INT 3 and INTO with OF = 1 take the interrupt of their vector, with the return pointer
behind the instruction (R59, R62, R63). -/
theorem exec_of_softEvent {s : State} {i : Instr} {v : Byte} {k : EventKind} (hs : s.Runs)
    (h : softEvent s i = some (v, k)) : exec i s = takeInterrupt s v k (eipNext s i) := by
  unfold softEvent at h
  split at h
  · cases h; exact inProtectedMode_runs hs _
  · cases h; exact inProtectedMode_runs hs _
  · split at h
    · next p hof =>
      cases h
      exact (inProtectedMode_runs hs _).trans (if_pos hof)
    · cases h
  · cases h

theorem exec_of_softEvent_ok {s t : State} {i : Instr} {v : Byte} {k : EventKind} (hs : s.Runs)
    (h : softEvent s i = some (v, k))
    (hd : deliver s v k none s.sregs.cs.sel (eipNext s i) = .ok t) : exec i s = .next t :=
  (exec_of_softEvent hs h).trans (takeInterrupt_of_ok hd)

/-- Settles O25: the instruction takes its event, and the delivery of the event completes on the
current stack or on the one of the TSS. -/
theorem softwareInterruptEnters : Obligations.SoftwareInterruptEnters := by
  intro s i v k g d hs hi
  refine ⟨fun hready => ?_, fun ds hready => ?_⟩
  · obtain ⟨t, hd, hentry⟩ := hready.deliver_entry s.sregs.cs.sel (eipNext s i)
    exact ⟨t, exec_of_softEvent_ok hs hi hd, hentry⟩
  · obtain ⟨t, hd, hentry⟩ := hready.deliver_entry s.sregs.cs.sel (eipNext s i)
    exact ⟨t, exec_of_softEvent_ok hs hi hd, hentry⟩

/-- Settles O26: the limit of the IDT and the gate's DPL are checked before anything else can fail, and
the #GP of either is taken at the instruction. -/
theorem softwareInterruptFaults : Obligations.SoftwareInterruptFaults := by
  intro s i v k hs hi hfault
  have hsoft := softEvent_soft hi
  have hcode : idtCode v 0 = 8 * v.setWidth 32 + 2 := BitVec.add_zero _
  have hraise : deliver s v k none s.sregs.cs.sel (eipNext s i) =
      .error (.raise (gpExn (idtCode v 0))) := by
    rcases hfault with hlimit | ⟨htable, g, hgate, hdpl⟩
    · refine deliver_of_idtGate_error hs.2 _ _ _ ?_
      rw [EventKind.ext_of_soft hsoft]
      exact idtGate_beyond hlimit 0
    · have hg : idtGate s v k.ext = .ok g :=
        (idtGate_ok _ _ _ _).2 ⟨decide_eq_true htable, hgate⟩
      exact deliver_of_checkGate_error hs.2 _ _ _ hg (checkGate_level hsoft hdpl v)
  rw [exec_of_softEvent hs hi, takeInterrupt_of_raise hraise, hcode]
  rfl

/-- Settles O27: INT 2 is an INT n, so nothing it does touches the NMI block, its handler is entered as
O25 says and its gate's DPL checked as O26 says. -/
theorem int2IsNoNmi : Obligations.Int2IsNoNmi := by
  intro s p hs
  have hblock : ∀ t, exec (.intN p 2) s = .next t → t.nmiBlocked = s.nmiBlocked :=
    fun t h => (exec_executed h).nmiBlocked
  have hevent : softEvent s (.intN p 2) = some (2, .softIntN) := rfl
  refine ⟨hblock, fun g d hready => ?_, fun g d ds hready => ?_, fun g htable hgate hdpl => ?_⟩
  · obtain ⟨t, hexec, hentry⟩ := (softwareInterruptEnters s _ 2 _ g d hs hevent).1 hready
    exact ⟨t, hexec, hentry.entered.eip, hblock t hexec⟩
  · obtain ⟨t, hexec, hentry⟩ := (softwareInterruptEnters s _ 2 _ g d hs hevent).2 ds hready
    exact ⟨t, hexec, hentry.entered.eip, hblock t hexec⟩
  · exact softwareInterruptFaults s _ 2 _ hs hevent (.inr ⟨htable, g, hgate, hdpl⟩)

end Sys2Proof.Machine
end

section
/-! Settled: INTO with OF = 0, and BOUND (40_software_interrupts.md R63, R64). -/

namespace Sys2Proof.Machine

/-- An instruction whose body ends by advancing EIP alone did nothing but complete. -/
theorem retire_onlyCompleted (s : State) (i : Instr) : OnlyCompleted s (s.retire i) i where
  completed := ⟨rfl, rfl, rfl, rfl, rfl, rfl, rfl, rfl, rfl, rfl, rfl, rfl, rfl, rfl⟩
  regs q := by cases q <;> rfl
  eflags := rfl
  sregs := rfl
  idtr := rfl
  memory _ := rfl
  windows := ⟨rfl, rfl⟩

/-- Settles O28: with OF = 0 INTO takes the branch that only advances EIP. -/
theorem intoWithoutOverflow : Obligations.IntoWithoutOverflow := by
  intro s p hs hof
  have hexec : exec (.into p) s = .next (s.retire (.into p)) :=
    (inProtectedMode_runs hs _).trans (if_neg (by simp [hof]))
  exact ⟨_, hexec, retire_onlyCompleted s (.into p)⟩

/-! ### BOUND -/

/-- What BOUND does once its bounds are read: the signed comparison decides between completion and #BR
(R64). -/
def boundCheck {w : Nat} (s : State) (i : Instr) (lo hi x : BitVec w) : Except Stop State := do
  require (lo.sle x && x.sle hi) brExn
  pure (s.retire i)

theorem boundCheck_inside {w : Nat} {lo hi x : BitVec w}
    (h : lo.toInt ≤ x.toInt ∧ x.toInt ≤ hi.toInt) (s : State) (i : Instr) : boundCheck s i lo hi x = .ok (s.retire i) := by
  have hc : (lo.sle x && x.sle hi) = true := by
    rw [Bool.and_eq_true, BitVec.sle_iff_toInt_le, BitVec.sle_iff_toInt_le]
    exact h
  rw [boundCheck, hc, require_true, ok_bind]
  rfl

theorem boundCheck_outside {w : Nat} {lo hi x : BitVec w}
    (h : x.toInt < lo.toInt ∨ hi.toInt < x.toInt) (s : State) (i : Instr) : boundCheck s i lo hi x = .error (.raise brExn) := by
  have hc : (lo.sle x && x.sle hi) = false := by
    rw [Bool.and_eq_false_iff, ← Bool.not_eq_true, ← Bool.not_eq_true, BitVec.sle_iff_toInt_le,
      BitVec.sle_iff_toInt_le]
    omega
  rw [boundCheck, hc, require_false, error_bind]

/-- Both sizes of BOUND end in the same comparison: an index within its bounds completes, any other
raises #BR at the instruction. -/
theorem bound_outcome {w : Nat} {s : State} {i : Instr} {lo hi x : BitVec w}
    (h : exec i s = conclude s (boundCheck s i lo hi x)) :
    (lo.toInt ≤ x.toInt ∧ x.toInt ≤ hi.toInt → ∃ t, exec i s = .next t ∧ OnlyCompleted s t i) ∧
    (x.toInt < lo.toInt ∨ hi.toInt < x.toInt → exec i s = takeException s ⟨5, 0⟩ s.eip) := by
  refine ⟨fun hin => ⟨s.retire i, ?_, retire_onlyCompleted s i⟩, fun hout => ?_⟩
  · rw [h, boundCheck_inside hin, conclude_ok]
  · rw [h, boundCheck_outside hout, conclude_raise]
    rfl

/-! ### Its operand -/

theorem loadSeg32_operand {s : State} {p : List Prefix} {m : MemOperand} {off : Word}
    (h : OperandPermitted s p m off 4 false) :
    loadSeg32 s (operandSegment p m) (s.effectiveAddress m + off) =
      .ok (s.read32 (operandLinear s p m + off)) :=
  (loadSeg32_ok _ _ _ _).2 ⟨h, by rw [operandLinear, BitVec.add_assoc]⟩

theorem loadSeg16_operand {s : State} {p : List Prefix} {m : MemOperand} {off : Word}
    (h : OperandPermitted s p m off 2 false) :
    loadSeg16 s (operandSegment p m) (s.effectiveAddress m + off) =
      .ok (s.read16 (operandLinear s p m + off)) :=
  (loadSeg16_ok _ _ _ _).2 ⟨h, by rw [operandLinear, BitVec.add_assoc]⟩

section
variable {s : State} {p : List Prefix} {m : MemOperand} (hs : s.Runs)
include hs

/-- The bounds of the 32-bit form stand at EA and EA + 4 (R64). -/
theorem exec_bound32 (hlo : OperandPermitted s p m 0 4 false)
    (hhi : OperandPermitted s p m 4 4 false) (r : Reg) :
    exec (.bound32 p r m) s = conclude s (boundCheck s (.bound32 p r m)
      (s.read32 (operandLinear s p m)) (s.read32 (operandLinear s p m + 4)) (s.getReg r)) := by
  have hread := loadSeg32_operand hlo
  rw [BitVec.ofNat_eq_ofNat, BitVec.add_zero, BitVec.add_zero] at hread
  refine (inProtectedMode_runs hs _).trans (congrArg (conclude s) ?_)
  simp only [hread, loadSeg32_operand hhi, ok_bind, boundCheck]

/-- The bounds of the 16-bit form stand at EA and EA + 2 (R64). -/
theorem exec_bound16 (hlo : OperandPermitted s p m 0 2 false)
    (hhi : OperandPermitted s p m 2 2 false) (r : Reg) :
    exec (.bound16 p r m) s = conclude s (boundCheck s (.bound16 p r m)
      (s.read16 (operandLinear s p m)) (s.read16 (operandLinear s p m + 2))
      ((s.getReg r).extractLsb' 0 16)) := by
  have hread := loadSeg16_operand hlo
  rw [BitVec.ofNat_eq_ofNat, BitVec.add_zero, BitVec.add_zero] at hread
  refine (inProtectedMode_runs hs _).trans (congrArg (conclude s) ?_)
  simp only [hread, loadSeg16_operand hhi, ok_bind, boundCheck]

end

/-- An exception whose vector is none of ERRCODE_VECTORS pushes no error code (R153). -/
theorem pushed_eq_none {e : Exn} {p : Config.Params} (h : e.vec ∉ p.errcodeVectors) :
    e.pushed p = none := by
  rw [Exn.pushed, if_neg]
  rwa [List.contains_iff_mem]

/-- Settles O29, for each size by reading its two bounds and comparing. -/
theorem boundChecksIndex : Obligations.BoundChecksIndex :=
  ⟨fun _ _ r _ hs hlo hhi => ⟨bound_outcome (exec_bound32 hs hlo hhi r), fun h => pushed_eq_none h⟩,
    fun _ _ r _ hs hlo hhi => ⟨bound_outcome (exec_bound16 hs hlo hhi r), fun h => pushed_eq_none h⟩⟩

end Sys2Proof.Machine
end

section
/-! Support: what an instruction that writes only registers, flags, memory or the windows leaves, and
the flags POPFD and POPF load (41_interrupt_flag.md R65 to R68). -/

namespace Sys2Proof.Machine

/-! ### Completion -/

/-- An instruction whose body advances EIP and, for the rest, writes nothing but the general registers,
EFLAGS, memory, the windows and the count of free values, completes. -/
theorem completed_of_writes (s : State) (i : Instr) (regs : Gprs) (flags : Word) (mem : Memory)
    (inhibit window : Bool) (n : Nat) :
    Completed s
      { s with
        eip := eipNext s i, regs := regs, eflags := flags, mem := mem, eventInhibit := inhibit,
        stiWindow := window, freeCount := n } i :=
  ⟨rfl, rfl, rfl, ⟨rfl, rfl, rfl, rfl, rfl, rfl, rfl, rfl, rfl, rfl, rfl⟩⟩

theorem getReg_congr {s t : State} (h : s.regs = t.regs) (q : Reg) : s.getReg q = t.getReg q := by
  cases q <;> simp only [State.getReg, h]

/-- A state whose registers are those of `s` but for a write to one. -/
theorem sameRegsBut_of_set {s t : State} {r : Reg} {v : Word} (h : t.regs = s.regs.set r v) :
    SameRegsBut r s t := fun q hq => by
  rw [getReg_congr (t := s.setReg r v) h, getReg_setReg, if_neg hq]

/-! ### One item of the current stack -/

theorem slotAt_zero (a : Word) (w : Bool) : slotAt a w 0 = a := BitVec.add_zero a

/-- The item on top of the stack is read at ESP. -/
theorem stackItem_top {s : State} {w : Bool} (h : StackReadable s w 1) :
    stackItem w s s.regs.esp = .ok (stackSlot s w 0) := by
  have hitem := stackItem_slot h Nat.zero_lt_one
  rwa [slotAt_zero] at hitem

/-- Room for one push is permission to store one item below ESP. -/
theorem roomFor_one (d : SegDescriptor) (esp : Word) (w : Bool) :
    RoomFor d esp w 1 ↔
      d.permits (esp - BitVec.ofNat 32 (slotSize w)) (slotSize w) true = true := by
  constructor
  · intro h
    simpa only [Nat.mul_one] using h 1 le_rfl le_rfl
  · intro h k hk hk'
    obtain rfl : k = 1 := le_antisymm hk' hk
    rwa [Nat.mul_one]

/-- A push without room raises the fault it was given. -/
theorem pushItem_no_room {w : Bool} {s : State}
    (h : ¬ RoomFor s.sregs.ss.desc s.regs.esp w 1) (e : Exn) (v : Word) :
    pushItem w e s v = .error (.raise e) := by
  rw [roomFor_one, Bool.not_eq_true] at h
  have hlinear : stackLinear e s (s.regs.esp - BitVec.ofNat 32 (slotSize w)) (slotSize w) true =
      .error (.raise e) := by
    rw [stackLinear, h, require_false, error_bind]
  cases w
  · exact congrArg (· >>= _) hlinear
  · exact congrArg (· >>= _) hlinear

theorem writeSlot_fields (s : State) (w : Bool) (a v : Word) :
    ∃ m, writeSlot s w a v = { s with mem := m } := by
  cases w
  · exact ⟨_, rfl⟩
  · exact ⟨_, rfl⟩

/-! ### EFLAGS -/

/-- Setting a flag to the value it has changes nothing. -/
theorem setFlag_self (f : Word) (i : Nat) (hi : i < 32) : setFlag f i (flag f i) = f := by
  refine BitVec.eq_of_getLsbD_eq fun j _ => ?_
  refine (flag_setFlag f i j (flag f i) hi).trans ?_
  split
  · next h => rw [h]; rfl
  · rfl

/-- An image for a 16-bit load: the item below bit 16, the flags in force from there on. -/
theorem flag_lowHalfImage (cur : Word) (img : Half) (j : Nat) :
    flag (lowHalfImage cur img) j = if j < 16 then img.getLsbD j else flag cur j := by
  unfold flag lowHalfImage
  rw [BitVec.getLsbD_append]
  split
  · rfl
  · next h =>
    rw [BitVec.getLsbD_extractLsb', show 16 + (j - 16) = j by omega]
    by_cases hj : j < 32
    · simp [show j - 16 < 16 by omega]
    · simp [BitVec.getLsbD_of_ge cur j (by omega)]

/-- What POPFD makes of its image, flag by flag (R68). -/
theorem flag_popfdFlags (cur img : Word) (cpl : BitVec 2) (j : Nat) (hj : j < 32) :
    flag (popfdFlags cur img cpl) j =
      if j = 1 then true
      else if flag definedFlags j = false then false
      else if j = 12 ∨ j = 13 then (if cpl = 0 then flag img j else flag cur j)
      else if j = 9 then (if cpl ≤ ioplOf cur then flag img j else flag cur j)
      else if j = 17 then flag cur j
      else if j = 16 then false
      else flag img j := by
  rw [popfdFlags, flag_fixReserved, flag_setFlag _ _ _ _ (by decide),
    flag_setFlag _ _ _ _ (by decide), flag_holdPrivileged _ _ _ _ hj]
  by_cases hone : j = 1
  · simp [hone]
  cases hdefined : flag definedFlags j
  · simp [hone]
  by_cases hvm : j = 17
  · simp [hvm]
  by_cases hrf : j = 16
  · simp [hrf]
  · simp [hone, hvm, hrf]

/-- What POPF makes of its image, flag by flag (R68). -/
theorem flag_popfFlags (cur : Word) (img : Half) (cpl : BitVec 2) (j : Nat) (hj : j < 32) :
    flag (popfFlags cur img cpl) j =
      if j = 1 then true
      else if flag definedFlags j = false then false
      else if 16 ≤ j then flag cur j
      else if j = 12 ∨ j = 13 then (if cpl = 0 then img.getLsbD j else flag cur j)
      else if j = 9 then (if cpl ≤ ioplOf cur then img.getLsbD j else flag cur j)
      else img.getLsbD j := by
  rw [popfFlags, flag_fixReserved, flag_holdPrivileged _ _ _ _ hj, flag_lowHalfImage]
  by_cases hone : j = 1
  · simp [hone]
  cases hdefined : flag definedFlags j
  · simp [hone]
  by_cases hhigh : 16 ≤ j
  · simp [hone, hhigh, show ¬ j < 16 by omega, show ¬ j = 12 by omega, show ¬ j = 13 by omega,
      show ¬ j = 9 by omega]
  · simp [hone, hhigh, show j < 16 by omega]

end Sys2Proof.Machine
end

section
/-! Settled: STI and CLI (41_interrupt_flag.md R65, R66). -/

namespace Sys2Proof.Machine

/-- What both instructions amount to: the answer, if the CPL is numerically at most the IOPL. -/
def ifPrivileged (s t : State) : Except Stop State := do
  require (decide (s.cpl ≤ s.iopl)) (gpExn 0)
  pure t

theorem exec_sti {s : State} (hs : s.Runs) (p : List Prefix) :
    exec (.sti p) s = conclude s (ifPrivileged s (enableInterrupts (s.retire (.sti p)))) :=
  inProtectedMode_runs hs _

theorem exec_cli {s : State} (hs : s.Runs) (p : List Prefix) :
    exec (.cli p) s = conclude s
      (ifPrivileged s ((s.retire (.cli p)).setEflags (setFlag s.eflags ifBit false))) :=
  inProtectedMode_runs hs _

theorem conclude_ifPrivileged {s : State} (h : s.cpl ≤ s.iopl) (t : State) :
    conclude s (ifPrivileged s t) = .next t := by
  rw [ifPrivileged, decide_eq_true h, require_true, ok_bind]
  rfl

theorem conclude_ifPrivileged_raises {s : State} (h : s.iopl < s.cpl) (t : State) :
    conclude s (ifPrivileged s t) = takeException s ⟨13, 0⟩ s.eip := by
  rw [ifPrivileged, decide_eq_false (BitVec.not_le.2 h), require_false, error_bind, conclude_raise]
  rfl

/-- STI sets IF and writes nothing else but its window, which stays as it is where IF was 1 already. -/
theorem enableInterrupts_cases (s : State) :
    ∃ window n, enableInterrupts s =
        { s with eflags := setFlag s.eflags ifBit true, stiWindow := window, freeCount := n } ∧
      (s.flagIF = true → window = s.stiWindow) := by
  unfold enableInterrupts
  split
  · next hif =>
    have hsame : setFlag s.eflags ifBit true = s.eflags := by
      rw [← show s.flagIF = true from hif]
      exact setFlag_self _ _ (by decide)
    exact ⟨s.stiWindow, s.freeCount, by rw [hsame], fun _ => rfl⟩
  · next hif => exact ⟨_, _, rfl, fun h => absurd h hif⟩

/-- Settles O30: STI retires and then sets IF, and the window is closed by the retirement. -/
theorem stiSetsIf : Obligations.StiSetsIf := by
  intro s p hs
  rw [exec_sti hs]
  refine ⟨fun hle => ?_, fun hlt => conclude_ifPrivileged_raises hlt _⟩
  obtain ⟨window, n, henable, hwindow⟩ := enableInterrupts_cases (s.retire (.sti p))
  rw [conclude_ifPrivileged hle, henable]
  exact ⟨_, rfl, completed_of_writes s _ _ _ _ _ _ _,
    fun j _ => flag_setFlag s.eflags ifBit j true (by decide),
    getReg_congr rfl, rfl, rfl, fun _ => rfl, rfl, hwindow⟩

/-- Settles O31: CLI retires and clears IF. -/
theorem cliClearsIf : Obligations.CliClearsIf := by
  intro s p hs
  rw [exec_cli hs]
  refine ⟨fun hle => ?_, fun hlt => conclude_ifPrivileged_raises hlt _⟩
  rw [conclude_ifPrivileged hle]
  exact ⟨_, rfl, completed_of_writes s _ _ _ _ _ _ _,
    fun j _ => flag_setFlag s.eflags ifBit j false (by decide),
    getReg_congr rfl, rfl, rfl, fun _ => rfl, rfl, rfl⟩

end Sys2Proof.Machine
end

section
/-! Settled: PUSHFD, PUSHF, POPFD and POPF (41_interrupt_flag.md R67, R68). -/

namespace Sys2Proof.Machine

/-! ### PUSHFD and PUSHF -/

/-- Both sizes push EFLAGS as an item of their size and retire. -/
theorem exec_pushFlags {s : State} {p : List Prefix} {i : Instr} {w : Bool} (hs : s.Runs)
    (hi : (i = .pushfd p ∧ w = true) ∨ (i = .pushf p ∧ w = false)) :
    exec i s = conclude s (do
      let t ← pushItem w (ssExn 0) s s.eflags
      pure (t.retire i)) := by
  rcases hi with ⟨rfl, rfl⟩ | ⟨rfl, rfl⟩
  · exact inProtectedMode_runs hs _
  · exact inProtectedMode_runs hs _

/-- What a push and the retirement leave: the item, ESP below it, EIP behind the instruction. -/
def pushedState (s : State) (i : Instr) (w : Bool) (v : Word) : State :=
  ((writeSlot s w (s.sregs.ss.desc.base + (s.regs.esp - BitVec.ofNat 32 (slotSize w))) v).setReg .esp
    (s.regs.esp - BitVec.ofNat 32 (slotSize w))).retire i

theorem exec_pushFlags_room {s : State} {p : List Prefix} {i : Instr} {w : Bool} (hs : s.Runs)
    (hi : (i = .pushfd p ∧ w = true) ∨ (i = .pushf p ∧ w = false))
    (hroom : RoomFor s.sregs.ss.desc s.regs.esp w 1) :
    exec i s = .next (pushedState s i w s.eflags) := by
  rw [exec_pushFlags hs hi, pushItem_slot ((roomFor_one _ _ _).1 hroom), ok_bind]
  rfl

theorem exec_pushFlags_no_room {s : State} {p : List Prefix} {i : Instr} {w : Bool} (hs : s.Runs)
    (hi : (i = .pushfd p ∧ w = true) ∨ (i = .pushf p ∧ w = false))
    (hroom : ¬ RoomFor s.sregs.ss.desc s.regs.esp w 1) :
    exec i s = takeException s ⟨12, 0⟩ s.eip := by
  rw [exec_pushFlags hs hi, pushItem_no_room hroom, error_bind, conclude_raise]
  rfl

/-- A push writes memory and ESP only. -/
theorem pushedState_fields (s : State) (i : Instr) (w : Bool) (v : Word) :
    ∃ m, pushedState s i w v =
      ({ s with mem := m }.setReg .esp (s.regs.esp - BitVec.ofNat 32 (slotSize w))).retire i := by
  obtain ⟨m, hm⟩ := writeSlot_fields s w
    (s.sregs.ss.desc.base + (s.regs.esp - BitVec.ofNat 32 (slotSize w))) v
  exact ⟨m, by rw [pushedState, hm]⟩

theorem readSlot_pushedState (s : State) (i : Instr) (w : Bool) (v : Word) :
    readSlot (pushedState s i w v) w
      (s.sregs.ss.desc.base + (s.regs.esp - BitVec.ofNat 32 (slotSize w))) = slotValue w v :=
  readSlot_writeSlot s w _ v

theorem pushedState_memory (s : State) (i : Instr) (w : Bool) (v : Word) :
    SameMemoryOutside s (pushedState s i w v)
      (s.sregs.ss.desc.base + (s.regs.esp - BitVec.ofNat 32 (slotSize w))) (slotSize w) :=
  fun x hx => byteAt_writeSlot_outside s w _ v x hx

/-- Settles O32, for both sizes at once: with room the item is stored and ESP moved, without it the
push raises #SS(0). -/
theorem pushFlagsStoresEflags : Obligations.PushFlagsStoresEflags := by
  intro s p hs i w hi
  refine ⟨fun hroom => ?_, exec_pushFlags_no_room hs hi⟩
  have hitem := readSlot_pushedState s i w s.eflags
  have hmem := pushedState_memory s i w s.eflags
  rw [exec_pushFlags_room hs hi hroom]
  obtain ⟨m, hfields⟩ := pushedState_fields s i w s.eflags
  rw [hfields] at hitem hmem ⊢
  exact ⟨_, rfl, completed_of_writes s _ _ _ _ _ _ _, hitem, rfl, hmem, sameRegsBut_of_set rfl, rfl,
    rfl, rfl, rfl, rfl⟩

/-! ### POPFD and POPF -/

/-- What a pop into EFLAGS and the retirement leave: ESP, the flags, EIP behind the instruction. -/
def poppedState (s : State) (i : Instr) (esp flags : Word) : State :=
  ((s.setReg .esp esp).setEflags flags).retire i

theorem exec_popfd {s : State} (hs : s.Runs) (h : StackReadable s true 1) (p : List Prefix) :
    exec (.popfd p) s = .next (poppedState s (.popfd p) (s.regs.esp + 4)
      (popfdFlags s.eflags (stackSlot s true 0) s.cpl)) := by
  refine (inProtectedMode_runs hs _).trans ?_
  rw [stackItem_top h, ok_bind]
  rfl

theorem exec_popf {s : State} (hs : s.Runs) (h : StackReadable s false 1) (p : List Prefix) :
    exec (.popf p) s = .next (poppedState s (.popf p) (s.regs.esp + 2)
      (popfFlags s.eflags ((stackSlot s false 0).extractLsb' 0 16) s.cpl)) := by
  refine (inProtectedMode_runs hs _).trans ?_
  rw [stackItem_top h, ok_bind]
  rfl

/-- A pop into EFLAGS completes and changes nothing but EFLAGS and ESP. -/
theorem poppedState_frame (s : State) (i : Instr) (esp flags : Word) :
    Completed s (poppedState s i esp flags) i ∧ SameRegsBut .esp s (poppedState s i esp flags) ∧
      SameMemory s (poppedState s i esp flags) ∧ WindowsClosed (poppedState s i esp flags) :=
  ⟨completed_of_writes s i _ _ _ _ _ _, sameRegsBut_of_set rfl, fun _ => rfl, rfl, rfl⟩

/-- Below bit 16 an item and its low half have the same bits. -/
theorem getLsbD_low_half (v : Word) {j : Nat} (hj : j < 16) :
    (v.extractLsb' 0 16).getLsbD j = v.getLsbD j := by
  simp [hj]

/-- Settles O33: each size reads its item and loads the flags R68 takes from it. -/
theorem popFlagsLoadsEflags : Obligations.PopFlagsLoadsEflags := by
  refine ⟨fun s p hs hread => ?_, fun s p hs hread => ?_⟩
  · obtain ⟨hdone, hregs, hmem, hwindows⟩ := poppedState_frame s (.popfd p) (s.regs.esp + 4)
      (popfdFlags s.eflags (stackSlot s true 0) s.cpl)
    exact ⟨_, exec_popfd hs hread p, hdone, flag_popfdFlags s.eflags (stackSlot s true 0) s.cpl, rfl,
      hregs, rfl, rfl, hmem, hwindows⟩
  · obtain ⟨hdone, hregs, hmem, hwindows⟩ := poppedState_frame s (.popf p) (s.regs.esp + 2)
      (popfFlags s.eflags ((stackSlot s false 0).extractLsb' 0 16) s.cpl)
    refine ⟨_, exec_popf hs hread p, hdone, fun j hj => ?_, rfl, hregs, rfl, rfl, hmem, hwindows⟩
    refine (flag_popfFlags s.eflags _ s.cpl j hj).trans ?_
    by_cases hhigh : 16 ≤ j
    · simp only [hhigh, if_true]
      rfl
    · rw [getLsbD_low_half _ (Nat.lt_of_not_le hhigh)]
      rfl

end Sys2Proof.Machine
end

section
/-! Support: the two accesses LIDT and SIDT make to their operand, one at EA and one at EA + 2, and what
a table register leaves in memory (42_idtr.md R69 to R71). -/

namespace Sys2Proof.Machine

/-! ### Access to an operand -/

section
variable {s : State} {p : List Prefix} {m : MemOperand}

/-- An access an operand's segment does not permit raises the exception of that segment. -/
theorem segLinear_operand_refused {off : Word} {n : Nat} {w : Bool}
    (h : ¬ OperandPermitted s p m off n w) :
    segLinear s (operandSegment p m) (s.effectiveAddress m + off) n w =
      .error (.raise (accessExn (operandSegment p m))) := by
  rw [OperandPermitted, Bool.not_eq_true] at h
  rw [segLinear, h, require_false, error_bind]

theorem loadSeg16_operand_refused {off : Word} (h : ¬ OperandPermitted s p m off 2 false) :
    loadSeg16 s (operandSegment p m) (s.effectiveAddress m + off) =
      .error (.raise (accessExn (operandSegment p m))) := by
  rw [loadSeg16, segLinear_operand_refused h, error_bind]

theorem loadSeg32_operand_refused {off : Word} (h : ¬ OperandPermitted s p m off 4 false) :
    loadSeg32 s (operandSegment p m) (s.effectiveAddress m + off) =
      .error (.raise (accessExn (operandSegment p m))) := by
  rw [loadSeg32, segLinear_operand_refused h, error_bind]

theorem storeSeg16_operand {off : Word} (h : OperandPermitted s p m off 2 true) (v : Half) :
    storeSeg16 s (operandSegment p m) (s.effectiveAddress m + off) v =
      .ok (s.write16 (operandLinear s p m + off) v) :=
  (storeSeg16_ok _ _ _ _ _).2 ⟨h, by rw [operandLinear, BitVec.add_assoc]⟩

/-- SIDT's second store: the first one leaves the segment registers, so the operand's address stands. -/
theorem storeSeg32_operand_of_write16 {off : Word} (h : OperandPermitted s p m off 4 true)
    (a : Word) (l : Half) (v : Word) :
    storeSeg32 (s.write16 a l) (operandSegment p m) (s.effectiveAddress m + off) v =
      .ok ((s.write16 a l).write32 (operandLinear s p m + off) v) := by
  have hseg : (s.write16 a l).getSreg (operandSegment p m) = s.getSreg (operandSegment p m) := by
    cases operandSegment p m <;> rfl
  exact (storeSeg32_ok _ _ _ _ _).2
    ⟨by rw [hseg]; exact h, by rw [hseg, operandLinear, BitVec.add_assoc]⟩

end

/-! ### A limit and a base in memory -/

/-- What storing a limit at an address and a base two bytes above leaves. -/
def storeTable (s : State) (a : Word) (r : TableRegister) : State :=
  (s.write16 a r.limit).write32 (a + 2) r.base

theorem storeTable_fields (s : State) (a : Word) (r : TableRegister) :
    ∃ mem, storeTable s a r = { s with mem := mem } := ⟨_, rfl⟩

/-- The base does not reach the two bytes of the limit, modulo 2^32 either. -/
theorem read16_storeTable (s : State) (a : Word) (r : TableRegister) :
    (storeTable s a r).read16 a = r.limit := by
  have hkept : (storeTable s a r).read16 a = (s.write16 a r.limit).read16 a :=
    read16_of_bytes fun k hk => byteAt_write32_outside _ _ _ _ (by bv_omega)
  rw [hkept, read16_write16]

theorem read32_storeTable (s : State) (a : Word) (r : TableRegister) :
    (storeTable s a r).read32 (a + 2) = r.base := read32_write32 _ _ _

/-- A limit and a base take six bytes. -/
theorem storeTable_memory (s : State) (a : Word) (r : TableRegister) :
    SameMemoryOutside s (storeTable s a r) a 6 := fun x hx =>
  (byteAt_write32_outside _ _ _ _ (by bv_omega)).trans (byteAt_write16_outside _ _ _ _ (by omega))

end Sys2Proof.Machine
end

section
/-! Settled: LIDT and SIDT (42_idtr.md R69 to R71). -/

namespace Sys2Proof.Machine

section
variable {s : State} {p : List Prefix} {m : MemOperand}

/-! ### LIDT -/

/-- Where the 16-bit operand size is in force, the base loaded is the low 24 bits (R70). -/
theorem idtrBase_of_opSize (h : Prefix.opSize ∈ p) (b : Word) :
    idtrBase p b = b &&& 0x00FFFFFF := if_pos (List.contains_iff_mem.2 h)

theorem idtrBase_of_not_opSize (h : Prefix.opSize ∉ p) (b : Word) :
    idtrBase p b = b := if_neg (mt List.contains_iff_mem.1 h)

/-- What LIDT does once its privilege is checked: two reads, and the load of IDTR. -/
def loadIdtr (s : State) (p : List Prefix) (m : MemOperand) : Except Stop State := do
  let limit ← loadSeg16 s (operandSegment p m) (s.effectiveAddress m + 0)
  let base ← loadSeg32 s (operandSegment p m) (s.effectiveAddress m + 2)
  pure ((s.retire (.lidt p m)).setIdtr limit (idtrBase p base))

/-- A load of IDTR leaves an instruction completed. -/
theorem Completed.setIdtr {t : State} {i : Instr} (h : Completed s t i) (limit : Half) (base : Word) :
    Completed s (t.setIdtr limit base) i where
  eip := h.eip
  deliveries := h.deliveries
  nmiBlocked := h.nmiBlocked
  system := { h.system with }

theorem loadIdtr_permitted (hlimit : OperandPermitted s p m 0 2 false)
    (hbase : OperandPermitted s p m 2 4 false) :
    loadIdtr s p m = .ok ((s.retire (.lidt p m)).setIdtr (s.read16 (operandLinear s p m))
      (idtrBase p (s.read32 (operandLinear s p m + 2)))) := by
  rw [loadIdtr, loadSeg16_operand hlimit, ok_bind, loadSeg32_operand hbase, ok_bind,
    show operandLinear s p m + 0 = operandLinear s p m from BitVec.add_zero _]
  rfl

/-- Whichever of the two reads is refused, the exception is the segment's. -/
theorem loadIdtr_refused
    (h : ¬(OperandPermitted s p m 0 2 false ∧ OperandPermitted s p m 2 4 false)) :
    loadIdtr s p m = .error (.raise (accessExn (operandSegment p m))) := by
  by_cases hlimit : OperandPermitted s p m 0 2 false
  · have hbase : ¬ OperandPermitted s p m 2 4 false := fun hb => h ⟨hlimit, hb⟩
    rw [loadIdtr, loadSeg16_operand hlimit, ok_bind, loadSeg32_operand_refused hbase, error_bind]
  · rw [loadIdtr, loadSeg16_operand_refused hlimit, error_bind]

variable (hs : s.Runs)
include hs

/-- LIDT is its check of CPL = 0 and then the load. -/
theorem exec_lidt : exec (.lidt p m) s = conclude s (do
    require (s.cpl == 0) (gpExn 0)
    loadIdtr s p m) := by
  refine (inProtectedMode_runs hs _).trans ?_
  rw [loadIdtr, show s.effectiveAddress m + 0 = s.effectiveAddress m from BitVec.add_zero _]

theorem exec_lidt_privileged (hcpl : s.cpl = 0) :
    exec (.lidt p m) s = conclude s (loadIdtr s p m) := by
  rw [exec_lidt hs, beq_iff_eq.2 hcpl, require_true, ok_bind]

theorem exec_lidt_unprivileged (hcpl : s.cpl ≠ 0) :
    exec (.lidt p m) s = takeException s ⟨13, 0⟩ s.eip := by
  rw [exec_lidt hs, beq_eq_false_iff_ne.2 hcpl, require_false, error_bind, conclude_raise]
  rfl

/-! ### SIDT -/

theorem exec_sidt_permitted (hlimit : OperandPermitted s p m 0 2 true)
    (hbase : OperandPermitted s p m 2 4 true) :
    exec (.sidt p m) s =
      .next ((storeTable s (operandLinear s p m) s.idtr).retire (.sidt p m)) := by
  have hstore := storeSeg16_operand hlimit s.idtr.limit
  rw [BitVec.ofNat_eq_ofNat, BitVec.add_zero, BitVec.add_zero] at hstore
  refine (inProtectedMode_runs hs _).trans ?_
  simp only [hstore, ok_bind, storeSeg32_operand_of_write16 hbase]
  rfl

end

/-- Settles O34: the check of CPL and the two reads decide between the three outcomes. -/
theorem lidtLoadsIdtr : Obligations.LidtLoadsIdtr := by
  intro s p m hs
  refine ⟨fun hcpl hlimit hbase => ?_, exec_lidt_unprivileged hs, fun hcpl hrefused => ?_⟩
  · rw [exec_lidt_privileged hs hcpl, loadIdtr_permitted hlimit hbase, conclude_ok]
    obtain ⟨hdone, hregs, hflags, hsregs, -, hmem, hwindows⟩ := retire_onlyCompleted s (.lidt p m)
    exact ⟨_, rfl, hdone.setIdtr _ _, rfl, fun h => idtrBase_of_not_opSize h _,
      fun h => idtrBase_of_opSize h _, hregs, hflags, hsregs, hmem, hwindows⟩
  · rw [exec_lidt_privileged hs hcpl, loadIdtr_refused hrefused, conclude_raise]
    rfl

/-- Settles O35: no check of CPL stands before the two stores, which leave all but memory. -/
theorem sidtStoresIdtr : Obligations.SidtStoresIdtr := by
  intro s p m hs hlimit hbase
  have hread16 := read16_storeTable s (operandLinear s p m) s.idtr
  have hread32 := read32_storeTable s (operandLinear s p m) s.idtr
  have hmem := storeTable_memory s (operandLinear s p m) s.idtr
  rw [exec_sidt_permitted hs hlimit hbase]
  obtain ⟨mem, hfields⟩ := storeTable_fields s (operandLinear s p m) s.idtr
  rw [hfields] at hread16 hread32 hmem ⊢
  exact ⟨_, rfl, completed_of_writes s _ _ _ _ _ _ _, hread16, hread32, hmem, getReg_congr rfl, rfl,
    rfl, rfl, rfl, rfl⟩

end Sys2Proof.Machine
end

section
/-! Support: the items and the checks of a return from a handler, and the exceptions they raise in terms
of Safety (43_iret.md R72, R80). -/

namespace Sys2Proof.Machine

/-- A state with NMIs unblocked, which every IRET begins with (R76). -/
abbrev State.nmisUnblocked (s : State) : State := { s with nmiBlocked := false }

/-! ### The items on the stack -/

/-- An item the stack segment does not permit to be read raises #SS(0) (log 6). -/
theorem stackItem_refused {s : State} {w : Bool} {k : Nat}
    (h : ¬ s.sregs.ss.desc.permits (slotAt s.regs.esp w k) (slotSize w) false = true) :
    stackItem w s (slotAt s.regs.esp w k) = .error (.raise (ssExn 0)) := by
  rw [Bool.not_eq_true] at h
  rw [stackItem, show (if w then 4 else 2) = slotSize w from rfl, stackLinear, h, require_false,
    error_bind, error_bind]

theorem stackReadable_succ (s : State) (w : Bool) (n : Nat) :
    StackReadable s w (n + 1) ↔ StackReadable s w n ∧
      s.sregs.ss.desc.permits (slotAt s.regs.esp w n) (slotSize w) false = true :=
  Nat.forall_lt_succ_right

/-- The first three items in the order an IRET reads them, at the offsets of Safety (R73). -/
theorem returnItems_eq (s : State) (w : Bool) :
    returnItems s w = (do
      let eip ← stackItem w s (slotAt s.regs.esp w 0)
      let cs ← stackItem w s (slotAt s.regs.esp w 1)
      let img ← stackItem w s (slotAt s.regs.esp w 2)
      pure (eip, cs.extractLsb' 0 16,
        if w then img else lowHalfImage s.eflags (img.extractLsb' 0 16))) := by
  have hone : slotAt s.regs.esp w 1 = s.regs.esp + itemSize w := by cases w <;> rfl
  rw [slotAt_zero, hone, ← item_off w 2 _ (by decide)]
  rfl

/-- Whichever of the three items cannot be read, the exception is #SS(0). -/
theorem returnItems_refused {s : State} {w : Bool} (h : ¬ StackReadable s w 3) :
    returnItems s w = .error (.raise (ssExn 0)) := by
  rw [returnItems_eq]
  by_cases h1 : StackReadable s w 1
  · rw [stackItem_slot h1 Nat.zero_lt_one, ok_bind]
    by_cases h2 : StackReadable s w 2
    · rw [stackItem_slot h2 (by decide), ok_bind,
        stackItem_refused fun hp => h ((stackReadable_succ s w 2).2 ⟨h2, hp⟩), error_bind]
    · rw [stackItem_refused fun hp => h2 ((stackReadable_succ s w 1).2 ⟨h1, hp⟩), error_bind]
  · rw [stackItem_refused fun hp => h1 ((stackReadable_succ s w 0).2 ⟨nofun, hp⟩), error_bind]

/-- What the three items are, where they can be read at all. -/
theorem returnItems_ok {s : State} {w : Bool} {x : Word × Half × Word}
    (h : returnItems s w = .ok x) : x = (stackSlot s w 0, poppedCs s w, poppedFlags s w) := by
  by_cases hread : StackReadable s w 3
  · exact Except.ok.inj (h.symm.trans (returnItems_slot hread))
  · rw [returnItems_refused hread] at h
    cases h

/-! ### The faults of SS:ESP -/

theorem mem_stackSegmentFaults (s : State) (sel : Half) (level : BitVec 2) (e : Exn) :
    e ∈ stackSegmentFaults s sel level ↔ StackSelectorFault s sel level e := by
  have hcode : selCode sel 0 = (sel &&& 0xFFFC).setWidth 32 := BitVec.add_zero _
  unfold stackSegmentFaults StackSelectorFault
  rw [hcode]
  by_cases hnull : sel &&& 65532#16 = 0#16
  · rw [if_pos ((selIsNull_iff _).2 hnull)]
    simp [hnull, gpExn, gpVector]
  rw [if_neg (mt (selIsNull_iff _).1 hnull)]
  cases hd : s.readSegDescriptor sel with
  | none => simp [hnull, gpExn, gpVector]
  | some d =>
    simp [hnull, mem_failing, gpExn, gpVector, ssExn, ssVector, selRpl, or_assoc, imp_iff_not_or]

/-- The offsets of the items of SS:ESP are the items' (R75). -/
theorem outer_item_off (s : State) (w : Bool) :
    s.regs.esp + 3 * itemSize w = slotAt s.regs.esp w 3 ∧
      s.regs.esp + 4 * itemSize w = slotAt s.regs.esp w 4 :=
  ⟨item_off w 3 _ (by decide), item_off w 4 _ (by decide)⟩

theorem returnStackFaults_readable {s : State} {w : Bool} (h : StackReadable s w 5)
    (level : BitVec 2) :
    returnStackFaults s w level =
      stackSegmentFaults s ((stackSlot s w 4).extractLsb' 0 16) level := by
  obtain ⟨hesp, hss⟩ := outer_item_off s w
  simp only [returnStackFaults, hesp, hss, stackItem_slot h (k := 3) (by decide),
    stackItem_slot h (k := 4) (by decide)]

theorem returnStackFaults_refused {s : State} {w : Bool} (h3 : StackReadable s w 3)
    (h5 : ¬ StackReadable s w 5) (level : BitVec 2) : returnStackFaults s w level = [ssExn 0] := by
  obtain ⟨hesp, hss⟩ := outer_item_off s w
  rw [returnStackFaults, hesp, hss]
  split
  · next hitem3 hitem4 =>
    have h4 := (stackReadable_succ s w 3).2 ⟨h3, ((stackItem_ok _ _ _ _).1 hitem3).1⟩
    exact absurd ((stackReadable_succ s w 4).2 ⟨h4, ((stackItem_ok _ _ _ _).1 hitem4).1⟩) h5
  · rfl

/-- The faults of a return to an outer level, where the three items below SS:ESP can be read. -/
theorem mem_returnStackFaults {s : State} {w : Bool} (h3 : StackReadable s w 3) (e : Exn) :
    (s.cpl < selRpl (poppedCs s w) ∧ e ∈ returnStackFaults s w (selRpl (poppedCs s w))) ↔
      OuterReturnFault s w e := by
  have hrpl : selRpl (poppedCs s w) = (poppedCs s w).extractLsb' 0 2 := rfl
  rw [OuterReturnFault, ← hrpl]
  refine and_congr_right fun _ => ?_
  by_cases h5 : StackReadable s w 5
  · simp only [returnStackFaults_readable h5, mem_stackSegmentFaults, h5, not_true_eq_false, false_and,
      false_or, true_and]
  · rw [returnStackFaults_refused h3 h5, List.mem_singleton]
    simp only [h5, not_false_eq_true, true_and, false_and, or_false]
    rfl

/-! ### The faults of CS and EIP -/

theorem mem_returnCodeFaults (s : State) (sel : Half) (e : Exn) :
    e ∈ returnCodeFaults s sel ↔ CodeReturnFault s sel e := by
  have hcode : selCode sel 0 = (sel &&& 0xFFFC).setWidth 32 := BitVec.add_zero _
  have hrpl : sel.extractLsb' 0 2 = selRpl sel := rfl
  unfold returnCodeFaults CodeReturnFault
  rw [hcode]
  by_cases hnull : sel &&& 65532#16 = 0#16
  · rw [if_pos ((selIsNull_iff _).2 hnull)]
    simp [hnull, gpExn, gpVector]
  rw [if_neg (mt (selIsNull_iff _).1 hnull)]
  cases hd : s.readSegDescriptor sel with
  | none => simp [hnull, gpExn, gpVector]
  | some d =>
    cases hc : d.isConforming <;>
      simp [hnull, hc, mem_failing, gpExn, gpVector, npExn, npVector, hrpl, or_assoc, imp_iff_not_or]

theorem mem_returnEntryFaults (s : State) (w : Bool) (e : Exn) :
    e ∈ returnEntryFaults s (poppedCs s w) (stackSlot s w 0) ↔ EntryReturnFault s w e := by
  unfold returnEntryFaults EntryReturnFault
  cases s.readSegDescriptor (poppedCs s w) with
  | none => simp
  | some d => simp [mem_failing, gpExn, gpVector]

/-! ### All of them -/

/-- With a fault of CS, SS:ESP is not read (R72). -/
theorem mem_returnFaults_of_code {s : State} {w : Bool}
    (h : ∃ e, CodeReturnFault s (poppedCs s w) e) (e : Exn) :
    e ∈ returnFaults s w (stackSlot s w 0) (poppedCs s w) ↔
      CodeReturnFault s (poppedCs s w) e ∨ EntryReturnFault s w e := by
  rw [← mem_returnCodeFaults, ← mem_returnEntryFaults]
  obtain ⟨e', he⟩ := h
  rw [← mem_returnCodeFaults] at he
  unfold returnFaults
  cases hcode : returnCodeFaults s (poppedCs s w) with
  | nil => simp [hcode] at he
  | cons f l => exact List.mem_append

/-- Without one, the checks of EIP and of SS:ESP are left. -/
theorem mem_returnFaults_of_no_code {s : State} {w : Bool} (h3 : StackReadable s w 3)
    (h : ∀ e, ¬ CodeReturnFault s (poppedCs s w) e) (e : Exn) :
    e ∈ returnFaults s w (stackSlot s w 0) (poppedCs s w) ↔
      EntryReturnFault s w e ∨ OuterReturnFault s w e := by
  have hcode : returnCodeFaults s (poppedCs s w) = [] :=
    List.eq_nil_iff_forall_not_mem.2 fun f hf => h f ((mem_returnCodeFaults _ _ _).1 hf)
  rw [← mem_returnEntryFaults, ← mem_returnStackFaults h3]
  simp only [returnFaults, hcode, List.mem_append]
  refine or_congr_right ?_
  split
  · next hlt => exact (and_iff_right hlt).symm
  · next hlt => simp [hlt]

/-! ### What the checks make of a return -/

/-- The image of EFLAGS asks for virtual-8086 mode, at the level that may (D27). -/
theorem returns_virtual_iff (s : State) (w : Bool) :
    (w && flag (poppedFlags s w) vmBit && s.cpl == 0) = true ↔
      w = true ∧ s.cpl = 0 ∧ (stackSlot s w 2).getLsbD 17 = true := by
  cases w
  · simp
  · simp [poppedFlags, flag, vmBit, and_comm]

section
variable {s : State} {w : Bool}

theorem procedureReturn_refused (h : ¬ StackReadable s w 3) :
    procedureReturn s w = .error (.raise (ssExn 0)) := by
  rw [procedureReturn, returnItems_refused h, error_bind]

variable (h3 : StackReadable s w 3)
include h3

theorem procedureReturn_virtual
    (hvirtual : w = true ∧ s.cpl = 0 ∧ (stackSlot s w 2).getLsbD 17 = true) :
    procedureReturn s w = .error (.refuse .returnToVirtual8086) := by
  rw [procedureReturn, returnItems_slot h3, ok_bind]
  simp only [(returns_virtual_iff s w).2 hvirtual]
  rfl

/-- A return with faults raises one of them. -/
theorem procedureReturn_raises
    (hvirtual : ¬(w = true ∧ s.cpl = 0 ∧ (stackSlot s w 2).getLsbD 17 = true)) {e : Exn}
    (he : e ∈ returnFaults s w (stackSlot s w 0) (poppedCs s w)) :
    ∃ e ∈ returnFaults s w (stackSlot s w 0) (poppedCs s w),
      procedureReturn s w = .error (.raise e) := by
  obtain ⟨e', he', hraise⟩ := raiseAny_raises (n := s.deliveries) (List.ne_nil_of_mem he)
  have hscope := Bool.eq_false_iff.2 (mt (returns_virtual_iff s w).1 hvirtual)
  refine ⟨e', he', ?_⟩
  rw [procedureReturn, returnItems_slot h3, ok_bind]
  simp only [hscope, Bool.not_false, inScope_true, ok_bind]
  exact hraise ▸ rfl

end

end Sys2Proof.Machine
end

section
/-! Settled: the exceptions of an IRET with NT = 0 (43_iret.md R72, R76, R80). -/

namespace Sys2Proof.Machine

/-- An IRET with NT = 0 whose return raises an exception takes it at itself, with NMIs unblocked. -/
theorem exec_iret_raises {s : State} {i : Instr} {w : Bool} {e : Exn} (hr : s.Runs)
    (hnt : s.flagNT = false) (hi : iretSize i = some w)
    (h : procedureReturn s.nmisUnblocked w = .error (.raise e)) :
    exec i s = takeException s.nmisUnblocked e s.eip := by
  rw [exec_iret hr hnt hi, h, error_bind, conclude_raise]

/-- Settles O44: the checks of a return come in the order items, VM, CS, and then SS:ESP, with that of
EIP anywhere among the last two; NMIs are unblocked before the first of them. -/
theorem iretChecks : Obligations.IretChecks := by
  intro s i w hr hnt hi
  have raises (h3 : StackReadable s w 3) := procedureReturn_raises (s := s.nmisUnblocked) h3
  refine ⟨fun hitems => ?_, fun h3 hvirtual => ?_, fun h3 hvirtual ⟨e, he⟩ => ?_,
    fun h3 hvirtual hcode ⟨e, he⟩ => ?_⟩
  · exact exec_iret_raises hr hnt hi (procedureReturn_refused (s := s.nmisUnblocked) hitems)
  · rw [exec_iret hr hnt hi, procedureReturn_virtual (s := s.nmisUnblocked) h3 hvirtual, error_bind]
    rfl
  · have hmem := mem_returnFaults_of_code (s := s.nmisUnblocked) ⟨e, he⟩
    obtain ⟨f, hf, hraise⟩ := raises h3 hvirtual ((hmem e).2 (.inl he))
    exact ⟨f, (hmem f).1 hf, exec_iret_raises hr hnt hi hraise⟩
  · have hmem := mem_returnFaults_of_no_code (s := s.nmisUnblocked) h3 hcode
    obtain ⟨f, hf, hraise⟩ := raises h3 hvirtual ((hmem e).2 he)
    exact ⟨f, (hmem f).1 hf, exec_iret_raises hr hnt hi hraise⟩

end Sys2Proof.Machine
end

section
/-! Settled: IRET with NT = 0 to the same and to an outer level (43_iret.md R72, R73, R75, R76, R80). -/

namespace Sys2Proof.Machine

/-! ### What a return without a fault leaves -/

/-- A return has no fault exactly when its CS, its EIP and, to an outer level, its SS:ESP have none. -/
theorem returnFaults_nil (s : State) (w : Bool) (eip : Word) (sel : Half) :
    returnFaults s w eip sel = [] ↔
      returnCodeFaults s sel = [] ∧ returnEntryFaults s sel eip = [] ∧
        (s.cpl < selRpl sel → returnStackFaults s w (selRpl sel) = []) := by
  unfold returnFaults
  cases returnCodeFaults s sel <;> simp

/-- What an IRET with NT = 0 leaves: CS:EIP and EFLAGS from the stack, the ESP and the other segment
registers given, NMIs unblocked, the windows closed. -/
def returnedState (s : State) (w : Bool) (d : SegDescriptor) (esp : Word) (x : SegRegs) : State :=
  { s with
    regs := { s.regs with esp := esp }
    eip := restored w (stackSlot s w 0) (Config.freeEipHalf s.freeCount)
    eflags := mergeFlags s.eflags (poppedFlags s w) s.cpl
    sregs := { x with cs := ⟨poppedCs s w, d⟩ }
    nmiBlocked := false
    eventInhibit := false
    stiWindow := false
    freeCount := if w then s.freeCount else s.freeCount + 1 }

theorem returnedState_returned (s : State) (w : Bool) (d : SegDescriptor) (esp : Word) (x : SegRegs) :
    Returned s (returnedState s w d esp x) w d where
  eip := restored_low w _ _
  eipWide := by rintro rfl; rfl
  cs := rfl
  flags := mergeFlags_iretFlags _ _ _
  nmiBlocked := rfl
  windows := ⟨rfl, rfl⟩
  deliveries := rfl
  regs := sameRegsBut_of_set (v := esp) rfl
  idtr := rfl
  memory := fun _ => rfl
  system := ⟨rfl, rfl, rfl, rfl, rfl, rfl, rfl, rfl, rfl, rfl, rfl⟩

/-- An IRET whose CS:EIP passes its checks, and whose stack answers, completes. -/
theorem exec_iret_returns {s : State} {i : Instr} {w : Bool} {d : SegDescriptor} {esp : Word}
    {x : SegRegs} (hr : s.Runs) (hnt : s.flagNT = false) (hi : iretSize i = some w)
    (h3 : StackReadable s w 3) (hready : ReturnReady s w d)
    (hfaults : s.cpl < selRpl (poppedCs s w) → returnStackFaults s w (selRpl (poppedCs s w)) = [])
    (hstack : returnStack s.nmisUnblocked w (selRpl (poppedCs s w)) =
      .ok { s.nmisUnblocked with regs := { s.regs with esp := esp }, sregs := x }) :
    exec i s = .next (returnedState s w d esp x) := by
  obtain ⟨hcode, hentry⟩ := hready.segment
  have hreturn := (procedureReturn_ok s.nmisUnblocked _ w).2
    ⟨_, _, _, _, returnItems_slot (s := s.nmisUnblocked) h3, hready.notVirtual,
      (returnFaults_nil _ _ _ _).2 ⟨hcode, hentry, hfaults⟩, hstack, rfl⟩
  have hcs : s.nmisUnblocked.loadedSegment ((stackSlot s.nmisUnblocked w 1).extractLsb' 0 16) =
      ⟨poppedCs s w, d⟩ := loadedSegment_some hready.descriptor
  rw [exec_iret hr hnt hi, hreturn, ok_bind, hcs]
  rfl

theorem returnStack_same {s : State} {level : BitVec 2} (h : ¬ s.cpl < level) (w : Bool) :
    returnStack s w level =
      .ok { s with regs := { s.regs with esp := s.regs.esp + 3 * itemSize w } } := if_neg h

/-- Settles O41: the stack of a return to the same level is ESP above the three items. -/
theorem iretSameLevel : Obligations.IretSameLevel := by
  intro s i w d hr hnt hi h3 hready hlevel
  have hrpl : selRpl (poppedCs s w) = s.cpl := (rpl_low s w 1).trans hlevel
  have hinner : ¬ s.cpl < selRpl (poppedCs s w) := by rw [hrpl]; exact BitVec.lt_irrefl _
  have hstack := returnStack_same (s := s.nmisUnblocked) hinner w
  exact ⟨_, exec_iret_returns hr hnt hi h3 hready (fun h => absurd h hinner) hstack,
    returnedState_returned _ _ _ _ _, item_off w 3 s.regs.esp (by decide), rfl⟩

/-! ### To an outer level -/

/-- The segment registers of a return to an outer level, CS apart: SS from the stack, and the data
segments not more privileged than the level (R80). -/
def outerSegments (s : State) (ss : SegRegister) (level : BitVec 2) : SegRegs where
  es := dropPrivileged level s.sregs.es
  cs := s.sregs.cs
  ss := ss
  ds := dropPrivileged level s.sregs.ds
  fs := dropPrivileged level s.sregs.fs
  gs := dropPrivileged level s.sregs.gs

theorem returnStack_outer {s : State} {w : Bool} {level : BitVec 2} (h : StackReadable s w 5)
    (hlevel : s.cpl < level) :
    returnStack s w level = .ok { s with
      regs := { s.regs with esp := restored w (stackSlot s w 3) (Config.freeEspHalf s.freeCount) }
      sregs := outerSegments s (s.loadedSegment ((stackSlot s w 4).extractLsb' 0 16)) level } := by
  obtain ⟨hesp, hss⟩ := outer_item_off s w
  rw [returnStack, if_pos hlevel, leaveToOuter, hesp, hss, stackItem_slot h (by decide), ok_bind,
    stackItem_slot h (by decide), ok_bind]
  rfl

/-- A segment more privileged than a level is dropped, any other kept (R80). -/
theorem dropPrivileged_returned (level : BitVec 2) (r : SegRegister) :
    DataSegmentReturned level r (dropPrivileged level r) := by
  unfold DataSegmentReturned dropPrivileged
  by_cases h : r.desc.present = true ∧ r.desc.dpl < level
  · simp [h, nullSegment]
  · simp [h]

/-- Settles O42: SS:ESP are the two items above, and the other segment registers what R80 leaves. -/
theorem iretOuterLevel : Obligations.IretOuterLevel := by
  intro s i w d ds hr hnt hi h5 hready hlevel hnull hds hrplSs hwritable hdpl hpresent
  have hrpl : selRpl (poppedCs s w) = (stackSlot s w 1).extractLsb' 0 2 := rpl_low s w 1
  rw [← hrpl] at hlevel hrplSs hdpl
  have h3 : StackReadable s w 3 := fun k hk => h5 k (by omega)
  have hfaults : returnStackFaults s w (selRpl (poppedCs s w)) = [] := by
    rw [returnStackFaults_readable h5, stackSegmentFaults_nil]
    exact ⟨selIsNull_false hnull, ds, hds, (rpl_low s w 4).trans hrplSs, hwritable, hdpl, hpresent⟩
  have hstack := returnStack_outer (s := s.nmisUnblocked) h5 hlevel
  refine ⟨_, exec_iret_returns hr hnt hi h3 hready (fun _ => hfaults) hstack,
    returnedState_returned _ _ _ _ _, loadedSegment_some hds, restored_low w _ _, ?_,
    dropPrivileged_returned _ _, dropPrivileged_returned _ _, dropPrivileged_returned _ _,
    dropPrivileged_returned _ _⟩
  rintro rfl
  rfl

end Sys2Proof.Machine
end

section
/-! Settled: the flags an IRET restores (43_iret.md R74). An IRET that ends without an exception made the
return NT asks for. -/

namespace Sys2Proof.Machine

/-- Both forms return from the handler, with the address behind them for a task return. -/
theorem exec_iret_eq {i : Instr} {w : Bool} (hi : iretSize i = some w) (s : State) :
    exec i s = returnFromHandler s w (eipNext s i) := by
  cases i with
  | iretd p => obtain rfl := Option.some.inj hi; rfl
  | iret p => obtain rfl := Option.some.inj hi; rfl
  | _ => cases hi

/-- Taking an exception delivers something or shuts the processor down. -/
theorem takeException_moves {s t : State} {e : Exn} {ret : Word}
    (h : takeException s e ret = .next t) (hd : t.deliveries = s.deliveries) : t.shutdown = true :=
  (takeException_taken h).1.moved.resolve_left (by omega)

/-- An IRET that ends neither in a delivery nor in a shutdown is the return NT asks for (R72, R79). -/
theorem iret_returned {s t : State} {i : Instr} {w : Bool} (hi : iretSize i = some w)
    (h : exec i s = .next t) (hrun : t.shutdown = false) (hd : t.deliveries = s.deliveries) :
    ∃ u, (if s.flagNT then taskReturn s.nmisUnblocked (eipNext s i)
        else procedureReturn s.nmisUnblocked w) = .ok u ∧ t = u.settle := by
  have noException : ∀ {e ret}, takeException s.nmisUnblocked e ret ≠ .next t := fun hx =>
    Bool.noConfusion (hrun.symm.trans (takeException_moves hx hd))
  rw [exec_iret_eq hi, returnFromHandler] at h
  split at h
  · cases h
  split at h
  · split at h
    · exact absurd h noException
    · cases h
  unfold conclude at h
  split at h
  · next v hv =>
    obtain rfl : v = t := Host.Outcome.next.inj h
    split at hv
    all_goals
      next hnt =>
        obtain ⟨u, hu, hsettle⟩ := (bind_ok _ _ _).1 hv
        exact ⟨u, by simpa [hnt] using hu, (pure_ok _ _).1 hsettle⟩
  · exact absurd h noException
  · cases h

/-- Settles O43: the flags of a completed procedure return are MergeFlags of the popped image. -/
theorem iretRestoresFlags : Obligations.IretRestoresFlags := by
  intro s t i w hi hnt _ h hrun hd
  obtain ⟨u, hu, rfl⟩ := iret_returned hi h hrun hd
  rw [hnt, if_neg Bool.false_ne_true] at hu
  obtain ⟨item, sel, img, v, hitems, -, -, -, rfl⟩ := (procedureReturn_ok _ _ _).1 hu
  obtain ⟨-, -, rfl⟩ := returnItems_ok hitems
  exact mergeFlags_iretFlags _ _ _

end Sys2Proof.Machine
end

section
/-! Settled: IRET with NT = 1, the return to the task of the previous task link (43_iret.md R79). -/

namespace Sys2Proof.Machine

/-! ### The task that returns -/

/-- The byte with the busy mark of the task `s` runs, where TR's selector names a descriptor. -/
def BusyMark (s : State) (x : Word) : Prop := ∃ a, s.descriptorAddr s.tr.sel = some a ∧ x = a + 5

/-- The current task, saved with NT clear (log 5). -/
def savedForReturn (s : State) (ret : Word) : State :=
  saveTask s (setFlag s.eflags ntBit false) s.sregs.cs.sel ret

/-- Releasing a task stores its context and clears its busy mark, and nothing else. -/
theorem byteAt_releaseTask_of_not_busyMark {s : State} {x : Word} (h : ¬ BusyMark s x) (ret : Word) :
    (releaseTask s ret).byteAt x = (savedForReturn s ret).byteAt x := by
  unfold releaseTask
  cases ha : s.descriptorAddr s.tr.sel with
  | none => rfl
  | some a => exact (byteAt_setByte _ _ _ _).trans (if_neg fun hx => h ⟨a, ha, hx⟩)

theorem byteAt_releaseTask_of_busyMark {s : State} {x : Word} (h : BusyMark s x) (ret : Word) :
    ((releaseTask s ret).byteAt x).getLsbD 1 = false := by
  obtain ⟨a, ha, rfl⟩ := h
  simp [releaseTask, ha, markBusy, byteAt_setByte]

/-- Releasing a task does not look at the NMI block. -/
theorem releaseTask_nmisUnblocked (s : State) (ret : Word) :
    releaseTask s.nmisUnblocked ret = (releaseTask s ret).nmisUnblocked := by
  unfold releaseTask
  rw [show s.nmisUnblocked.descriptorAddr s.nmisUnblocked.tr.sel = s.descriptorAddr s.tr.sel from rfl]
  cases s.descriptorAddr s.tr.sel <;> rfl

/-- A memory with the current task released holds that task's context, is otherwise as before, and has
its TSS not busy. -/
theorem released_of_mem {s t : State} {ret : Word} (h : t.mem = (releaseTask s ret).mem) :
    TaskSaved s t (setFlag s.eflags ntBit false) s.sregs.cs.sel ret (BusyMark s) ∧
      SameMemoryBut s t (BusyMark s) ∧ ∀ x, BusyMark s x → (t.byteAt x).getLsbD 1 = false := by
  have hsaved : ∀ x, ¬ BusyMark s x → t.byteAt x = (savedForReturn s ret).byteAt x := fun x hx =>
    (byteAt_congr h x).trans (byteAt_releaseTask_of_not_busyMark hx ret)
  refine ⟨(saveTask_saved s _ _ ret).keep hsaved, fun x hout hx => ?_, fun x hx => ?_⟩
  · exact (hsaved x hx).trans (saveTask_outside s _ _ ret x hout)
  · rw [byteAt_congr h]
    exact byteAt_releaseTask_of_busyMark hx ret

/-! ### The task returned to -/

/-- A task return without a fault: the link's TSS is busy, and its context is in order. -/
theorem returnTaskFaults_nil {s : State} {ret a : Word} {d : SegDescriptor}
    (h : returnTaskFaults s ret = []) (hs : s.tr.desc.isTss32 = true)
    (ha : s.tssAddr (taskLink s) = some a) (hd : d = decodeSegDescriptor (s.read64 a))
    (hd32 : d.isTss32 = true) :
    d.kind = .tss32 true ∧ contextFaults (returnedTo s d ret) 0 = [] := by
  subst hd
  rw [returnTaskFaults] at h
  split at h
  · next hshort =>
    have hfault := (mem_currentTssFaults s 0 _).2 ⟨(isTss32_iff _).1 hs, by omega, rfl⟩
    rw [h] at hfault
    exact absurd hfault List.not_mem_nil
  · simp only [ha] at h
    obtain ⟨hkind, -, -, -, hcontext⟩ := switchFaults_nil h hd32 hs
    exact ⟨hkind, hcontext⟩

/-- What a task return that answers leaves (R79). -/
theorem taskReturn_returned {s t : State} {ret : Word} (h : taskReturn s ret = .ok t) :
    t.tr.sel = taskLink s ∧ s.readSegDescriptor (taskLink s) = some t.tr.desc ∧
      t.tr.desc.kind = .tss32 true ∧ TaskLoaded t t t.tr.desc.base ∧
      t.regs.esp = t.read32 (t.tr.desc.base + 56) ∧ t.eflags = taskFlags t ∧
      t.mem = (releaseTask s ret).mem := by
  obtain ⟨hs, hfaults, a, d, ha, hd, hd32, hload⟩ := (taskReturn_ok _ _ _).1 h
  obtain ⟨hkind, hcontext⟩ := returnTaskFaults_nil hfaults hs ha hd hd32
  obtain ⟨hloaded, hesp⟩ := loadTask_loaded hload hcontext
  obtain ⟨-, rfl⟩ := (loadTask_ok _ _ _).1 hload
  have hread : s.readSegDescriptor (taskLink s) = some d := by
    rw [State.readSegDescriptor, ((tssAddr_some _ _ _).1 ha).2, hd]
    rfl
  exact ⟨rfl, hread, hkind, hloaded, hesp, rfl, rfl⟩

/-- The windows are no part of a task's context. -/
theorem TaskLoaded.settle {t : State} {b : Word} (h : TaskLoaded t t b) :
    TaskLoaded t.settle t.settle b := { h with }

theorem flagNT_taskFlags (s : State) :
    flag (taskFlags s) ntBit = (s.read32 (s.tr.desc.base + 36)).getLsbD 14 := by
  rw [taskFlags, flag_fixReserved]
  simp [flag, ntBit, definedFlags]

theorem Carried.sameButTask {s t : State} (h : Carried s t) : SameButTask s t := { h with }

theorem taskLink_eq (s : State) : taskLink s = s.read16 s.tr.desc.base := by
  rw [taskLink, show s.tr.desc.base + tssLink = s.tr.desc.base from BitVec.add_zero _]

/-- Settles O51: an IRET with NT = 1 that makes no delivery is the task return, which releases the
current task and loads that of the link. -/
theorem taskReturnFollowsLink : Obligations.TaskReturnFollowsLink := by
  intro s t i hi hnt _ h hrun hd
  obtain ⟨w, hw⟩ := Option.isSome_iff_exists.1 hi
  obtain ⟨u, hu, rfl⟩ := iret_returned hw h hrun hd
  rw [hnt, if_pos rfl] at hu
  have hcarried := taskReturn_carried hu
  obtain ⟨hsel, hread, hkind, hloaded, hesp, hflags, hmem⟩ := taskReturn_returned hu
  rw [taskLink_eq] at hsel hread
  rw [releaseTask_nmisUnblocked] at hmem
  have hflagNT : u.settle.flagNT = flag (taskFlags u) ntBit := congrArg (flag · ntBit) hflags
  exact ⟨hsel, hread, hkind, hcarried.nmiBlocked, ⟨rfl, rfl⟩, { hcarried.sameButTask with },
    hloaded.settle, hesp, hflagNT.trans (flagNT_taskFlags u), released_of_mem hmem⟩

end Sys2Proof.Machine
end

section
/-! Support: what an instruction does that loads SS after it has read its operand, and what it leaves
(44_stack_segment_loads.md R82 to R84). -/

namespace Sys2Proof.Machine

/-! ### LoadSS -/

/-- A selector that passes the checks of R82 is loaded with its descriptor. -/
theorem loadSS_of_ok {s : State} {sel : Half} {d : SegDescriptor} (h : StackSelectorOk s sel d) :
    loadSS s sel = .ok ⟨sel, d⟩ :=
  (loadSS_ok _ _ _).2 ⟨Bool.eq_false_iff.2 (mt (selIsNull_iff sel).1 h.notNull), d, h.descriptor, h.rpl,
    h.writable, h.dpl, h.present, rfl⟩

/-- A selector that has faults makes LoadSS raise one of them. -/
theorem loadSS_of_fault {s : State} {sel : Half} (h : ∃ e, StackSelectorFault s sel s.cpl e) :
    ∃ e, StackSelectorFault s sel s.cpl e ∧ loadSS s sel = .error (.raise e) := by
  obtain ⟨e, he⟩ := h
  have hfaults := List.ne_nil_of_mem ((mem_stackSegmentFaults s sel s.cpl e).2 he)
  obtain ⟨e', hmem, hraise⟩ := loadSS_raises hfaults
  exact ⟨e', (mem_stackSegmentFaults s sel s.cpl e').1 hmem, hraise⟩

/-- What MOV SS, POP SS and LSS do once their operand is read: LoadSS of the selector, and the end of
the instruction, which has the loaded register to store. -/
def loadSSThen (s : State) (sel : Half) (finish : SegRegister → State) : Except Stop State := do
  let r ← loadSS s sel
  pure (finish r)

/-- An instruction that ends so completes with a selector that LoadSS accepts, and raises an exception
of the selector at the instruction otherwise. -/
theorem loadSSThen_outcome {s : State} {i : Instr} {sel : Half} {finish : SegRegister → State}
    (h : exec i s = conclude s (loadSSThen s sel finish)) :
    (∀ d, StackSelectorOk s sel d → exec i s = .next (finish ⟨sel, d⟩)) ∧
    ((∃ e, StackSelectorFault s sel s.cpl e) →
      ∃ e, StackSelectorFault s sel s.cpl e ∧ exec i s = takeException s e s.eip) := by
  refine ⟨fun d hok => ?_, fun hfault => ?_⟩
  · rw [h, loadSSThen, loadSS_of_ok hok, ok_bind]
    rfl
  · obtain ⟨e, he, hraise⟩ := loadSS_of_fault hfault
    exact ⟨e, he, by rw [h, loadSSThen, hraise, error_bind, conclude_raise]⟩

/-! ### What a load of SS leaves -/

/-- Advancing EIP, storing SS and moving general registers completes an instruction, whether it starts
an inhibition or not. -/
theorem completed_of_ssLoad (s : State) (i : Instr) (r : SegRegister) (regs : Gprs) (inhibit : Bool)
    (n : Nat) :
    Completed s
      { (s.retire i).setSS r with regs := regs, eventInhibit := inhibit, freeCount := n } i :=
  ⟨rfl, rfl, rfl, ⟨rfl, rfl, rfl, rfl, rfl, rfl, rfl, rfl, rfl, rfl, rfl⟩⟩

/-- The start of an inhibition writes the inhibition and the count of free values; without an
inhibition in force it is certain. -/
theorem startInhibit_cases (s : State) (was : Bool) :
    ∃ inhibit n, startInhibit s was = { s with eventInhibit := inhibit, freeCount := n } ∧
      (was = false → inhibit = true) := by
  cases was
  · exact ⟨true, s.freeCount, rfl, fun _ => rfl⟩
  · exact ⟨_, _, rfl, nofun⟩

end Sys2Proof.Machine
end

section
/-! Settled: MOV SS, POP SS and LSS (44_stack_segment_loads.md R82 to R84). -/

namespace Sys2Proof.Machine

section
variable {s : State} {p : List Prefix}

/-! ### MOV SS and POP SS -/

/-- The end of MOV SS and POP SS: EIP, SS, the general registers and the inhibition. -/
def inhibitingLoad (s : State) (i : Instr) (regs : Gprs) (r : SegRegister) : State :=
  startInhibit { (s.retire i).setSS r with regs := regs } s.eventInhibit

theorem inhibitingLoad_fields (s : State) (i : Instr) (regs : Gprs) (r : SegRegister) :
    ∃ inhibit n, inhibitingLoad s i regs r =
        { (s.retire i).setSS r with regs := regs, eventInhibit := inhibit, freeCount := n } ∧
      (s.eventInhibit = false → inhibit = true) :=
  startInhibit_cases { (s.retire i).setSS r with regs := regs } s.eventInhibit

/-- MOV SS reads its source from a register, or from an operand that may be read (R82). -/
theorem loadRM16_source {src : RM16} {sel : Half} (h : SourceIs s p src sel) :
    loadRM16 s p src = .ok sel := by
  cases src with
  | reg r => exact congrArg Except.ok (Eq.symm h)
  | mem m =>
    obtain ⟨hperm, rfl⟩ := h
    have hread := loadSeg16_operand hperm
    rwa [BitVec.ofNat_eq_ofNat, BitVec.add_zero, BitVec.add_zero] at hread

theorem exec_movSS {src : RM16} {sel : Half} (hs : s.Runs) (hsrc : SourceIs s p src sel) :
    exec (.movSS p src) s =
      conclude s (loadSSThen s sel (inhibitingLoad s (.movSS p src) s.regs)) := by
  refine (inProtectedMode_runs hs _).trans ?_
  rw [loadRM16_source hsrc, ok_bind]
  rfl

/-- 66H narrows the item POP SS pops (R83). -/
theorem wide_eq_not_hasOpSize {wide : Bool} (h : wide = true ↔ Prefix.opSize ∉ p) :
    (!hasOpSize p) = wide := by
  rw [Bool.eq_iff_iff, h, hasOpSize, Bool.not_eq_true', ← Bool.not_eq_true, List.contains_iff_mem]

theorem exec_popSS {wide : Bool} (hs : s.Runs) (hwide : wide = true ↔ Prefix.opSize ∉ p)
    (hread : StackReadable s wide 1) :
    exec (.popSS p) s =
      conclude s (loadSSThen s ((stackSlot s wide 0).extractLsb' 0 16)
        (inhibitingLoad s (.popSS p) (s.regs.set .esp (s.regs.esp + itemSize wide)))) := by
  refine (inProtectedMode_runs hs _).trans ?_
  simp only [wide_eq_not_hasOpSize hwide, stackItem_top hread, ok_bind]
  rfl

/-! ### LSS -/

/-- The end of LSS: EIP, SS and the register of the pair. -/
def pairLoad (s : State) (i : Instr) (r : Reg) (v : Word) (ss : SegRegister) : State :=
  ((s.retire i).setSS ss).setReg r v

/-- A pair loaded leaves everything but EIP, SS and its register, and no window open. -/
theorem pairLoad_frame (s : State) (i : Instr) (r : Reg) (v : Word) (ss : SegRegister) :
    Completed s (pairLoad s i r v ss) i ∧ (pairLoad s i r v ss).getReg r = v ∧
      SameRegsBut r s (pairLoad s i r v ss) ∧ WindowsClosed (pairLoad s i r v ss) :=
  ⟨completed_of_ssLoad s i ss _ _ _, (getReg_setReg _ r r v).trans (if_pos rfl),
    sameRegsBut_of_set rfl, rfl, rfl⟩

/-- Without 66H the offset has 32 bits, and the selector stands at EA + 4 (R84). -/
theorem exec_lss32 {m : MemOperand} (hs : s.Runs) (hp : Prefix.opSize ∉ p)
    (hoff : OperandPermitted s p m 0 4 false) (hsel : OperandPermitted s p m 4 2 false) (r : Reg) :
    exec (.lss p r m) s = conclude s (loadSSThen s (s.read16 (operandLinear s p m + 4))
      (pairLoad s (.lss p r m) r (s.read32 (operandLinear s p m)))) := by
  have hread := loadSeg32_operand hoff
  rw [BitVec.ofNat_eq_ofNat, BitVec.add_zero, BitVec.add_zero] at hread
  refine (inProtectedMode_runs hs _).trans (congrArg (conclude s) ?_)
  refine (if_neg (mt List.contains_iff_mem.1 hp)).trans ?_
  rw [hread, ok_bind, loadSeg16_operand hsel, ok_bind]
  rfl

/-- With 66H the offset has 16 bits, and the selector stands at EA + 2 (R51, log 21). -/
theorem exec_lss16 {m : MemOperand} (hs : s.Runs) (hp : Prefix.opSize ∈ p)
    (hoff : OperandPermitted s p m 0 2 false) (hsel : OperandPermitted s p m 2 2 false) (r : Reg) :
    exec (.lss p r m) s = conclude s (loadSSThen s (s.read16 (operandLinear s p m + 2))
      (pairLoad s (.lss p r m) r
        (lowHalfReplaced (s.getReg r) (s.read16 (operandLinear s p m))))) := by
  have hread := loadSeg16_operand hoff
  rw [BitVec.ofNat_eq_ofNat, BitVec.add_zero, BitVec.add_zero] at hread
  refine (inProtectedMode_runs hs _).trans (congrArg (conclude s) ?_)
  refine (if_pos (List.contains_iff_mem.2 hp)).trans ?_
  rw [hread, ok_bind, loadSeg16_operand hsel, ok_bind]
  rfl

theorem lowHalfReplaced_low (w : Word) (h : Half) : (lowHalfReplaced w h).extractLsb' 0 16 = h :=
  BitVec.extractLsb'_append_eq_right

theorem lowHalfReplaced_high (w : Word) (h : Half) :
    (lowHalfReplaced w h).extractLsb' 16 16 = w.extractLsb' 16 16 :=
  BitVec.extractLsb'_append_eq_left

end

/-- Settles O36: MOV SS moves no general register, so its end writes SS and the inhibition. -/
theorem movSSLoadsSS : Obligations.MovSSLoadsSS := by
  intro s p src sel d hs hsrc hok
  rw [(loadSSThen_outcome (exec_movSS hs hsrc)).1 d hok]
  obtain ⟨inhibit, n, hfields, hstart⟩ := inhibitingLoad_fields s (.movSS p src) s.regs ⟨sel, d⟩
  rw [hfields]
  exact ⟨_, rfl, completed_of_ssLoad s _ _ _ _ _, rfl, rfl, hstart, rfl, getReg_congr rfl, rfl, rfl,
    fun _ => rfl⟩

/-- Settles O37: the item is read through the old SS before SS and ESP are written. -/
theorem popSSLoadsSS : Obligations.PopSSLoadsSS := by
  intro s p wide d hs hwide hread hok
  rw [(loadSSThen_outcome (exec_popSS hs hwide hread)).1 d hok]
  obtain ⟨inhibit, n, hfields, hstart⟩ := inhibitingLoad_fields s (.popSS p)
    (s.regs.set .esp (s.regs.esp + itemSize wide)) ⟨(stackSlot s wide 0).extractLsb' 0 16, d⟩
  have hsize : itemSize wide = BitVec.ofNat 32 (slotSize wide) := by cases wide <;> rfl
  rw [hfields, ← hsize]
  exact ⟨_, rfl, completed_of_ssLoad s _ _ _ _ _, rfl, rfl, rfl, sameRegsBut_of_set rfl, hstart, rfl,
    rfl, rfl, fun _ => rfl⟩

/-- Settles O38: both sizes store SS and one register, and differ in the register's value. -/
theorem lssLoadsPair : Obligations.LssLoadsPair := by
  intro s p r m d hs
  refine ⟨fun hp hoff hsel hok => ?_, fun hp hoff hsel hok => ?_⟩
  · obtain ⟨hdone, hreg, hregs, hwindows⟩ := pairLoad_frame s (.lss p r m) r
      (s.read32 (operandLinear s p m)) ⟨s.read16 (operandLinear s p m + 4), d⟩
    exact ⟨_, (loadSSThen_outcome (exec_lss32 hs hp hoff hsel r)).1 d hok, hdone, rfl, rfl, hreg, hregs,
      rfl, rfl, fun _ => rfl, hwindows⟩
  · obtain ⟨hdone, hreg, hregs, hwindows⟩ := pairLoad_frame s (.lss p r m) r
      (lowHalfReplaced (s.getReg r) (s.read16 (operandLinear s p m)))
      ⟨s.read16 (operandLinear s p m + 2), d⟩
    refine ⟨_, (loadSSThen_outcome (exec_lss16 hs hp hoff hsel r)).1 d hok, hdone, rfl, rfl, ?_, ?_,
      hregs, rfl, rfl, fun _ => rfl, hwindows⟩
    · rw [hreg, lowHalfReplaced_low]
    · rw [hreg, lowHalfReplaced_high]

/-- Settles O39: in each of the four forms LoadSS comes before everything the instruction writes. -/
theorem stackSelectorFaults : Obligations.StackSelectorFaults := fun _ _ hs =>
  ⟨fun _ _ hsrc => (loadSSThen_outcome (exec_movSS hs hsrc)).2,
    fun _ hwide hread => (loadSSThen_outcome (exec_popSS hs hwide hread)).2,
    fun r _ hp hoff hsel => (loadSSThen_outcome (exec_lss32 hs hp hoff hsel r)).2,
    fun r _ hp hoff hsel => (loadSSThen_outcome (exec_lss16 hs hp hoff hsel r)).2⟩

end Sys2Proof.Machine
end

section
/-! Support: the checks on the handler's code segment that fail, in their order, and the exception a
delivery raises for each (60_exceptions.md R131, R136, R137, R146 step 7). -/

namespace Sys2Proof.Machine

/-! ### The gate -/

/-- DecodeGate answers none exactly for a segment descriptor and for a type that is no gate's (R131,
R134). -/
theorem decodeGate_eq_none {x : BitVec 64}
    (h : x.getLsbD 44 = true ∨ (x.extractLsb' 40 4 ≠ 5#4 ∧ x.extractLsb' 40 4 ≠ 14#4 ∧
      x.extractLsb' 40 4 ≠ 15#4 ∧ x.extractLsb' 40 4 ≠ 6#4 ∧ x.extractLsb' 40 4 ≠ 7#4)) :
    decodeGate x = none := by
  unfold decodeGate
  rcases h with hsegment | ⟨htask, hint32, htrap32, hint16, htrap16⟩
  · exact if_pos hsegment
  · simp only [BitVec.ofNat_eq_ofNat, htask, hint32, htrap32, hint16, htrap16, if_false, ite_self]

/-- An entry within the IDT that is no gate (R131). -/
theorem idtGate_no_gate {s : State} {v : Byte} (htable : 8 * v.toNat + 7 ≤ s.idtr.limit.toNat)
    (h : decodeGate (s.read64 (s.idtr.base + 8 * v.setWidth 32)) = none) (ext : Word) :
    idtGate s v ext = .error (.raise (gpExn (idtCode v ext))) := by
  have hentry : decodeGate (s.read64 (s.idtEntry v)) = none := h
  rw [idtGate, show s.idtHas v = true from decide_eq_true htable, require_true, ok_bind, hentry]
  rfl

theorem idtGate_of_gate {s : State} {v : Byte} {g : Gate}
    (htable : 8 * v.toNat + 7 ≤ s.idtr.limit.toNat)
    (h : decodeGate (s.read64 (s.idtr.base + 8 * v.setWidth 32)) = some g) (ext : Word) :
    idtGate s v ext = .ok g :=
  (idtGate_ok _ _ _ _).2 ⟨decide_eq_true htable, h⟩

/-- A gate that is not present, once its DPL has passed (R128). -/
theorem checkGate_absent {s : State} {g : Gate} {k : EventKind}
    (hlevel : k.soft = true → s.cpl ≤ g.dpl) (h : g.present = false) (v : Byte) :
    checkGate s g v k = .error (.raise (npExn (idtCode v k.ext))) := by
  have hcheck : (!k.soft || decide (s.cpl ≤ g.dpl)) = true := by
    cases hk : k.soft
    · rfl
    · exact decide_eq_true (hlevel hk)
  rw [checkGate, hcheck, require_true, ok_bind, h]
  rfl

/-! ### The handler's code segment -/

section
variable {s : State} {g : Gate} {d : SegDescriptor} (ext : Word)

theorem handlerSegment_null (h : g.sel &&& 0xFFFC = 0) :
    handlerSegment s g ext = .error (.raise (gpExn ext)) := by
  rw [handlerSegment, (selIsNull_iff g.sel).2 h]
  rfl

variable (hnull : g.sel &&& 0xFFFC ≠ 0)
include hnull

theorem handlerSegment_missing (h : s.readSegDescriptor g.sel = none) :
    handlerSegment s g ext = .error (.raise (gpExn (selCode g.sel ext))) := by
  rw [handlerSegment, selIsNull_false hnull, h]
  rfl

variable (hd : s.readSegDescriptor g.sel = some d)
include hd

theorem handlerSegment_not_code (h : d.isCode = false) :
    handlerSegment s g ext = .error (.raise (gpExn (selCode g.sel ext))) := by
  rw [handlerSegment, selIsNull_false hnull, hd, orRaise_some, ok_bind, h]
  rfl

variable (hcode : d.isCode = true)
include hcode

/-- The checks left once the descriptor is known to be a code segment's. -/
theorem handlerSegment_of_code :
    handlerSegment s g ext = (do
      require (decide (d.dpl ≤ s.cpl)) (gpExn (selCode g.sel ext))
      require d.present (npExn (selCode g.sel ext))
      require (d.inLimit g.offset 1) (gpExn 0)
      pure d) := by
  rw [handlerSegment, selIsNull_false hnull, hd, orRaise_some, ok_bind, hcode]
  rfl

theorem handlerSegment_level (h : s.cpl < d.dpl) :
    handlerSegment s g ext = .error (.raise (gpExn (selCode g.sel ext))) := by
  rw [handlerSegment_of_code ext hnull hd hcode, decide_eq_false (BitVec.not_le.2 h), require_false,
    error_bind]

variable (hlevel : d.dpl ≤ s.cpl)
include hlevel

theorem handlerSegment_absent (h : d.present = false) :
    handlerSegment s g ext = .error (.raise (npExn (selCode g.sel ext))) := by
  rw [handlerSegment_of_code ext hnull hd hcode, decide_eq_true hlevel, h]
  rfl

theorem handlerSegment_beyond (hpresent : d.present = true) (h : d.inLimit g.offset 1 = false) :
    handlerSegment s g ext = .error (.raise (gpExn 0)) := by
  rw [handlerSegment_of_code ext hnull hd hcode, decide_eq_true hlevel, hpresent, h]
  rfl

end

/-- What stops the check of the handler's segment stops the delivery, with nothing done. -/
theorem deliver_of_handlerSegment_error {s : State} {v : Byte} {k : EventKind} {g : Gate} {x : Stop}
    (hvm : s.flagVM = false) (hg : GateReady s v k g) (hkind : g.kind ≠ .task)
    (h : handlerSegment s g k.ext = .error x) (err : Option Word) (cs : Half) (ret : Word) :
    deliver s v k err cs ret = .error x := by
  obtain ⟨hgate, hcheck⟩ := hg.stages
  have hthrough : throughGate s g k.ext err cs ret = .error x := by
    rw [throughGate, h, error_bind]
  rw [deliver, hvm, Bool.not_false, inScope_true, ok_bind, hgate, ok_bind, hcheck, ok_bind]
  cases hk : g.kind with
  | task => exact absurd hk hkind
  | interrupt => simp only [hthrough, error_bind]
  | trap => simp only [hthrough, error_bind]

end Sys2Proof.Machine
end

section
/-! Settled: the checks of a delivery on its gate and on the handler's code segment (60_exceptions.md
R128, R129, R131, R136, R137, R139). Each statement names the first check that fails. -/

namespace Sys2Proof.Machine

/-- Settles O13, by the first check of a delivery. -/
theorem idtLimitCheck : Obligations.IdtLimitCheck := fun _ _ k _ _ _ hvm =>
  ⟨fun hlimit => deliver_of_idtGate_error hvm _ _ _ (idtGate_beyond hlimit k.ext),
    fun htable ext _ hgate => idtGate_of_gate htable hgate ext⟩

/-- Settles O14, by the decoding of the gate. -/
theorem nonGateRaises : Obligations.NonGateRaises := fun _ _ k _ _ _ hvm htable hno =>
  deliver_of_idtGate_error hvm _ _ _ (idtGate_no_gate htable (decodeGate_eq_none hno) k.ext)

/-- Settles O15: the check of the DPL is a disjunction with "not a software event". -/
theorem gateDplCheck : Obligations.GateDplCheck := by
  refine ⟨fun s v k g err cs ret hvm htable hgate hk hdpl => ?_, fun s v k g l hk => ?_⟩
  · have hsoft : k.soft = true := by rcases hk with rfl | rfl | rfl <;> rfl
    have hcode : idtCode v 0 = 8 * v.setWidth 32 + 2 := BitVec.add_zero _
    rw [deliver_of_checkGate_error hvm err cs ret (idtGate_of_gate htable hgate k.ext)
      (checkGate_level hsoft hdpl v), hcode]
    rfl
  · have hsoft : k.soft = false := by rcases hk with rfl | rfl | rfl | rfl <;> rfl
    refine ⟨by simp only [checkGate, hsoft, Bool.not_false, Bool.true_or], fun hpresent => ?_⟩
    exact (checkGate_ok _ _ _ _ _).2 ⟨fun h => absurd (hsoft.symm.trans h) Bool.false_ne_true, hpresent⟩

/-- Settles O16, by the check of the segment's DPL against CPL. -/
theorem handlerPrivilegeCheck : Obligations.HandlerPrivilegeCheck :=
  fun _ _ k _ _ err cs ret hvm hg hkind hnull hd hcode hlevel =>
    deliver_of_handlerSegment_error hvm hg hkind (handlerSegment_level k.ext hnull hd hcode hlevel)
      err cs ret

/-- Settles O17, check by check. -/
theorem presenceAndSegmentChecks : Obligations.PresenceAndSegmentChecks := by
  refine ⟨fun s v k g err cs ret hvm htable hgate hlevel habsent => ?_,
    fun s v k g err cs ret hvm hg hkind => ?_⟩
  · exact deliver_of_checkGate_error hvm err cs ret (idtGate_of_gate htable hgate k.ext)
      (checkGate_absent hlevel habsent v)
  · have stops {x : Stop} (h : handlerSegment s g k.ext = .error x) :
        deliver s v k err cs ret = .error x :=
      deliver_of_handlerSegment_error hvm hg hkind h err cs ret
    exact ⟨fun hnull => stops (handlerSegment_null k.ext hnull),
      fun hnull hd => stops (handlerSegment_missing k.ext hnull hd),
      fun d hnull hd => ⟨fun hcode => stops (handlerSegment_not_code k.ext hnull hd hcode),
        fun hcode hle habsent => stops (handlerSegment_absent k.ext hnull hd hcode hle habsent),
        fun hcode hle hpresent hbeyond =>
          stops (handlerSegment_beyond k.ext hnull hd hcode hle hpresent hbeyond)⟩⟩

end Sys2Proof.Machine
end

section
/-! Settled: where a delivery goes, and which error code it pushes (60_exceptions.md R91, R109, R137,
R141, R142, R153, R154; 43_iret.md R80). -/

namespace Sys2Proof.Machine

/-! ### Entries -/

/-- Settles O18. -/
theorem deliverSameLevel : Obligations.DeliverSameLevel :=
  fun _ _ _ _ _ _ cs ret h => h.deliver_entry cs ret

/-- Settles O19. -/
theorem deliverInnerLevel : Obligations.DeliverInnerLevel :=
  fun _ _ _ _ _ _ _ cs ret h => h.deliver_entry cs ret

/-- An error code is pushed exactly for the vectors of ERRCODE_VECTORS (R153, 92 D3). -/
theorem pushed_eq (e : Exn) (p : Config.Params) :
    e.pushed p = if e.vec ∈ p.errcodeVectors then some e.code else none := by
  simp only [Exn.pushed, List.contains_iff_mem]

/-- Settles O20: an exception is delivered with the error code its vector asks for, and the delivery
completes on the current stack or on the one of the TSS. -/
theorem exceptionEnters : Obligations.ExceptionEnters := by
  refine ⟨rfl, fun s e ret g d err herr => ?_⟩
  rw [← pushed_eq] at herr
  subst herr
  refine ⟨fun hready => ?_, fun ds hready => ?_⟩
  · obtain ⟨t, hdeliver, hentry⟩ := hready.deliver_entry s.sregs.cs.sel ret
    exact ⟨t, takeException_of_ok hdeliver, hentry⟩
  · obtain ⟨t, hdeliver, hentry⟩ := hready.deliver_entry s.sregs.cs.sel ret
    exact ⟨t, takeException_of_ok hdeliver, hentry⟩

/-! ### The direction of privilege -/

/-- The level of a handler is numerically at most the CPL: a conforming one runs at it, and another at
its DPL, which passed the check of R137. -/
theorem handlerLevel_le {s : State} {d : SegDescriptor} (h : d.dpl ≤ s.cpl) :
    handlerLevel s d ≤ s.cpl := by
  unfold handlerLevel
  split
  · exact BitVec.le_refl _
  · exact h

theorem throughGate_cpl_le {s t : State} {g : Gate} {ext : Word} {err : Option Word} {cs : Half}
    {ret : Word} (h : throughGate s g ext err cs ret = .ok t) : t.cpl ≤ s.cpl := by
  obtain ⟨d, x, s2, hseg, -, -, rfl⟩ := (throughGate_ok _ _ _ _ _ _ _).1 h
  obtain ⟨-, -, -, hlevel, -, -⟩ := (handlerSegment_ok _ _ _ _).1 hseg
  have hcpl : (enterHandler s2 g d (handlerLevel s d)).cpl = handlerLevel s d :=
    selWithRpl_low g.sel (handlerLevel s d)
  rw [hcpl]
  exact handlerLevel_le hlevel

/-- A CS that a return accepts asks for a level numerically at least the CPL (R80). -/
theorem cpl_le_of_returnCodeFaults_nil {s : State} {sel : Half} (h : returnCodeFaults s sel = []) :
    s.cpl ≤ selRpl sel := by
  unfold returnCodeFaults at h
  split at h
  · cases h
  split at h
  · cases h
  · have hcheck := (failing_nil _).1 h _ List.mem_cons_self
    simp only [Bool.and_eq_true, decide_eq_true_eq] at hcheck
    exact hcheck.1.2

theorem procedureReturn_cpl_le {s t : State} {w : Bool} (h : procedureReturn s w = .ok t) :
    s.cpl ≤ t.cpl := by
  obtain ⟨item, sel, img, u, -, -, hfaults, -, rfl⟩ := (procedureReturn_ok _ _ _).1 h
  obtain ⟨hcode, -, -⟩ := (returnFaults_nil _ _ _ _).1 hfaults
  have hle := cpl_le_of_returnCodeFaults_nil hcode
  rwa [← loadedSegment_sel s sel] at hle

/-- Settles O21: a handler runs at the level its segment passed, and a return goes to the level its CS
passed. -/
theorem privilegeDirection : Obligations.PrivilegeDirection := by
  refine ⟨fun s t v k g err cs ret hgate hkind h => ?_, fun s t i hi hnt _ h hrun hd => ?_⟩
  · obtain ⟨-, g', u, hg', -, hu, rfl⟩ := (deliver_ok _ _ _ _ _ _ _).1 h
    obtain rfl : g = g' := Option.some.inj (hgate.symm.trans ((idtGate_ok _ _ _ _).1 hg').2)
    rw [if_neg hkind] at hu
    exact (throughGate_cpl_le hu : u.cpl ≤ s.cpl)
  · obtain ⟨w, hw⟩ := Option.isSome_iff_exists.1 hi
    obtain ⟨u, hu, rfl⟩ := iret_returned hw h hrun hd
    rw [hnt, if_neg Bool.false_ne_true] at hu
    exact (procedureReturn_cpl_le hu : s.nmisUnblocked.cpl ≤ u.cpl)

end Sys2Proof.Machine
end

section
/-! Settled: the error code and its two spellings, by fields and as a sum (60_exceptions.md R154, 92
D34). -/

namespace Sys2Proof.Machine

theorem getLsbD_ofBool_shifted (b : Bool) (n j : Nat) (hj : j < 32) :
    ((BitVec.ofBool b).setWidth 32 <<< n).getLsbD j = (decide (j = n) && b) := by
  rw [BitVec.getLsbD_shiftLeft, BitVec.getLsbD_setWidth, BitVec.getLsbD_ofBool]
  by_cases hlow : j < n
  · simp [hlow, Nat.ne_of_lt hlow]
  · simp [hj, hlow, show j - n < 32 by omega, show j - n = 0 ↔ j = n by omega]

/-- Each field of an error code stands in its own bits (R154). -/
theorem getLsbD_errCode (index : BitVec 13) (idt ti ext : Bool) (j : Nat) (hj : j < 32) :
    (errCode index idt ti ext).getLsbD j =
      if j = 0 then ext else if j = 1 then idt else if j = 2 then ti
      else if j < 16 then index.getLsbD (j - 3) else false := by
  have hext := getLsbD_ofBool_shifted ext 0 j hj
  rw [BitVec.shiftLeft_zero] at hext
  rw [errCode, BitVec.getLsbD_or, BitVec.getLsbD_or, BitVec.getLsbD_or, hext,
    getLsbD_ofBool_shifted _ _ _ hj, getLsbD_ofBool_shifted _ _ _ hj, BitVec.getLsbD_shiftLeft,
    BitVec.getLsbD_setWidth]
  by_cases hlow : j < 3
  · interval_cases j <;> simp
  · have hindex : (if j < 16 then index.getLsbD (j - 3) else false) = index.getLsbD (j - 3) := by
      split
      · rfl
      · rw [BitVec.getLsbD_of_ge _ _ (by omega)]
    simp [hj, hlow, hindex, show j ≠ 0 by omega, show j ≠ 1 by omega, show j ≠ 2 by omega,
      show j - 3 < 32 by omega]

/-- Adding a flag to a code in which its bit is clear sets that bit. -/
theorem add_flag {c : Word} {n : Nat} (h : c.getLsbD n = false) (b : Bool) :
    c + (BitVec.ofBool b).setWidth 32 <<< n = c ||| (BitVec.ofBool b).setWidth 32 <<< n := by
  refine BitVec.add_eq_or_of_and_eq_zero _ _ (BitVec.eq_of_getLsbD_eq fun j hj => ?_)
  rw [BitVec.getLsbD_and, getLsbD_ofBool_shifted _ _ _ hj, BitVec.getLsbD_zero]
  by_cases hbit : j = n
  · rw [hbit, h, Bool.false_and]
  · rw [decide_eq_false hbit, Bool.false_and, Bool.and_false]

/-- EXT is what is added to the code without it. -/
theorem errCode_ext (index : BitVec 13) (idt ti ext : Bool) :
    errCode index idt ti ext = errCode index idt ti false + (if ext then 1 else 0) := by
  have hclear := getLsbD_errCode index idt ti false 0 (by decide)
  have hvalue : (if ext then 1 else 0 : Word) = (BitVec.ofBool ext).setWidth 32 <<< 0 := by
    cases ext <;> rfl
  rw [hvalue, add_flag hclear]
  simp [errCode]

/-- `8*v + 2` is the index `v` with IDT set. -/
theorem errCode_idt (v : Byte) : errCode (v.setWidth 13) true false false = 8 * v.setWidth 32 + 2 := by
  have hindex : (8 : Word) * v.setWidth 32 = v.setWidth 32 <<< 3 := by
    rw [BitVec.mul_comm, ← BitVec.mul_twoPow_eq_shiftLeft]
    rfl
  have hclear : (v.setWidth 32 <<< 3 : Word).getLsbD 1 = false := by simp
  have hflag : (2 : Word) = (BitVec.ofBool true).setWidth 32 <<< 1 := rfl
  rw [hindex, hflag, add_flag hclear]
  simp [errCode]

/-- `sel & FFFCH` is the index and TI where they stand in the selector. -/
theorem errCode_selector (sel : Half) :
    errCode (sel.extractLsb' 3 13) false (sel.getLsbD 2) false = (sel &&& 0xFFFC).setWidth 32 := by
  refine BitVec.eq_of_getLsbD_eq fun j hj => ?_
  rw [getLsbD_errCode _ _ _ _ _ hj]
  interval_cases j <;> simp

/-- Settles O24: the fields bit by bit, and EXT added last in both spellings. -/
theorem errorCodeFormat : Obligations.ErrorCodeFormat :=
  ⟨getLsbD_errCode, fun v ext => by rw [errCode_ext, errCode_idt]; rfl,
    fun sel ext => by rw [errCode_ext, errCode_selector]; rfl⟩

end Sys2Proof.Machine
end

section
/-! Settled: the exceptions of operands and stack items that a segment does not permit to be accessed
(60_exceptions.md R104, log 6). -/

namespace Sys2Proof.Machine

/-! ### Two accesses in a row -/

/-- Of two accesses, the second one made with what the first one answers, the one that is refused
decides; both raise the same. -/
theorem bind_bind_refused {P Q : Prop} {α β γ : Type} {x : Except Stop α} {y : α → Except Stop β}
    {stop : Stop} (hok : P → ∃ a, x = .ok a ∧ (¬ Q → y a = .error stop))
    (hrefused : ¬ P → x = .error stop) (f : α → β → Except Stop γ) (h : ¬(P ∧ Q)) :
    (x >>= fun a => y a >>= f a) = .error stop := by
  by_cases hP : P
  · obtain ⟨a, hx, hy⟩ := hok hP
    rw [hx, ok_bind, hy fun hQ => h ⟨hP, hQ⟩, error_bind]
  · rw [hrefused hP, error_bind]

section
variable {s : State} {p : List Prefix} {m : MemOperand}

/-! ### The first access, at EA itself -/

theorem loadSeg32_first :
    (OperandPermitted s p m 0 4 false → loadSeg32 s (operandSegment p m) (s.effectiveAddress m) =
      .ok (s.read32 (operandLinear s p m))) ∧
    (¬ OperandPermitted s p m 0 4 false → loadSeg32 s (operandSegment p m) (s.effectiveAddress m) =
      .error (.raise (accessExn (operandSegment p m)))) := by
  have hok := loadSeg32_operand (s := s) (p := p) (m := m) (off := 0)
  have hrefused := loadSeg32_operand_refused (s := s) (p := p) (m := m) (off := 0)
  simp only [BitVec.ofNat_eq_ofNat, BitVec.add_zero] at hok hrefused
  exact ⟨hok, hrefused⟩

theorem loadSeg16_first :
    (OperandPermitted s p m 0 2 false → loadSeg16 s (operandSegment p m) (s.effectiveAddress m) =
      .ok (s.read16 (operandLinear s p m))) ∧
    (¬ OperandPermitted s p m 0 2 false → loadSeg16 s (operandSegment p m) (s.effectiveAddress m) =
      .error (.raise (accessExn (operandSegment p m)))) := by
  have hok := loadSeg16_operand (s := s) (p := p) (m := m) (off := 0)
  have hrefused := loadSeg16_operand_refused (s := s) (p := p) (m := m) (off := 0)
  simp only [BitVec.ofNat_eq_ofNat, BitVec.add_zero] at hok hrefused
  exact ⟨hok, hrefused⟩

theorem storeSeg16_first (v : Half) :
    (OperandPermitted s p m 0 2 true → storeSeg16 s (operandSegment p m) (s.effectiveAddress m) v =
      .ok (s.write16 (operandLinear s p m) v)) ∧
    (¬ OperandPermitted s p m 0 2 true →
      storeSeg16 s (operandSegment p m) (s.effectiveAddress m) v =
      .error (.raise (accessExn (operandSegment p m)))) := by
  have hok := storeSeg16_operand (s := s) (p := p) (m := m) (off := 0)
  have hrefused := segLinear_operand_refused (s := s) (p := p) (m := m) (off := 0) (n := 2)
    (w := true)
  simp only [BitVec.ofNat_eq_ofNat, BitVec.add_zero] at hok hrefused
  exact ⟨fun h => hok h v, fun h => by rw [storeSeg16, hrefused h, error_bind]⟩

/-- SIDT's second store is refused by the segment it was refused by before the first one. -/
theorem storeSeg32_operand_of_write16_refused {off : Word} (h : ¬ OperandPermitted s p m off 4 true)
    (a : Word) (l : Half) (v : Word) :
    storeSeg32 (s.write16 a l) (operandSegment p m) (s.effectiveAddress m + off) v =
      .error (.raise (accessExn (operandSegment p m))) := by
  have hseg : (s.write16 a l).getSreg (operandSegment p m) = s.getSreg (operandSegment p m) := by
    cases operandSegment p m <;> rfl
  rw [OperandPermitted, Bool.not_eq_true] at h
  rw [storeSeg32, segLinear, hseg, h, require_false, error_bind, error_bind]

/-! ### The item at ESP -/

theorem stackItem_top_refused {w : Bool} (h : ¬ StackReadable s w 1) :
    stackItem w s s.regs.esp = .error (.raise (ssExn 0)) := by
  have hitem := stackItem_refused (s := s) (w := w) (k := 0) fun hperm =>
    h ((stackReadable_succ s w 0).2 ⟨nofun, hperm⟩)
  rwa [slotAt_zero] at hitem

/-! ### The instructions with a memory operand -/

/-- An instruction whose body is refused an access to its operand raises the exception of the operand's
segment at itself. -/
theorem exec_of_operand_refused {i : Instr} {body : Except Stop State}
    (hexec : exec i s = conclude s body)
    (h : body = .error (.raise (accessExn (operandSegment p m)))) :
    exec i s = takeException s (accessExn (operandSegment p m)) s.eip := by
  rw [hexec, h, conclude_raise]

variable (hs : s.Runs)
include hs

theorem exec_bound32_refused (r : Reg)
    (h : ¬(OperandPermitted s p m 0 4 false ∧ OperandPermitted s p m 4 4 false)) :
    exec (.bound32 p r m) s = takeException s (accessExn (operandSegment p m)) s.eip :=
  exec_of_operand_refused (inProtectedMode_runs hs _) <| bind_bind_refused
    (fun hlo => ⟨_, loadSeg32_first.1 hlo, loadSeg32_operand_refused⟩) loadSeg32_first.2 _ h

theorem exec_bound16_refused (r : Reg)
    (h : ¬(OperandPermitted s p m 0 2 false ∧ OperandPermitted s p m 2 2 false)) :
    exec (.bound16 p r m) s = takeException s (accessExn (operandSegment p m)) s.eip :=
  exec_of_operand_refused (inProtectedMode_runs hs _) <| bind_bind_refused
    (fun hlo => ⟨_, loadSeg16_first.1 hlo, loadSeg16_operand_refused⟩) loadSeg16_first.2 _ h

theorem exec_sidt_refused
    (h : ¬(OperandPermitted s p m 0 2 true ∧ OperandPermitted s p m 2 4 true)) :
    exec (.sidt p m) s = takeException s (accessExn (operandSegment p m)) s.eip :=
  exec_of_operand_refused (inProtectedMode_runs hs _) <| bind_bind_refused
    (fun hlimit => ⟨_, (storeSeg16_first _).1 hlimit,
      fun hbase => storeSeg32_operand_of_write16_refused hbase _ _ _⟩) (storeSeg16_first _).2 _ h

theorem exec_movSS_refused (h : ¬ OperandPermitted s p m 0 2 false) :
    exec (.movSS p (.mem m)) s = takeException s (accessExn (operandSegment p m)) s.eip := by
  refine exec_of_operand_refused (inProtectedMode_runs hs _) ?_
  rw [loadRM16, loadSeg16_first.2 h, error_bind]

theorem exec_lss32_refused (r : Reg) (hp : Prefix.opSize ∉ p)
    (h : ¬(OperandPermitted s p m 0 4 false ∧ OperandPermitted s p m 4 2 false)) :
    exec (.lss p r m) s = takeException s (accessExn (operandSegment p m)) s.eip := by
  refine exec_of_operand_refused (inProtectedMode_runs hs _) ?_
  exact (if_neg (mt List.contains_iff_mem.1 hp)).trans <| bind_bind_refused
    (fun hoff => ⟨_, loadSeg32_first.1 hoff, loadSeg16_operand_refused⟩) loadSeg32_first.2 _ h

theorem exec_lss16_refused (r : Reg) (hp : Prefix.opSize ∈ p)
    (h : ¬(OperandPermitted s p m 0 2 false ∧ OperandPermitted s p m 2 2 false)) :
    exec (.lss p r m) s = takeException s (accessExn (operandSegment p m)) s.eip := by
  refine exec_of_operand_refused (inProtectedMode_runs hs _) ?_
  exact (if_pos (List.contains_iff_mem.2 hp)).trans <| bind_bind_refused
    (fun hoff => ⟨_, loadSeg16_first.1 hoff, loadSeg16_operand_refused⟩) loadSeg16_first.2 _ h

/-! ### The instructions that read the top of the stack -/

/-- An instruction whose body begins with the item at ESP raises #SS(0) where that item may not be
read. -/
theorem exec_of_stackItem_refused {i : Instr} {w : Bool} {f : Word → Except Stop State}
    (hexec : exec i s = inProtectedMode s (conclude s (stackItem w s s.regs.esp >>= f)))
    (h : ¬ StackReadable s w 1) : exec i s = takeException s ⟨12, 0⟩ s.eip := by
  rw [hexec, inProtectedMode_runs hs, stackItem_top_refused h, error_bind, conclude_raise]
  rfl

end

/-- Settles O40, instruction by instruction: the first access that is refused ends the body. -/
theorem operandFaults : Obligations.OperandFaults := by
  intro s p r m hs
  refine ⟨⟨exec_bound32_refused hs r, exec_bound16_refused hs r, exec_sidt_refused hs,
    exec_movSS_refused hs, exec_lss32_refused hs r, exec_lss16_refused hs r⟩, ?_, ?_, ?_⟩
  · exact exec_of_stackItem_refused hs rfl
  · exact exec_of_stackItem_refused hs rfl
  · intro wide hwide hread
    rw [← wide_eq_not_hasOpSize hwide] at hread
    exact exec_of_stackItem_refused hs rfl hread

end Sys2Proof.Machine
end

section
/-! Support: which event a boundary serves, in the order of 60_exceptions.md R126, and the NMIs it keeps. -/

namespace Sys2Proof.Machine

/-! ### The boundary, class by class -/

section
variable {s : State} (hreset : s.input.reset = false) (hmode : s.mode = .protectedMode)
include hreset hmode

theorem step_eq_serveBoundary : step s = serveBoundary s := by
  simp only [step, boundary, hreset, hmode, Bool.false_eq_true, if_false]

variable (hrun : s.shutdown = false)
include hrun

/-- A machine check is above everything but a reset (R126 class 1). -/
theorem step_machineCheck (hcheck : s.input.machineCheck = true) :
    step s = takeAbort s.received mcExn := by
  simp only [step_eq_serveBoundary hreset hmode, serveBoundary, hrun, hcheck, Bool.false_eq_true,
    if_false, if_true]

variable (hcheck : s.input.machineCheck = false)
include hcheck

/-- A trap on task switch is above every NMI and interrupt (R126 class 2). -/
theorem step_taskTrap (htrap : s.taskTrap = true) (hinhibit : s.eventInhibit = false) :
    step s = takeException s.received dbExn s.eip := by
  simp only [step_eq_serveBoundary hreset hmode, serveBoundary, hrun, hcheck, htrap, hinhibit,
    Bool.not_false, Bool.and_true, Bool.false_eq_true, if_false, if_true]

/-- Under an inhibition the boundary is the next instruction's (R123). -/
theorem step_inhibited (hinhibit : s.eventInhibit = true) : step s = runNext s.received := by
  simp only [step_eq_serveBoundary hreset hmode, serveBoundary, hrun, hcheck, hinhibit, nmiDeliverable,
    maskableOpen, breakpointDue, Bool.not_true, Bool.and_false, Bool.false_and, Bool.false_eq_true,
    if_false]

end

section
variable {s : State} (h : s.NoHigherEvent) (hmode : s.mode = .protectedMode)
include h hmode

/-- Below the classes of a higher event: an NMI, a maskable interrupt, an instruction breakpoint, the
next instruction. -/
theorem step_of_noHigherEvent :
    step s =
      if nmiDeliverable s then takeNmi s
      else if maskableOpen s && !(maskableRequests s s.input).isEmpty then
        takeMaskable s.received (maskableRequests s s.input)
      else if breakpointDue s s.input then takeException s.received dbExn s.eip
      else runNext s.received := by
  simp only [step_eq_serveBoundary h.reset hmode, serveBoundary, h.running, h.machineCheck, h.taskTrap,
    Bool.false_and, Bool.false_eq_true, if_false]

variable (hnmi : nmiDeliverable s = false)
include hnmi

theorem step_maskable (hopen : maskableOpen s = true) (hreq : maskableRequests s s.input ≠ []) :
    step s = takeMaskable s.received (maskableRequests s s.input) := by
  have hsome : (maskableRequests s s.input).isEmpty = false := by simpa using hreq
  simp only [step_of_noHigherEvent h hmode, hnmi, hopen, hsome, Bool.not_false, Bool.and_true,
    Bool.false_eq_true, if_false, if_true]

variable (hmask : maskableOpen s = false ∨ maskableRequests s s.input = [])
include hmask

theorem step_below_interrupts :
    step s = if breakpointDue s s.input then takeException s.received dbExn s.eip
      else runNext s.received := by
  have hclosed : (maskableOpen s && !(maskableRequests s s.input).isEmpty) = false := by
    rcases hmask with hmask | hmask <;> simp [hmask]
  simp only [step_of_noHigherEvent h hmode, hnmi, hclosed, Bool.false_eq_true, if_false]

theorem step_runs (hbreak : breakpointDue s s.input = false) : step s = runNext s.received := by
  simp only [step_below_interrupts h hmode hnmi hmask, hbreak, Bool.false_eq_true, if_false]

end

/-! ### NMIs -/

theorem nmiDeliverable_iff (s : State) :
    nmiDeliverable s = true ↔
      0 < nmiAvailable s s.input ∧ s.nmiBlocked = false ∧ s.eventInhibit = false := by
  simp only [nmiDeliverable, Bool.and_eq_true, Bool.not_eq_true', decide_eq_true_eq, and_assoc]

/-- A boundary that can deliver no NMI keeps what NMIs there are. -/
theorem step_nmisKept {s t : State} (h : step s = .next t) (hreset : s.input.reset = false)
    (hnmi : nmiDeliverable s = false) : NmisKept s t := by
  have hkept := received_nmisKept s
  rcases step_next h with ⟨htrue, -⟩ | ⟨-, -, hcase⟩
  · exact absurd (hreset.symm.trans htrue) Bool.false_ne_true
  · rcases hcase with ⟨-, rfl⟩ | ⟨htrue, -⟩ | ⟨-, hevent, -⟩ | ⟨-, hrun⟩
    · exact hkept
    · exact absurd (hnmi.symm.trans htrue) Bool.false_ne_true
    · exact hkept.kept hevent.kept
    · exact hkept.kept (runNext_kept hrun)

end Sys2Proof.Machine
end

section
/-! Settled: the NMI block, and the NMIs delivered, remembered and held (60_exceptions.md R114 to R118,
R123, R125). -/

namespace Sys2Proof.Machine

/-- The next instruction leaves the NMI block alone, unless it is an IRET, which ends it (R116). -/
theorem runNext_nmiBlocked {s t : State} (h : runNext s = .next t) :
    t.nmiBlocked = s.nmiBlocked ∨
      t.nmiBlocked = false ∧ ∃ i, (iretSize i).isSome ∧ decode s.fetchWindow = .instr i := by
  rcases runNext_next h with ⟨i, u, hdecode, hu, htrap⟩ | ⟨-, hfault⟩
  · have hblock : t.nmiBlocked = u.nmiBlocked := by
      rcases htrap with rfl | ⟨-, hsame⟩
      · rfl
      · exact hsame
    have hexec := hu.nmiBlocked
    split at hexec
    · next hiret => exact .inr ⟨hblock.trans hexec, i, hiret, hdecode⟩
    · exact .inl (hblock.trans hexec)
  · exact .inl hfault

/-- What can move the NMI block in a step: a reset and an IRET end it, an NMI delivered begins it. -/
theorem step_nmiBlocked {s t : State} (h : step s = .next t) :
    t.nmiBlocked = s.nmiBlocked ∨
      t.nmiBlocked = false ∧ (s.input.reset = true ∨
        ∃ i, (iretSize i).isSome ∧ decode s.fetchWindow = .instr i) ∨
      nmiDeliverable s = true := by
  rcases step_next h with ⟨hreset, rfl⟩ | ⟨-, -, hcase⟩
  · exact .inr (.inl ⟨rfl, .inl hreset⟩)
  · rcases hcase with ⟨-, rfl⟩ | ⟨hnmi, -⟩ | ⟨-, -, hevent⟩ | ⟨-, hrun⟩
    · exact .inl rfl
    · exact .inr (.inr hnmi)
    · exact .inl hevent
    · refine (runNext_nmiBlocked hrun).imp_right fun ⟨hfalse, hiret⟩ => .inl ⟨hfalse, .inr ?_⟩
      rwa [fetchWindow_received] at hiret

/-- Settles O45: IRET unblocks NMIs before anything of it can fail, and where NMIs are blocked none is
delivered. -/
theorem nmiUnblockedByIretOnly : Obligations.NmiUnblockedByIretOnly := by
  refine ⟨fun s t i hi h => ?_, fun s t h hblocked hfree => ?_⟩
  · have hexec := (exec_executed h).nmiBlocked
    rwa [if_pos hi] at hexec
  · rcases step_nmiBlocked h with hsame | ⟨-, hcause⟩ | hnmi
    · rw [hsame, hblocked] at hfree
      cases hfree
    · exact hcause
    · obtain ⟨-, hunblocked, -⟩ := (nmiDeliverable_iff s).1 hnmi
      rw [hblocked] at hunblocked
      cases hunblocked

/-- Settles O54: of what moves the NMI block, only the delivery of an NMI sets it. -/
theorem onlyNmiBlocks : Obligations.OnlyNmiBlocks := by
  intro s t h hfree hblocked
  rcases step_nmiBlocked h with hsame | ⟨hfalse, -⟩ | hnmi
  · rw [hsame, hfree] at hblocked
    cases hblocked
  · rw [hfalse] at hblocked
    cases hblocked
  · obtain ⟨havailable, -, hinhibit⟩ := (nmiDeliverable_iff s).1 hnmi
    exact ⟨havailable, hinhibit⟩

/-- Settles O53: where NMIs are blocked none is delivered, so those there are and arrive are kept. -/
theorem blockedNmiLatched : Obligations.BlockedNmiLatched := by
  intro s t hblocked hreset h
  have hnmi : nmiDeliverable s = false := by
    simp only [nmiDeliverable, hblocked, Bool.not_true, Bool.and_false, Bool.false_and]
  exact (step_nmisKept h hreset hnmi).blocked hblocked

/-- Where NMIs are not blocked, an NMI is delivered on the received state with one of those available
taken out. -/
theorem takeNmi_eq {s : State} (hfree : s.nmiBlocked = false) (hrun : s.shutdown = false) :
    takeNmi s =
      takeInterrupt { s.received with nmiHeld := nmiAvailable s s.input - 1 } 2 .nmi s.eip := by
  have hheld : s.received.nmiHeld = nmiAvailable s s.input := by
    rw [received_nmiHeld, nmisHeld, hfree, if_neg Bool.false_ne_true]
  have hstate : { s.received with nmiHeld := nmiAvailable s s.input - 1, shutdown := false } =
      { s.received with nmiHeld := nmiAvailable s s.input - 1 } := by
    rw [← hrun]
    rfl
  rw [takeNmi, hheld, hstate]
  rfl

/-- Settles O52: nothing above the NMI happens, so it is served, and its delivery blocks NMIs. -/
theorem nmiDelivered : Obligations.NmiDelivered := by
  intro s t h hmode havailable hfree hinhibit hdeliver
  have hnmi := (nmiDeliverable_iff s).2 ⟨havailable, hfree, hinhibit⟩
  obtain ⟨htaken, hblocked, -⟩ := deliver_taken hdeliver
  refine ⟨?_, hblocked.trans (Bool.or_true _), ?_⟩
  · rw [step_of_noHigherEvent h hmode, if_pos hnmi, takeNmi_eq hfree h.running]
    exact takeInterrupt_of_ok hdeliver
  · have hheld : t.nmiHeld = nmiAvailable s s.input - 1 := htaken.kept.nmiHeld
    omega

/-- Settles O56: the inhibition holds off every event below a machine check, the NMIs among them. -/
theorem inhibitionHoldsEvents : Obligations.InhibitionHoldsEvents := by
  intro s hmode hinhibit hrun hreset hcheck
  refine ⟨step_inhibited hreset hmode hrun hcheck hinhibit, fun t h => step_nmisKept h hreset ?_⟩
  simp only [nmiDeliverable, hinhibit, Bool.not_true, Bool.and_false]

end Sys2Proof.Machine
end

section
/-! Settled: machine checks, traps on task switch, maskable interrupts and breakpoints at a boundary
(60_exceptions.md R93 to R96, R102, R120, R122, R125, R126). -/

namespace Sys2Proof.Machine

/-! ### Above the NMI -/

/-- Settles O59: the check is taken before any NMI, as an abort with the free CS:EIP. -/
theorem machineCheckDelivered : Obligations.MachineCheckDelivered := by
  intro s t hmode hreset hrun hcheck hvector hdeliver
  have hpushed : mcExn.pushed s.received.params = none := pushed_eq_none hvector
  have htake : takeAbort s.received mcExn = .next t := by
    simp only [takeAbort, hpushed]
    exact hdeliver ▸ rfl
  refine ⟨(step_machineCheck hreset hmode hrun hcheck).trans htake, ?_⟩
  exact (received_nmisKept s).kept (takeAbort_taken htake).1.kept

/-- Nothing on the way through an interrupt or trap gate makes a trap on task switch due. -/
theorem throughGate_taskTrap {s t : State} {g : Gate} {ext : Word} {err : Option Word} {cs : Half}
    {ret : Word} (h : throughGate s g ext err cs ret = .ok t) : t.taskTrap = s.taskTrap := by
  obtain ⟨d, x, s2, -, hstack, hframe, rfl⟩ := (throughGate_ok _ _ _ _ _ _ _).1 h
  have hx : x.1.taskTrap = s.taskTrap := by
    unfold frameStack at hstack
    split at hstack
    · obtain ⟨nss, nesp, ds, s1, -, -, hsel, hitem, -⟩ := (innerStack_ok _ _ _ _ _).1 hstack
      obtain ⟨esp, m, n, hpushed, -⟩ := (pushSelector_pushed hsel).trans (pushItem_pushed hitem)
      rw [hpushed]
      rfl
    · obtain rfl := Except.ok.inj hstack
      rfl
  obtain ⟨esp, m, n, rfl, -⟩ := pushFrame_pushed hframe
  exact hx

/-- A handler that is no task starts with no more trap on task switch due than before. -/
theorem deliver_taskTrap {s t : State} {v : Byte} {k : EventKind} {g : Gate} {err : Option Word}
    {cs : Half} {ret : Word}
    (hgate : decodeGate (s.read64 (s.idtr.base + 8 * v.setWidth 32)) = some g) (hkind : g.kind ≠ .task)
    (h : deliver s v k err cs ret = .ok t) : t.taskTrap = s.taskTrap := by
  obtain ⟨-, g', u, hg', -, hu, rfl⟩ := (deliver_ok _ _ _ _ _ _ _).1 h
  obtain rfl : g = g' := Option.some.inj (hgate.symm.trans ((idtGate_ok _ _ _ _).1 hg').2)
  rw [if_neg hkind] at hu
  exact (throughGate_taskTrap hu : u.taskTrap = s.taskTrap)

/-- Settles O60: receiving the inputs discards the trap; it is then taken on the received state, or the
machine check is. -/
theorem taskSwitchTrap : Obligations.TaskSwitchTrap := by
  intro s hmode hreset hrun htrap
  refine ⟨rfl, received_nmisKept s, fun hcheck hinhibit => ?_, fun hcheck =>
    ⟨step_machineCheck hreset hmode hrun hcheck, fun g cs ret t hgate hkind hdeliver => ?_⟩⟩
  · have hstep := step_taskTrap hreset hmode hrun hcheck htrap hinhibit
    refine ⟨hstep, fun t h => ?_⟩
    rw [hstep] at h
    exact (received_nmisKept s).kept (takeException_taken h).1.kept
  · exact deliver_taskTrap (s := { s.received with freeCount := s.freeCount + 1 }) hgate hkind hdeliver

/-! ### Maskable interrupts -/

theorem intrAsserted_iff (s : State) (e : EnvInput) :
    intrAsserted s e = true ↔
      e.lint0 = true ∧ lint0Role s = .intr ∨ e.lint1 = true ∧ lint1Role s = .intr := by
  simp only [intrAsserted, Bool.or_eq_true, Bool.and_eq_true, beq_iff_eq]

/-- The vector a pin brings to the APIC: its role's, where it is asserted (R93). -/
def pinVectors (r : PinRole) (asserted : Bool) : List Byte :=
  match r with
  | .fixed v => if asserted then [v] else []
  | _ => []

theorem mem_pinVectors (r : PinRole) (asserted : Bool) (v : Byte) :
    v ∈ pinVectors r asserted ↔ asserted = true ∧ r = .fixed v := by
  cases r with
  | fixed w => cases asserted <;> simp [pinVectors, eq_comm]
  | _ => simp [pinVectors]

/-- The vectors of an enabled APIC are those of its two pins and of its messages (R93, R95). -/
theorem apicVectors_enabled {s : State} (h : s.apic.availability = .enabled) (e : EnvInput) :
    apicVectors s e =
      pinVectors s.apic.lint0 e.lint0 ++ pinVectors s.apic.lint1 e.lint1 ++ e.apicMessages :=
  if_pos h

theorem mem_apicVectors (s : State) (e : EnvInput) (v : Byte) :
    v ∈ apicVectors s e ↔ s.apic.availability = .enabled ∧
      (e.lint0 = true ∧ s.apic.lint0 = .fixed v ∨ e.lint1 = true ∧ s.apic.lint1 = .fixed v ∨
        v ∈ e.apicMessages) := by
  by_cases henabled : s.apic.availability = .enabled
  · simp only [apicVectors_enabled henabled, henabled, List.mem_append, mem_pinVectors, or_assoc,
      true_and]
  · rw [apicVectors, if_neg henabled]
    simp only [List.not_mem_nil, henabled, false_and]

theorem mem_maskableRequests (s : State) (e : EnvInput) (k : EventKind) (v : Byte) :
    (k, v) ∈ maskableRequests s e ↔
      k = .extIntr ∧ v = e.busVector ∧ intrAsserted s e = true ∨
      k = .extApic ∧ v ∈ apicVectors s e ∧ 16 ≤ v.toNat := by
  rw [maskableRequests, List.mem_append]
  refine or_congr ?_ ?_
  · cases intrAsserted s e <;> simp
  · simp only [List.mem_map, List.mem_filter, apicLegal, decide_eq_true_eq, Prod.mk.injEq]
    exact ⟨fun ⟨w, hw, hk, hv⟩ => ⟨hk.symm, hv ▸ hw⟩, fun ⟨hk, hv⟩ => ⟨v, hv, hk.symm, rfl⟩⟩

/-- Of several requests one is served, whichever (92 D4). -/
theorem takeMaskable_serves (s : State) {l : List (EventKind × Byte)} (h : l ≠ []) :
    ∃ k v n, (k, v) ∈ l ∧ takeMaskable s l = takeInterrupt { s with freeCount := n } v k s.eip := by
  match l with
  | [] => exact absurd rfl h
  | [(k, v)] => exact ⟨k, v, s.freeCount, List.mem_singleton_self _, rfl⟩
  | x :: y :: rest =>
    have hlt : Config.freeOrder s.freeCount % (rest.length + 2) < (x :: y :: rest).length :=
      Nat.mod_lt _ (Nat.succ_pos _)
    refine ⟨_, _, s.freeCount + 1, ?_, rfl⟩
    rw [List.getD_eq_getElem _ _ hlt]
    exact List.getElem_mem hlt

/-- Settles O55: the list of requests by its parts, and the service of one of them where they are not
masked. -/
theorem maskableInterrupts : Obligations.MaskableInterrupts := by
  refine ⟨fun s k v => ?_, fun s h hmode hnmi => ⟨fun hif hbreak => ?_, fun hif hinhibit hwindow => ?_⟩⟩
  · rw [mem_maskableRequests, intrAsserted_iff, mem_apicVectors]
    refine or_congr_right (and_congr_right fun _ => ?_)
    exact ⟨fun ⟨⟨henabled, hcause⟩, hlegal⟩ => ⟨hlegal, henabled, hcause⟩,
      fun ⟨hlegal, henabled, hcause⟩ => ⟨⟨henabled, hcause⟩, hlegal⟩⟩
  · refine step_runs h hmode hnmi (.inl ?_) ?_
    · simp only [maskableOpen, hif, Bool.false_and]
    · simp only [breakpointDue, hbreak, Bool.false_and]
  · have hopen : maskableOpen s = true := by
      simp only [maskableOpen, hif, hinhibit, hwindow, Bool.not_false, Bool.and_true]
    have hserve := step_maskable h hmode hnmi hopen
    refine ⟨fun hreq => ?_, fun k v hone t hdeliver => ?_⟩
    · obtain ⟨k, v, n, hmem, htake⟩ := takeMaskable_serves s.received hreq
      exact ⟨k, v, n, hmem, (hserve hreq).trans htake⟩
    · rw [hserve (hone ▸ List.cons_ne_nil _ _), hone]
      exact takeInterrupt_of_ok hdeliver

/-! ### Illegal vectors -/

/-- Settles O58: receiving the inputs indicates an illegal vector, nothing after it touches the APIC, and
no such vector is among the requests. -/
theorem apicIllegalVector : Obligations.ApicIllegalVector := by
  refine ⟨fun s t hreset ⟨v, hmem, hlow⟩ h => ?_, fun s h hmode hnmi hintr hbreak hlow => ?_⟩
  · rcases step_systemKept h with ⟨htrue, -⟩ | ⟨-, hkept⟩
    · exact absurd (hreset.symm.trans htrue) Bool.false_ne_true
    · have hillegal : (apicVectors s s.input).any (fun v => !apicLegal v) = true :=
        List.any_eq_true.2 ⟨v, hmem, by simp only [apicLegal, decide_eq_false (Nat.not_le.2 hlow),
          Bool.not_false]⟩
      rw [hkept.apic, received_illegalVector, hillegal, Bool.or_true]
  · refine step_runs h hmode hnmi (.inr (List.eq_nil_iff_forall_not_mem.2 fun ⟨k, v⟩ hmem => ?_)) ?_
    · rcases (mem_maskableRequests _ _ _ _).1 hmem with ⟨-, -, htrue⟩ | ⟨-, hv, hlegal⟩
      · exact absurd (hintr.symm.trans htrue) Bool.false_ne_true
      · exact absurd (hlow v hv) (Nat.not_lt.2 hlegal)
    · simp only [breakpointDue, hbreak, Bool.false_and]

/-! ### Breakpoints -/

/-- Settles O57: with no interrupt to serve, RF alone decides whether the breakpoint is due. -/
theorem breakpointAndResumeFlag : Obligations.BreakpointAndResumeFlag := by
  intro s h hmode hnmi hreq hbreak hinhibit
  have hdue : breakpointDue s s.input = !s.flagRF := by
    simp only [breakpointDue, hbreak, hinhibit, Bool.true_and, Bool.not_false, Bool.and_true]
  refine ⟨fun hrf => ?_, fun hrf => step_runs h hmode hnmi (.inr hreq) (by rw [hdue, hrf]; rfl)⟩
  rw [step_below_interrupts h hmode hnmi (.inr hreq), hdue, hrf]
  rfl

end Sys2Proof.Machine
end

section
/-! Settled: the step of a quiet boundary, and exceptions raised by the delivery of an exception
(60_exceptions.md R147, R148, 92 D8, 93 G10). -/

namespace Sys2Proof.Machine

/-! ### A quiet boundary -/

theorem State.Quiet.step_instr {s : State} {i : Instr} (hq : s.Quiet) (hmode : s.mode = .protectedMode)
    (hbig : s.sregs.cs.desc.big = true) (h : decode s.fetchWindow = .instr i) :
    step s = afterInstruction { s with env := s.env.tail } (exec i { s with env := s.env.tail }) := by
  rw [hq.step_eq hmode, runNext, if_pos hbig, fetchWindow_tail, h]

/-- With TF = 0 nothing follows the instruction. -/
theorem afterInstruction_of_flagTF {s : State} (h : s.flagTF = false)
    (o : Host.Outcome State Fault Refusal) : afterInstruction s o = o := by
  cases o with
  | next t =>
    have hdue : singleStepDue s t = false := by simp only [singleStepDue, h, Bool.false_and]
    rw [afterInstruction, hdue, if_neg Bool.false_ne_true]
  | fault f => rfl
  | refused r => rfl

/-- Settles O12: the instruction runs on the state whose environment has moved on, and what the
single-step trap makes of its outcome is the condition under which that trap is due. -/
theorem stepRunsDecoded : Obligations.StepRunsDecoded := by
  intro s i hquiet hmode hbig hdecode
  have hstep := hquiet.step_instr hmode hbig hdecode
  have hnext (t : State) (ht : exec i { s with env := s.env.tail } = .next t) : step s =
      if singleStepDue { s with env := s.env.tail } t then takeException t dbExn t.eip
      else .next t := by
    rw [hstep, ht, afterInstruction]
  refine ⟨fun htf => ?_, fun t ht => ⟨fun hno => ?_, fun htf hdeliveries hinhibit hrun htrap => ?_⟩,
    fun f hf => by rw [hstep, hf, afterInstruction], fun r hr => by rw [hstep, hr, afterInstruction]⟩
  · exact hstep.trans (afterInstruction_of_flagTF (s := { s with env := s.env.tail }) htf _)
  · have hdue : singleStepDue { s with env := s.env.tail } t = false := by
      rcases hno with hmoved | hinhibit | htrap
      · simp [singleStepDue, hmoved]
      · simp [singleStepDue, hinhibit]
      · simp [singleStepDue, htrap]
    rw [hnext t ht, hdue, if_neg Bool.false_ne_true]
  · have htf' : State.flagTF { s with env := s.env.tail } = true := htf
    have hdue : singleStepDue { s with env := s.env.tail } t = true := by
      simp only [singleStepDue, htf', hdeliveries, hinhibit, hrun, htrap, beq_self_eq_true,
        Bool.not_false, Bool.and_true]
    rw [hnext t ht, hdue, if_pos rfl]
    rfl

/-! ### Nested faults -/

theorem contributory_iff (v : Byte) : contributory v = true ↔ v ∈ ([0, 10, 11, 12, 13] : List Byte) := by
  simp only [contributory, Bool.or_eq_true, beq_iff_eq, List.mem_cons, List.not_mem_nil, or_false,
    or_assoc]
  rfl

/-- The pairs of G10. -/
theorem makesDoubleFault_iff (v w : Byte) :
    makesDoubleFault v w = true ↔
      v ∈ ([0, 10, 11, 12, 13] : List Byte) ∧ w ∈ ([0, 10, 11, 12, 13] : List Byte) ∨
        v = 14 ∧ w ∈ ([0, 10, 11, 12, 13, 14] : List Byte) := by
  have hpf : w ∈ ([0, 10, 11, 12, 13, 14] : List Byte) ↔
      w ∈ ([0, 10, 11, 12, 13] : List Byte) ∨ w = 14 := by
    simp only [List.mem_cons, List.not_mem_nil, or_false, or_assoc]
  rw [hpf, ← contributory_iff, ← contributory_iff]
  simp only [makesDoubleFault, Bool.or_eq_true, Bool.and_eq_true, beq_iff_eq]
  rfl

theorem takeException_of_raise {s : State} {e e2 : Exn} {ret : Word}
    (h : deliver s e.vec .exc (e.pushed s.params) s.sregs.cs.sel ret = .error (.raise e2)) :
    takeException s e ret = takeNested s e.vec e2 ret := by
  simp only [takeException, h]

/-- A double fault is a delivery of vector 8 with error code 0 and a free CS:EIP (G10). -/
def doubleFaultDelivery (s : State) : Except Stop State :=
  deliver { s with freeCount := s.freeCount + 1 } dfVector .exc (Exn.pushed ⟨dfVector, 0⟩ s.params)
    (Config.freeAbortCs s.freeCount) (Config.freeAbortEip s.freeCount)

section
variable {s : State}

theorem takeDoubleFault_of_ok {t : State} (h : doubleFaultDelivery s = .ok t) :
    takeDoubleFault s = .next t := by
  rw [doubleFaultDelivery] at h
  simp only [takeDoubleFault, h]

/-- An exception raised by the delivery of a double fault puts the processor in shutdown. -/
theorem takeDoubleFault_of_raise {e : Exn} (h : doubleFaultDelivery s = .error (.raise e)) :
    takeDoubleFault s =
      .next { s with shutdown := true, eventInhibit := false, stiWindow := false } := by
  rw [doubleFaultDelivery] at h
  simp only [takeDoubleFault, h]
  rfl

theorem takeDoubleFault_of_refuse {r : Refusal} (h : doubleFaultDelivery s = .error (.refuse r)) :
    takeDoubleFault s = .refused r := by
  rw [doubleFaultDelivery] at h
  simp only [takeDoubleFault, h]

end

/-- Settles O22: a delivery that raises is a nested fault, which the policy and the pair decide; the
double fault it may end in is the delivery of vector 8, or the shutdown. -/
theorem nestedFaults : Obligations.NestedFaults := by
  refine ⟨fun s e e2 ret h => ?_, fun s => ?_⟩
  · rw [takeException_of_raise h]
    refine ⟨fun hpolicy => by simp only [takeNested, hpolicy], fun hpolicy => ?_⟩
    rw [← makesDoubleFault_iff, Bool.not_eq_true]
    refine ⟨fun hpair => ?_, fun hpair => ⟨fun t hd => ?_, fun e3 hd => ?_⟩⟩
    · simp only [takeNested, hpolicy, hpair, if_true]
    · simp only [takeNested, hpolicy, hpair, hd, Bool.false_eq_true, if_false]
    · simp only [takeNested, hpolicy, hpair, hd, Bool.false_eq_true, if_false]
  · refine ⟨s.freeCount + 1, Config.freeAbortCs s.freeCount, Config.freeAbortEip s.freeCount, ?_⟩
    have hdelivery : deliver { s with freeCount := s.freeCount + 1 } 8 .exc
        (if 8 ∈ s.params.errcodeVectors then some 0 else none) (Config.freeAbortCs s.freeCount)
        (Config.freeAbortEip s.freeCount) = doubleFaultDelivery s := by
      rw [doubleFaultDelivery, pushed_eq]
      rfl
    rw [hdelivery]
    cases h : doubleFaultDelivery s with
    | ok t => exact takeDoubleFault_of_ok h
    | error stop =>
      cases stop with
      | raise e => exact takeDoubleFault_of_raise h
      | refuse r => exact takeDoubleFault_of_refuse h

end Sys2Proof.Machine
end

section
/-! Support: a handler entered through a 32-bit gate without an error code finds on its stack what its
IRETD needs to resume the interrupted program (60_exceptions.md R87, R143; 43_iret.md R73, R74, R80). -/

namespace Sys2Proof.Machine

/-! ### The frame as the items of a return -/

theorem stackSlot_eq (t : State) (w : Bool) (k : Nat) :
    stackSlot t w k = readSlot t w (slotAt (t.sregs.ss.desc.base + t.regs.esp) w k) := by
  rw [stackSlot, slotAt, slotAt, BitVec.add_assoc]

/-- A 32-bit frame on top of the stack is the EIP, CS and EFLAGS that IRETD pops (R143, R73). -/
theorem FrameAt.popped {t : State} {ret flags : Word} {cs : Half}
    (h : FrameAt t true (t.sregs.ss.desc.base + t.regs.esp) ret cs flags none) :
    stackSlot t true 0 = ret ∧ (stackSlot t true 1).extractLsb' 0 16 = cs ∧
      stackSlot t true 2 = flags := by
  refine ⟨(stackSlot_eq t true 0).trans h.eip, ?_, (stackSlot_eq t true 2).trans h.flags⟩
  rw [stackSlot_eq, ← read16_eq_readSlot]
  exact h.cs

/-- What a segment lets be written it lets be read. -/
theorem SegDescriptor.permits_read {d : SegDescriptor} {off : Word} {n : Nat}
    (h : d.permits off n true = true) : d.permits off n false = true := by
  have hreadable : d.isWritableData = true → d.isReadable = true := by
    unfold SegDescriptor.isWritableData SegDescriptor.isReadable
    cases d.kind <;> simp
  simp only [SegDescriptor.permits, if_true, Bool.and_eq_true, Bool.false_eq_true, if_false] at h ⊢
  exact ⟨⟨h.1.1, hreadable h.1.2⟩, h.2⟩

/-- Where there was room to push some items, they can be read back from below. -/
theorem StackReadable.of_roomFor {t : State} {esp : Word} {w : Bool} {n : Nat}
    (h : RoomFor t.sregs.ss.desc esp w n)
    (hesp : t.regs.esp = esp - BitVec.ofNat 32 (slotSize w * n)) : StackReadable t w n := by
  intro k hk
  have hslot : slotAt t.regs.esp w k = esp - BitVec.ofNat 32 (slotSize w * (n - k)) := by
    have hsize : slotSize w * n = slotSize w * k + slotSize w * (n - k) := by
      rw [← Nat.mul_add, Nat.add_sub_cancel' hk.le]
    rw [hesp, slotAt, hsize, BitVec.ofNat_add]
    generalize BitVec.ofNat 32 (slotSize w * k) = x
    generalize BitVec.ofNat 32 (slotSize w * (n - k)) = y
    bv_omega
  rw [hslot]
  exact SegDescriptor.permits_read (h (n - k) (by omega) (by omega))

/-! ### What the return needs of the interrupted program -/

/-- The code segment the interrupted program runs in still stands in its table, as it is cached, and
passes the checks of a return to it (R80). -/
structure CodeStands (s t : State) : Prop where
  descriptor : t.readSegDescriptor s.sregs.cs.sel = some s.sregs.cs.desc
  notNull : s.sregs.cs.sel &&& 0xFFFC ≠ 0
  code : s.sregs.cs.desc.isCode = true
  present : s.sregs.cs.desc.present = true
  dpl : if s.sregs.cs.desc.isConforming then s.sregs.cs.desc.dpl ≤ s.cpl
    else s.sregs.cs.desc.dpl = s.cpl
  entry : s.sregs.cs.desc.inLimit s.eip 1 = true

section
variable {s t u : State} {k : EventKind} {g : Gate} {d : SegDescriptor} {level : BitVec 2}
  (hs : s.Runs) (hentered : HandlerEntered s t k g d level)
  (hframe : FrameAt t true (t.sregs.ss.desc.base + t.regs.esp) s.eip s.sregs.cs.sel s.eflags none)

include hframe in
theorem popped_level : (stackSlot t true 1).extractLsb' 0 2 = s.cpl := by
  obtain ⟨-, hcs, -⟩ := hframe.popped
  rw [← rpl_low, hcs]
  rfl

include hs hentered in
/-- A handler runs with VM and NT clear (R144). -/
theorem HandlerEntered.runs : t.Runs ∧ t.flagNT = false :=
  ⟨⟨hentered.system.mode.trans hs.1, hentered.flags 17 (by decide)⟩, hentered.flags 14 (by decide)⟩

include hs hentered hframe in
/-- The frame passes the checks of a return to the interrupted program (R80). -/
theorem CodeStands.returnReady (h : CodeStands s t) (hlevel : level ≤ s.cpl) :
    ReturnReady t true s.sregs.cs.desc := by
  obtain ⟨heip, hcs, hflags⟩ := hframe.popped
  have hrpl := popped_level hframe
  have hzeroLe {l : BitVec 2} : 0 ≤ l := BitVec.le_def.2 (Nat.zero_le _)
  exact
    { notNull := by rw [hcs]; exact h.notNull
      descriptor := by rw [hcs]; exact h.descriptor
      code := h.code
      rpl := by rw [hrpl, hentered.cpl]; exact hlevel
      dpl := by rw [hrpl]; exact h.dpl
      present := h.present
      entry := by rw [heip]; exact h.entry
      notVirtual8086 := fun _ _ => by rw [hflags]; exact hs.2 }

/-! ### What the return leaves -/

/-- An IRET whose image is the interrupted EFLAGS restores them, where the flags it holds back at its
level are those of the interrupted program anyway (R74). -/
theorem eflags_of_iretFlags {old cur new : Word} {cpl : BitVec 2} (hok : fixReserved old = old)
    (h : IretFlags cur old cpl new)
    (hheld : ∀ j, j = 12 ∨ j = 13 ∨ j = 17 → cpl = 0 ∨ flag cur j = flag old j)
    (hif : cpl ≤ ioplOf cur ∨ flag cur 9 = flag old 9) : new = old := by
  refine BitVec.eq_of_getLsbD_eq fun j hj => ?_
  have hfixed : old.getLsbD j = (old.getLsbD j && definedFlags.getLsbD j || decide (j = 1)) := by
    have hbit := flag_fixReserved old j
    rwa [hok] at hbit
  rw [h j hj]
  split
  · next hone => rw [hfixed, decide_eq_true hone, Bool.or_true]
  split
  · next hone hundefined =>
    rw [hfixed, hundefined, decide_eq_false hone, Bool.and_false, Bool.or_false]
  split
  · next hiopl =>
    split
    · rfl
    · next hcpl => exact (hheld j (by omega)).resolve_left hcpl
  split
  · next hbit =>
    split
    · rfl
    · next hcpl => rw [hbit]; exact hif.resolve_left hcpl
  split
  · next hvm =>
    split
    · rfl
    · next hcpl => exact (hheld j (by omega)).resolve_left hcpl
  · rfl

include hs hentered in
/-- The flags an IRET may hold back, IF apart, are the interrupted program's in its handler too. -/
theorem HandlerEntered.held_flags (j : Nat) (hj : j = 12 ∨ j = 13 ∨ j = 17) :
    flag t.eflags j = flag s.eflags j := by
  have hbit := hentered.flags j (by omega)
  rcases hj with rfl | rfl | rfl
  · exact hbit
  · exact hbit
  · exact hbit.trans hs.2.symm

include hs hentered in
theorem HandlerEntered.iopl : ioplOf t.eflags = s.iopl := by
  refine BitVec.eq_of_getLsbD_eq fun j hj => ?_
  have hheld := hentered.held_flags hs (12 + j) (by omega)
  simp only [ioplOf, State.iopl, BitVec.getLsbD_extractLsb', hj, decide_true, Bool.true_and]
  exact hheld

include hs hentered hframe in
/-- IRETD resumes the interrupted program, the stack and the data segments apart, and the bytes of
memory are those the handler met. -/
theorem Returned.resumed (hok : s.flagsOk) (hreturned : Returned t u true s.sregs.cs.desc)
    (hif : level ≤ ioplOf t.eflags ∨ flag t.eflags 9 = flag s.eflags 9) :
    u.eip = s.eip ∧ u.sregs.cs = s.sregs.cs ∧ u.eflags = s.eflags ∧ SameRegsBut .esp s u := by
  obtain ⟨heip, hcs, hflags⟩ := hframe.popped
  have hmerged := hreturned.flags
  have himage : poppedFlags t true = s.eflags := (if_pos rfl).trans hflags
  rw [himage, hentered.cpl] at hmerged
  refine ⟨(hreturned.eipWide rfl).trans heip, by rw [hreturned.cs, hcs], ?_,
    fun q hq => (hreturned.regs q hq).trans (hentered.regs q hq)⟩
  have hheld (j : Nat) (hj : j = 12 ∨ j = 13 ∨ j = 17) :
      level = 0 ∨ flag t.eflags j = flag s.eflags j := .inr (hentered.held_flags hs j hj)
  exact eflags_of_iretFlags (old := s.eflags) hok hmerged hheld hif

end

theorem SegRegs.eq_of_fields {x y : SegRegs} (hes : x.es = y.es) (hcs : x.cs = y.cs) (hss : x.ss = y.ss)
    (hds : x.ds = y.ds) (hfs : x.fs = y.fs) (hgs : x.gs = y.gs) : x = y := by
  cases x
  cases y
  subst hes hcs hss hds hfs hgs
  rfl

theorem sameRegs_of_esp {s u : State} (h : SameRegsBut .esp s u) (hesp : u.regs.esp = s.regs.esp) :
    SameRegs s u := fun q => by
  by_cases hq : q = .esp
  · subst hq
    exact hesp
  · exact h q hq

theorem SameMemoryOutside.of_returned {s t u : State} {a : Word} {n : Nat}
    (h : SameMemoryOutside s t a n) (hreturn : SameMemory t u) : SameMemoryOutside s u a n :=
  fun x hx => (hreturn x).trans (h x hx)

end Sys2Proof.Machine
end

section
/-! Settled: an interrupt and the IRETD of its handler together lose nothing of the interrupted program
(60_exceptions.md R87, R141, R142; 43_iret.md R74, R75). -/

namespace Sys2Proof.Machine

/-- Settles O46: the frame the delivery pushes is the one IRETD pops, to the same level. -/
theorem interruptAndReturnSameLevel : Obligations.InterruptAndReturnSameLevel := by
  intro s t v k g d p hs hok hready hwide hdeliver hdesc hnull hcode hpresent hdpl hlimit hgate
  obtain ⟨t', hdeliver', hentry⟩ := hready.deliver_entry s.sregs.cs.sel s.eip
  obtain rfl : t' = t := Except.ok.inj (hdeliver'.symm.trans hdeliver)
  obtain ⟨hentered, hss, hesp, hframe, hmem⟩ := hentry
  have hroom := hready.room
  rw [hwide] at hesp hframe hmem hroom
  rw [← hss] at hframe hroom
  have hstands : CodeStands s t' := ⟨hdesc, hnull, hcode, hpresent, hdpl, hlimit⟩
  obtain ⟨hruns, hnt⟩ := hentered.runs hs
  have hread : StackReadable t' true 3 := .of_roomFor hroom hesp
  obtain ⟨u, hexec, hreturned, hesp', hsregs⟩ := iretSameLevel t' (.iretd p) true s.sregs.cs.desc hruns
    hnt rfl hread (hstands.returnReady hs hentered hframe (BitVec.le_refl _))
    ((popped_level hframe).trans hentered.cpl.symm)
  have hif : s.cpl ≤ ioplOf t'.eflags ∨ flag t'.eflags 9 = flag s.eflags 9 := by
    rcases hgate with htrap | hle
    · right
      have hbit := hentered.flags 9 (by decide)
      rw [htrap] at hbit
      exact hbit
    · exact .inl (hentered.iopl hs ▸ hle)
  obtain ⟨heip, hcs, hflags, hregs⟩ := hreturned.resumed hs hentered hframe hok hif
  have hesp_back : u.regs.esp = s.regs.esp := by
    rw [hesp', hesp]
    exact BitVec.sub_add_cancel _ _
  refine ⟨u, hexec, heip, ?_, sameRegs_of_esp hregs hesp_back, hflags, hreturned.nmiBlocked, ?_⟩
  · rw [hsregs]
    exact SegRegs.eq_of_fields hentered.es hcs hss hentered.ds hentered.fs hentered.gs
  · rw [hesp] at hmem
    exact hmem.of_returned hreturned.memory

/-- A register that holds nothing more privileged than the level returned to is kept (R80). -/
theorem DataSegmentReturned.kept {level : BitVec 2} {before after : SegRegister}
    (h : DataSegmentReturned level before after)
    (hkeep : ¬(before.desc.present = true ∧ before.desc.dpl < level)) : after = before :=
  h.2 hkeep

/-- Settles O47: above that frame stand the interrupted ESP and SS, which IRETD pops too, to the level
the interrupted program ran at. -/
theorem interruptAndReturnInner : Obligations.InterruptAndReturnInner := by
  intro s t v k g d ds p hs hok hready hwide hzero hdeliver hdesc hnull hcode hpresent hdpl hlimit
    hstack hstackDesc hdata
  obtain ⟨t', hdeliver', hentry⟩ := hready.deliver_entry s.sregs.cs.sel s.eip
  obtain rfl : t' = t := Except.ok.inj (hdeliver'.symm.trans hdeliver)
  obtain ⟨hentered, hss, hesp, hframe, holdEsp, holdSs, hmem⟩ := hentry
  have hlevel := hready.level
  have hroom := hready.room
  rw [hzero] at hentered hesp hroom hlevel
  have hbase : t'.sregs.ss.desc = ds := by rw [hss]
  rw [hwide] at hesp hframe holdEsp holdSs hmem hroom
  rw [← hbase] at hframe holdEsp holdSs hroom
  have hstands : CodeStands s t' := ⟨hdesc, hnull, hcode, hpresent, hdpl, hlimit⟩
  obtain ⟨hruns, hnt⟩ := hentered.runs hs
  have hread : StackReadable t' true 5 := .of_roomFor hroom hesp
  have hrpl := popped_level hframe
  have hzeroLe {l : BitVec 2} : 0 ≤ l := BitVec.le_def.2 (Nat.zero_le _)
  have hslotEsp : stackSlot t' true 3 = s.regs.esp := (stackSlot_eq t' true 3).trans holdEsp
  have hslotSs : (stackSlot t' true 4).extractLsb' 0 16 = s.sregs.ss.sel := by
    rw [stackSlot_eq, ← read16_eq_readSlot]
    exact holdSs
  have hrplSs : (stackSlot t' true 4).extractLsb' 0 2 = s.cpl := by
    rw [← rpl_low, hslotSs]
    exact hstack.rpl
  have hready' := hstands.returnReady hs hentered hframe hzeroLe
  obtain ⟨u, hexec, hreturned, hssBack, -, hespBack, hes, hds, hfs, hgs⟩ := iretOuterLevel t' (.iretd p)
    true s.sregs.cs.desc s.sregs.ss.desc hruns hnt rfl hread hready'
    (by rw [hrpl, hentered.cpl]; exact hlevel) (by rw [hslotSs]; exact hstack.notNull)
    (by rw [hslotSs]; exact hstackDesc) (by rw [hrplSs, hrpl]) hstack.writable
    (by rw [hrpl]; exact hstack.dpl) hstack.present
  obtain ⟨heip, hcs, hflags, hregs⟩ := hreturned.resumed hs hentered hframe hok (.inl hzeroLe)
  have hcpl : u.cpl = s.cpl := by rw [State.cpl, hcs]; rfl
  rw [hcpl] at hes hds hfs hgs
  rw [hentered.es] at hes
  rw [hentered.ds] at hds
  rw [hentered.fs] at hfs
  rw [hentered.gs] at hgs
  refine ⟨u, hexec, heip, ?_, sameRegs_of_esp hregs ((hespBack rfl).trans hslotEsp), hflags,
    hreturned.nmiBlocked, ?_⟩
  · exact SegRegs.eq_of_fields (hes.kept (hdata _ (by simp))) hcs (by rw [hssBack, hslotSs])
      (hds.kept (hdata _ (by simp))) (hfs.kept (hdata _ (by simp))) (hgs.kept (hdata _ (by simp)))
  · rw [hesp] at hmem
    exact hmem.of_returned hreturned.memory

end Sys2Proof.Machine
end

section
/-! Settled: the faults of a task switch (60_exceptions.md R132, R149, R151; 43_iret.md R79). -/

namespace Sys2Proof.Machine

/-! ### Through a task gate -/

/-- A delivery through a task gate that passes the checks of R129, R139 and R128 is the task switch. -/
theorem deliver_of_task {s : State} {v : Byte} {k : EventKind} {g : Gate} (hvm : s.flagVM = false)
    (hg : GateReady s v k g) (hkind : g.kind = .task) (err : Option Word) (cs : Half) (ret : Word) :
    deliver s v k err cs ret = (do
      let t ← taskSwitch s g.sel err k.ext cs ret
      pure (endDelivery t k)) := by
  obtain ⟨hgate, hcheck⟩ := hg.stages
  rw [deliver, hvm, Bool.not_false, inScope_true, ok_bind, hgate, ok_bind, hcheck, ok_bind, hkind]

/-- A task gate with faults raises one of them. -/
theorem deliver_task_raises {s : State} {v : Byte} {k : EventKind} {g : Gate} {e : Exn} {cs : Half}
    {ret : Word} (hvm : s.flagVM = false) (hg : GateReady s v k g) (hkind : g.kind = .task)
    (he : TaskGateFault s g.sel k.ext cs ret e) (err : Option Word) :
    ∃ e, TaskGateFault s g.sel k.ext cs ret e ∧ deliver s v k err cs ret = .error (.raise e) := by
  have hfaults := List.ne_nil_of_mem ((mem_gateTaskFaults s g.sel k.ext cs ret e).2 he)
  obtain ⟨e', hmem, hraise⟩ := taskSwitch_raises err hfaults
  refine ⟨e', (mem_gateTaskFaults _ _ _ _ _ _).1 hmem, ?_⟩
  rw [deliver_of_task hvm hg hkind, hraise, error_bind]

/-- A busy TSS is a fault of the gate that names it (R151). -/
theorem taskGateFault_busy {s : State} {sel : Half} {d : SegDescriptor} (hti : sel.getLsbD 2 = false)
    (hd : s.readSegDescriptor sel = some d) (hbusy : d.kind = .tss32 true) (ext : Word) (cs : Half)
    (ret : Word) : TaskGateFault s sel ext cs ret ⟨13, selectorCode sel ext⟩ :=
  .inl (.inr ⟨hti, d, hd, .inl ⟨by rw [hbusy]; decide, by rw [hbusy]; decide, rfl⟩⟩)

/-! ### Through the previous task link -/

/-- The two forms of IRET with NT = 1 (R79). -/
theorem exec_iret_task {s : State} {i : Instr} {w : Bool} (hr : s.Runs) (hnt : s.flagNT = true)
    (hi : iretSize i = some w) :
    exec i s = conclude s.nmisUnblocked (do
      let t ← taskReturn s.nmisUnblocked (eipNext s i)
      pure t.settle) := by
  simp only [exec_iret_eq hi, returnFromHandler, State.nmisUnblocked, hr.1, hr.2, hnt,
    Bool.false_eq_true, if_false, if_true]

/-- Settles O48: the lists the two switches draw their exception from hold exactly the faults. -/
theorem taskSwitchFaults : Obligations.TaskSwitchFaults := by
  refine ⟨fun s v k g err cs ret hvm hg hkind => ⟨fun ⟨e, he⟩ => ?_, fun d hti hd hbusy => ?_⟩,
    fun s i hr hnt hi htss ⟨e, he⟩ => ?_⟩
  · exact deliver_task_raises hvm hg hkind he err
  · have hfault := taskGateFault_busy hti hd hbusy k.ext cs ret
    obtain ⟨e, he, hraise⟩ := deliver_task_raises hvm hg hkind hfault err
    refine ⟨fun t hok => ?_, fun honly => ?_⟩
    · rw [hraise] at hok
      cases hok
    · exact hraise.trans (by rw [honly e he])
  · obtain ⟨w, hw⟩ := Option.isSome_iff_exists.1 hi
    have hfaults := List.ne_nil_of_mem ((mem_returnTaskFaults s.nmisUnblocked _ e).2 he)
    have htr : s.nmisUnblocked.tr.desc.isTss32 = true := (isTss32_iff _).2 htss
    obtain ⟨e', hmem, hraise⟩ := taskReturn_raises htr hfaults
    refine ⟨e', (mem_returnTaskFaults _ _ _).1 hmem, ?_⟩
    rw [exec_iret_task hr hnt hw, show eipNext s i = s.eip + BitVec.ofNat 32 (encode i).length from rfl,
      hraise, error_bind, conclude_raise]

end Sys2Proof.Machine
end

section
/-! Settled: what a completed switch through a task gate stores and loads (60_exceptions.md R149 to
R151). -/

namespace Sys2Proof.Machine

/-! ### What is stored before the new context is loaded -/

/-- The bytes a switch to the TSS of a descriptor at an address stores beside the saved context: the
link back and the byte with the busy mark. -/
def LinkOrMark (d : SegDescriptor) (a x : Word) : Prop := (x - d.base).toNat < 2 ∨ x = a + 5

/-- The interrupted task saved and the link back stored (R149). -/
def linkedTask (s : State) (d : SegDescriptor) (cs : Half) (ret : Word) : State :=
  (saveTask s s.eflags cs ret).write16 d.base s.tr.sel

section
variable (s : State) (sel : Half) (d : SegDescriptor) (a : Word) (cs : Half) (ret : Word)

/-- What a switch stores last is the byte with the busy mark. -/
theorem switchedTo_mem : ∃ b : Byte, b.getLsbD 1 = true ∧
    (switchedTo s sel d a cs ret).mem = ((linkedTask s d cs ret).setByte (a + 5) b).mem := by
  have hbase : d.base + tssLink = d.base := BitVec.add_zero _
  rw [switchedTo, hbase, setTr_mem, linkedTask]
  generalize (saveTask s s.eflags cs ret).write16 d.base s.tr.sel = linked
  refine ⟨linked.byteAt (a + 5) ||| 0x02, ?_, ?_⟩
  · simp
  · rw [markBusy, if_pos rfl]

variable {s sel d a cs ret} {m : State} (hm : m.mem = (switchedTo s sel d a cs ret).mem)
include hm

theorem byteAt_switchedTo {x : Word} (h : ¬ LinkOrMark d a x) :
    m.byteAt x = (saveTask s s.eflags cs ret).byteAt x := by
  obtain ⟨hlink, hmark⟩ := not_or.1 h
  obtain ⟨b, -, hb⟩ := switchedTo_mem s sel d a cs ret
  rw [byteAt_congr (hm.trans hb), byteAt_setByte, if_neg hmark, linkedTask,
    byteAt_write16_outside _ _ _ _ (Nat.not_lt.1 hlink)]

/-- The TSS switched to is marked busy (R149). -/
theorem byteAt_switchedTo_mark : (m.byteAt (a + 5)).getLsbD 1 = true := by
  obtain ⟨b, hbusy, hb⟩ := switchedTo_mem s sel d a cs ret
  rwa [byteAt_congr (hm.trans hb), byteAt_setByte, if_pos rfl]

/-- The link back is the selector of the task left, unless the busy mark overlaps it (R149). -/
theorem read16_switchedTo_link (h : 2 ≤ ((a + 5) - d.base).toNat) : m.read16 d.base = s.tr.sel := by
  obtain ⟨b, -, hb⟩ := switchedTo_mem s sel d a cs ret
  have hkept : m.read16 d.base = (linkedTask s d cs ret).read16 d.base := read16_of_bytes fun k hk => by
    rw [byteAt_congr (hm.trans hb), byteAt_setByte, if_neg (by bv_omega)]
  rw [hkept, linkedTask, read16_write16]

/-- A switch stores the saved context, the link back and the busy mark. -/
theorem sameMemoryBut_switchedTo : SameMemoryBut s m (LinkOrMark d a) := fun x hout hx =>
  (byteAt_switchedTo hm hx).trans (saveTask_outside s _ cs ret x hout)

end

/-! ### The switch -/

/-- A task gate without a fault: the context in the new TSS is in order. -/
theorem gateTaskFaults_nil {s : State} {sel cs : Half} {ext ret a : Word} {d : SegDescriptor}
    (h : gateTaskFaults s sel ext cs ret = []) (hs : s.tr.desc.isTss32 = true)
    (ha : s.tssAddr sel = some a) (hd : d = decodeSegDescriptor (s.read64 a))
    (hd32 : d.isTss32 = true) : contextFaults (switchedTo s sel d a cs ret) ext = [] := by
  subst hd
  simp only [gateTaskFaults, ha] at h
  obtain ⟨-, -, -, -, hcontext⟩ := switchFaults_nil h hd32 hs
  exact hcontext

/-- A completed delivery through a task gate, stage by stage: the new context `u` is loaded without a
fault, and an error code is pushed onto its stack (R149). -/
theorem deliver_task_ok {s t : State} {v : Byte} {k : EventKind} {g : Gate} {d : SegDescriptor}
    {a : Word} {err : Option Word} {cs : Half} {ret : Word}
    (hgate : decodeGate (s.read64 (s.idtr.base + 8 * v.setWidth 32)) = some g) (hkind : g.kind = .task)
    (ha : s.descriptorAddr g.sel = some a) (hd : s.readSegDescriptor g.sel = some d)
    (h : deliver s v k err cs ret = .ok t) :
    ∃ u w, contextFaults (switchedTo s g.sel d a cs ret) k.ext = [] ∧
      loadTask (switchedTo s g.sel d a cs ret) true = .ok u ∧
      (∀ e, err = some e → push32 (ssExn k.ext) u e = .ok w) ∧ (err = none → w = u) ∧
      Carried s w ∧ t = endDelivery w k := by
  obtain ⟨-, g', w, hg', -, hw, rfl⟩ := (deliver_ok _ _ _ _ _ _ _).1 h
  obtain rfl : g = g' := Option.some.inj (hgate.symm.trans ((idtGate_ok _ _ _ _).1 hg').2)
  rw [if_pos hkind] at hw
  obtain ⟨hfaults, a', d', u, ha', hd', hd32, hs32, hload, hpush, hnone⟩ :=
    (taskSwitch_ok _ _ _ _ _ _ _).1 hw
  obtain rfl : a = a' := Option.some.inj (ha.symm.trans ((tssAddr_some _ _ _).1 ha').2)
  obtain rfl : d = d' := by
    rw [State.readSegDescriptor, ha] at hd
    exact (Option.some.inj hd).symm.trans hd'.symm
  exact ⟨u, w, gateTaskFaults_nil hfaults hs32 ha' hd' hd32, hload, hpush, hnone,
    taskSwitch_carried hw, rfl⟩

/-- A nested task is loaded with NT set, and the load stores nothing (R149). -/
theorem loadTask_nested {s u : State} (h : loadTask s true = .ok u) :
    u.tr = s.tr ∧ u.flagNT = true ∧ u.mem = s.mem := by
  obtain ⟨-, rfl⟩ := (loadTask_ok _ _ _).1 h
  exact ⟨rfl, flag_setFlag _ ntBit ntBit true (by decide), rfl⟩

/-- The error code goes onto the new task's stack as the last act of a switch; nothing else of the new
task is touched. -/
theorem pushed_of_err {u w : State} {fault : Exn} {err : Option Word}
    (hpush : ∀ e, err = some e → push32 fault u e = .ok w) (hnone : err = none → w = u) :
    Pushed u w := by
  cases err with
  | none => exact hnone rfl ▸ Pushed.refl u
  | some e => exact push32_pushed (hpush e rfl)

theorem Pushed.tr {s t : State} (h : Pushed s t) : t.tr = s.tr := by
  obtain ⟨_, _, _, rfl, -⟩ := h
  rfl

theorem Pushed.flagNT {s t : State} (h : Pushed s t) : t.flagNT = s.flagNT := by
  obtain ⟨_, _, _, rfl, -⟩ := h
  rfl

/-- What stands on the stack after a push of an error code. -/
theorem push32_stored {u w : State} {fault : Exn} {e : Word} (h : push32 fault u e = .ok w) :
    w.regs.esp = u.regs.esp - 4 ∧
      w.read32 (w.sregs.ss.desc.base + w.regs.esp) = e ∧
      SameMemoryOutside u w (w.sregs.ss.desc.base + w.regs.esp) 4 := by
  obtain ⟨-, rfl⟩ := (push32_ok _ _ _ _).1 h
  exact ⟨rfl, read32_write32 u _ e, fun x hx => byteAt_write32_outside u _ x e hx⟩

/-- A new task's context is what was loaded, with an error code pushed or not. -/
theorem TaskLoaded.pushed {u w : State} {b : Word} (h : TaskLoaded u u b) (hp : Pushed u w)
    (k : EventKind) : TaskLoaded { endDelivery w k with mem := u.mem } (endDelivery w k) b := by
  obtain ⟨esp, m, n, rfl, -⟩ := hp
  exact { h with }

/-- Settles O49: the memory is the one the new context is loaded from, before the error code is
pushed. -/
theorem taskSwitchEnters : Obligations.TaskSwitchEnters := by
  intro s t v k g d a err cs ret hgate hkind ha hd h
  obtain ⟨u, w, hcontext, hload, hpush, hnone, hcarried, rfl⟩ := deliver_task_ok hgate hkind ha hd h
  obtain ⟨hloaded, hesp⟩ := loadTask_loaded hload hcontext
  obtain ⟨htr, hnt, hmem⟩ := loadTask_nested hload
  have hpushed := pushed_of_err hpush hnone
  refine ⟨hpushed.tr.trans htr, hpushed.flagNT.trans hnt, { hcarried.sameButTask with }, ⟨rfl, rfl⟩,
    congrArg (· + 1) hcarried.deliveries, congrArg (· || k == .nmi) hcarried.nmiBlocked, u.mem,
    sameMemoryBut_switchedTo hmem, byteAt_switchedTo_mark hmem, read16_switchedTo_link hmem,
    hloaded.pushed hpushed k, fun herr => ?_, fun e herr => ?_⟩
  · obtain rfl := hnone herr
    exact ⟨hesp, fun _ => rfl⟩
  · obtain ⟨hespPushed, hread, hmemory⟩ := push32_stored (hpush e herr)
    exact ⟨hespPushed.trans (congrArg (· - 4) hesp), hread, hmemory⟩

/-- Settles O50: what is stored after the context is the link back, the busy mark and the error
code. -/
theorem taskContextSaved : Obligations.TaskContextSaved := by
  intro s t v k g d a err cs ret hgate hkind ha hd h
  obtain ⟨u, w, -, hload, hpush, hnone, -, rfl⟩ := deliver_task_ok hgate hkind ha hd h
  obtain ⟨-, -, hmem⟩ := loadTask_nested hload
  have hkept (x : Word) (hx : ¬((x - d.base).toNat < 2 ∨ x = a + 5 ∨ err.isSome = true ∧
      (x - (w.sregs.ss.desc.base + w.regs.esp)).toNat < 4)) :
      w.byteAt x = (saveTask s s.eflags cs ret).byteAt x := by
    simp only [not_or, not_and, Nat.not_lt] at hx
    obtain ⟨hlink, hmark, hcode⟩ := hx
    have hu := byteAt_switchedTo hmem (not_or.2 ⟨Nat.not_lt.2 hlink, hmark⟩)
    cases err with
    | none => rw [hnone rfl, hu]
    | some e =>
      obtain ⟨-, -, hmemory⟩ := push32_stored (hpush e rfl)
      exact (hmemory x (hcode rfl)).trans hu
  exact ⟨(saveTask_saved s _ cs ret).keep hkept,
    fun x hout hx => (hkept x hx).trans (saveTask_outside s _ cs ret x hout)⟩

end Sys2Proof.Machine
end

section
/-! Settled: what leaves the shutdown (93_implementation_defined.md G10). -/

namespace Sys2Proof.Machine

/-- A step of a processor in shutdown is a hardware reset, an NMI, or more of the wait, in which the
inputs are received and nothing runs. -/
theorem step_of_shutdown {s t : State} (hdown : s.shutdown = true) (h : step s = .next t) :
    s.input.reset = true ∨ nmiDeliverable s = true ∨ t = s.received := by
  rcases step_next h with ⟨hreset, -⟩ | ⟨-, -, hcase⟩
  · exact .inl hreset
  · rcases hcase with ⟨-, hwait⟩ | ⟨hnmi, -⟩ | ⟨hrun, -⟩ | ⟨hrun, -⟩
    · exact .inr (.inr hwait)
    · exact .inr (.inl hnmi)
    · exact absurd (hdown.symm.trans hrun) Bool.noConfusion
    · exact absurd (hdown.symm.trans hrun) Bool.noConfusion

/-- Settles O23: the wait stays in the shutdown, so a step that leaves it is a reset or an NMI. -/
theorem shutdownLeft : Obligations.ShutdownLeft := by
  intro s t hdown h hleft
  rcases step_of_shutdown hdown h with hreset | hnmi | rfl
  · exact .inl hreset
  · exact .inr ((nmiDeliverable_iff s).1 hnmi)
  · rw [received_shutdown, hdown] at hleft
    cases hleft

end Sys2Proof.Machine
end
